-- ==== Sys2Proof/Word.lean ====
section
/-! DEFINITION. The two data widths of the machine (R7): the byte and the 16-bit Short. -/

namespace Sys2Proof

/-- "unsigned 8-bit value" (R7). -/
abbrev Byte := BitVec 8

/-- The source's Short: "unsigned 16-bit value" (R7); registers, literals and addresses. `+`, `-`, `*` and `~~~` on it
are the modular operators +w, -w, *w and ~w of R10. -/
abbrev Word := BitVec 16

end Sys2Proof
end

