-- ==== Sys2Proof/Syntax.lean ====
section
/-! DEFINITION. The instruction set as data: the twelve registers (R20, R21), the 46 variants (R98), the eleven argument
shapes (R94), the operand fields an instruction is made of (R95), and the instructions themselves. -/

namespace Sys2Proof

/-- The register file's closed list of twelve names (R20, R21). -/
inductive Reg where
  | ip | acc | r1 | r2 | r3 | r4 | r5 | r6 | r7 | r8 | sp | fp
deriving DecidableEq, Repr

/-- The twelve registers in the order of their ids (R21). -/
def Reg.all : List Reg := [.ip, .acc, .r1, .r2, .r3, .r4, .r5, .r6, .r7, .r8, .sp, .fp]

/-- The 46 variants of R98, without their operands: what an opcode byte selects. -/
inductive Opcode where
  | moveLitReg | moveRegReg | moveRegMem | moveMemReg | moveLitMem | moveRegPtrReg | moveLitOffReg
  | addRegReg | addLitReg | subLitReg | subRegLit | subRegReg | mulLitReg | mulRegReg | incReg | decReg
  | leftShiftRegLit | leftShiftRegReg | rightShiftRegLit | rightShiftRegReg | andRegLit | andRegReg
  | orRegLit | orRegReg | xorRegLit | xorRegReg | not
  | jumpNotEqReg | jumpNotEqLit | jumpEqReg | jumpEqLit | jumpLtReg | jumpLtLit | jumpGtReg | jumpGtLit
  | jumpLteReg | jumpLteLit | jumpGteReg | jumpGteLit
  | pushLit | pushReg | pop
  | callLit | callReg | ret
  | halt
deriving DecidableEq, Repr

/-- The move variants of R98. -/
def Opcode.moveOpcodes : List Opcode :=
  [.moveLitReg, .moveRegReg, .moveRegMem, .moveMemReg, .moveLitMem,
   .moveRegPtrReg, .moveLitOffReg]

/-- The arithmetic variants of R98. -/
def Opcode.arithmeticOpcodes : List Opcode :=
  [.addRegReg, .addLitReg, .subLitReg, .subRegLit, .subRegReg,
   .mulLitReg, .mulRegReg, .incReg, .decReg]

/-- The bitwise variants of R98. -/
def Opcode.bitwiseOpcodes : List Opcode :=
  [.leftShiftRegLit, .leftShiftRegReg, .rightShiftRegLit, .rightShiftRegReg, .andRegLit,
   .andRegReg, .orRegLit, .orRegReg, .xorRegLit, .xorRegReg,
   .not]

/-- The jump variants of R98. -/
def Opcode.jumpOpcodes : List Opcode :=
  [.jumpNotEqReg, .jumpNotEqLit, .jumpEqReg, .jumpEqLit, .jumpLtReg,
   .jumpLtLit, .jumpGtReg, .jumpGtLit, .jumpLteReg, .jumpLteLit,
   .jumpGteReg, .jumpGteLit]

/-- The stack variants of R98. -/
def Opcode.stackOpcodes : List Opcode :=
  [.pushLit, .pushReg, .pop]

/-- The call variants of R98. -/
def Opcode.callOpcodes : List Opcode :=
  [.callLit, .callReg, .ret]

/-- The control variants of R98. -/
def Opcode.controlOpcodes : List Opcode :=
  [.halt]

/-- The 46 variants in the order of R98. -/
def Opcode.all : List Opcode :=
  Opcode.moveOpcodes ++ Opcode.arithmeticOpcodes ++ Opcode.bitwiseOpcodes ++ Opcode.jumpOpcodes
    ++ Opcode.stackOpcodes ++ Opcode.callOpcodes ++ Opcode.controlOpcodes

/-- The eleven argument shapes of R94, named as the source names them. -/
inductive Shape where
  | none | reg | lit | litReg | regReg | regLit | regMem | memReg | litMem | regPtrReg | litOffReg
deriving DecidableEq, Repr

/-- What kind of operand field stands at a place of a shape: a register id (1 byte) or a literal or address (2 bytes), R95. -/
inductive FieldKind where
  | reg | short
deriving DecidableEq, Repr

/-- One operand field with its value (R95): a register, or the 16-bit value of a literal or address field. -/
inductive Field where
  | reg (r : Reg)
  | short (v : Word)
deriving DecidableEq, Repr

/-- The instructions: one constructor per row of spec/opcode_table.json (R98), its arguments the operand fields in the
order the shape lists them (R94, R97). Every term is a legal instruction: every register is admitted in every register
field (R22, R102) and a literal or address field admits all 65536 values (R103). -/
inductive Instr where
  /-- MoveLitReg, format LR (R131). -/
  | moveLitReg (lit : Word) (r : Reg)
  /-- MoveRegReg, format RR (R132). -/
  | moveRegReg (ra rb : Reg)
  /-- MoveRegMem, format RM (R133). -/
  | moveRegMem (r : Reg) (addr : Word)
  /-- MoveMemReg, format MR (R134). -/
  | moveMemReg (addr : Word) (r : Reg)
  /-- MoveLitMem, format LM (R135). -/
  | moveLitMem (lit addr : Word)
  /-- MoveRegPtrReg, format PR (R136). -/
  | moveRegPtrReg (rp rd : Reg)
  /-- MoveLitOffReg, format LOR (R137). -/
  | moveLitOffReg (lit : Word) (ro rd : Reg)
  /-- AddRegReg, format RR (R151). -/
  | addRegReg (ra rb : Reg)
  /-- AddLitReg, format LR (R152). -/
  | addLitReg (lit : Word) (r : Reg)
  /-- SubLitReg, format LR (R154). -/
  | subLitReg (lit : Word) (r : Reg)
  /-- SubRegLit, format RL (R155). -/
  | subRegLit (r : Reg) (lit : Word)
  /-- SubRegReg, format RR (R156). -/
  | subRegReg (ra rb : Reg)
  /-- MulLitReg, format LR (R157). -/
  | mulLitReg (lit : Word) (r : Reg)
  /-- MulRegReg, format RR (R158). -/
  | mulRegReg (ra rb : Reg)
  /-- IncReg, format R (R159). -/
  | incReg (r : Reg)
  /-- DecReg, format R (R160). -/
  | decReg (r : Reg)
  /-- LeftShiftRegLit, format RL (R172). -/
  | leftShiftRegLit (r : Reg) (lit : Word)
  /-- LeftShiftRegReg, format RR (R173). -/
  | leftShiftRegReg (ra rb : Reg)
  /-- RightShiftRegLit, format RL (R174). -/
  | rightShiftRegLit (r : Reg) (lit : Word)
  /-- RightShiftRegReg, format RR (R175). -/
  | rightShiftRegReg (ra rb : Reg)
  /-- AndRegLit, format RL (R176). -/
  | andRegLit (r : Reg) (lit : Word)
  /-- AndRegReg, format RR (R177). -/
  | andRegReg (ra rb : Reg)
  /-- OrRegLit, format RL (R178). -/
  | orRegLit (r : Reg) (lit : Word)
  /-- OrRegReg, format RR (R179). -/
  | orRegReg (ra rb : Reg)
  /-- XorRegLit, format RL (R180). -/
  | xorRegLit (r : Reg) (lit : Word)
  /-- XorRegReg, format RR (R181). -/
  | xorRegReg (ra rb : Reg)
  /-- Not, format R (R182). -/
  | not (r : Reg)
  /-- JumpNotEqReg, format RM (R192). -/
  | jumpNotEqReg (r : Reg) (addr : Word)
  /-- JumpNotEqLit, format LM (R193). -/
  | jumpNotEqLit (lit addr : Word)
  /-- JumpEqReg, format RM (R194). -/
  | jumpEqReg (r : Reg) (addr : Word)
  /-- JumpEqLit, format LM (R195). -/
  | jumpEqLit (lit addr : Word)
  /-- JumpLtReg, format RM (R196). -/
  | jumpLtReg (r : Reg) (addr : Word)
  /-- JumpLtLit, format LM (R197). -/
  | jumpLtLit (lit addr : Word)
  /-- JumpGtReg, format RM (R198). -/
  | jumpGtReg (r : Reg) (addr : Word)
  /-- JumpGtLit, format LM (R199). -/
  | jumpGtLit (lit addr : Word)
  /-- JumpLteReg, format RM (R200). -/
  | jumpLteReg (r : Reg) (addr : Word)
  /-- JumpLteLit, format LM (R201). -/
  | jumpLteLit (lit addr : Word)
  /-- JumpGteReg, format RM (R202). -/
  | jumpGteReg (r : Reg) (addr : Word)
  /-- JumpGteLit, format LM (R203). -/
  | jumpGteLit (lit addr : Word)
  /-- PushLit, format L (R222). -/
  | pushLit (lit : Word)
  /-- PushReg, format R (R223). -/
  | pushReg (r : Reg)
  /-- Pop, format R (R224). -/
  | pop (r : Reg)
  /-- CallLit, format L (R242). -/
  | callLit (addr : Word)
  /-- CallReg, format R (R243). -/
  | callReg (r : Reg)
  /-- Ret, format N (R244). -/
  | ret
  /-- Halt, format N (R260). -/
  | halt
deriving DecidableEq, Repr

/-- The variant an instruction is an example of. -/
def Instr.opcode : Instr → Opcode
  | .moveLitReg _ _ => .moveLitReg
  | .moveRegReg _ _ => .moveRegReg
  | .moveRegMem _ _ => .moveRegMem
  | .moveMemReg _ _ => .moveMemReg
  | .moveLitMem _ _ => .moveLitMem
  | .moveRegPtrReg _ _ => .moveRegPtrReg
  | .moveLitOffReg _ _ _ => .moveLitOffReg
  | .addRegReg _ _ => .addRegReg
  | .addLitReg _ _ => .addLitReg
  | .subLitReg _ _ => .subLitReg
  | .subRegLit _ _ => .subRegLit
  | .subRegReg _ _ => .subRegReg
  | .mulLitReg _ _ => .mulLitReg
  | .mulRegReg _ _ => .mulRegReg
  | .incReg _ => .incReg
  | .decReg _ => .decReg
  | .leftShiftRegLit _ _ => .leftShiftRegLit
  | .leftShiftRegReg _ _ => .leftShiftRegReg
  | .rightShiftRegLit _ _ => .rightShiftRegLit
  | .rightShiftRegReg _ _ => .rightShiftRegReg
  | .andRegLit _ _ => .andRegLit
  | .andRegReg _ _ => .andRegReg
  | .orRegLit _ _ => .orRegLit
  | .orRegReg _ _ => .orRegReg
  | .xorRegLit _ _ => .xorRegLit
  | .xorRegReg _ _ => .xorRegReg
  | .not _ => .not
  | .jumpNotEqReg _ _ => .jumpNotEqReg
  | .jumpNotEqLit _ _ => .jumpNotEqLit
  | .jumpEqReg _ _ => .jumpEqReg
  | .jumpEqLit _ _ => .jumpEqLit
  | .jumpLtReg _ _ => .jumpLtReg
  | .jumpLtLit _ _ => .jumpLtLit
  | .jumpGtReg _ _ => .jumpGtReg
  | .jumpGtLit _ _ => .jumpGtLit
  | .jumpLteReg _ _ => .jumpLteReg
  | .jumpLteLit _ _ => .jumpLteLit
  | .jumpGteReg _ _ => .jumpGteReg
  | .jumpGteLit _ _ => .jumpGteLit
  | .pushLit _ => .pushLit
  | .pushReg _ => .pushReg
  | .pop _ => .pop
  | .callLit _ => .callLit
  | .callReg _ => .callReg
  | .ret => .ret
  | .halt => .halt

end Sys2Proof
end

