-- ==== Sys2Proof/Config.lean ====
section
/-! DEFINITION. What the platform or the implementation fixes: the parameters of R8, which the model takes as plain data
(`Params`), and the values the spec leaves to an oracle or calls unspecified, which are opaque. -/

namespace Sys2Proof

/-- OPCODE_MAP: the byte of each variant, one row per variant (R98, R100, D1). -/
abbrev OpcodeMap := List (Opcode × Byte)

/-- REGION_ADDRESSING: the address a region's device receives (R60, D12). -/
inductive RegionAddressing where
  | absolute  -- the access's own address
  | relative  -- the address less the region's start
deriving DecidableEq, Repr

/-- Which operand of a Sub form, in encoding order, is the minuend (R153). -/
inductive Minuend where
  | first | second
deriving DecidableEq, Repr

/-- SUB_ORDER: the minuend of each Sub form (R153, D3). -/
structure SubOrder where
  litReg : Minuend
  regLit : Minuend
  regReg : Minuend
deriving DecidableEq, Repr

/-- SHIFT_AMOUNT: how a shift count of 16 or more acts (R171, D4). -/
inductive ShiftAmount where
  | mod16  -- the count is taken modulo 16
  | zero   -- a count of 16 or more gives 0
deriving DecidableEq, Repr

/-- FP_RESTORE: which frame size Ret adds to the saved Fp (R244, D11). -/
inductive FpRestore where
  | popped   -- the value popped from the frame
  | current  -- the counter as the later pops left it
deriving DecidableEq, Repr

/-- Which side of a jump's relation the comparand stands on (R190: "A model may take the orientation as part of the
parameter set of D5"). -/
inductive JumpOrientation where
  | comparandFirst | accFirst
deriving DecidableEq, Repr

/-- The parameters "the model takes as arguments" (R8). PLATFORM_REGIONS and MEM_CAPACITY stand in the mapper
(Machine/Device.lean), PERIPHERAL in the opaque oracle below. -/
structure Params where
  opcodeMap : OpcodeMap
  addressing : RegionAddressing
  subOrder : SubOrder
  shiftAmount : ShiftAmount
  fpRestore : FpRestore
  orientation : JumpOrientation
deriving DecidableEq, Repr

/-- The four operations of a device, with the data of a write: RB, RS, WB, WS of R80 (R51). -/
inductive BusOp where
  | readByte
  | readShort
  | writeByte (v : Byte)
  | writeShort (v : Word)
deriving DecidableEq, Repr

/-- A request that reaches an external peripheral (R80): which peripheral, at which address, which operation. A 16-bit
write is one request, "one atomic big-endian value" (R57, R70). -/
structure PeripheralRequest where
  handle : Nat
  addr : Nat
  op : BusOp
deriving DecidableEq, Repr

/-- What an external peripheral does with a request (R80, R57, R315). -/
inductive PeripheralFate where
  | respond  -- it completes; a read returns data
  | fail     -- the fault Peripheral (R275)
  | hang     -- it never responds (R315, U11)
deriving DecidableEq, Repr, Inhabited

/-- PERIPHERAL (D21): what a peripheral does with a request, after all the requests peripherals have received before
(newest first). Free: nothing constrains it (log entry 4). -/
opaque Config.peripheralFate : List PeripheralRequest → PeripheralRequest → PeripheralFate

/-- PERIPHERAL (D21): the data a peripheral's read returns, "any value: a draw per read, under no law" (U9); a byte read
takes the low 8 bits. Free: nothing constrains it (log entry 4). -/
opaque Config.peripheralData : List PeripheralRequest → PeripheralRequest → Word

/-- The byte that a 2-byte write whose second byte is past the device's capacity leaves at its first address, from that
address, the value and the old byte: "any value for that byte" (U13, R55). Free: nothing constrains it (log entry 3). -/
opaque Config.tornByte : Nat → Word → Byte → Byte

end Sys2Proof
end

