-- ==== Sys2Proof/Machine/Device.lean ====
section
/-! DEFINITION. The devices and the region list as plain data (R52 to R64): the bytes of a device, the four device
variants, and the mapper, which is the ordered list of regions. -/

namespace Sys2Proof.Machine

/-- The bytes of a device: the cells that differ from `Memory.unlisted`, by strictly rising index. -/
abbrev Memory := List Host.Cell

/-- What an unlisted index reads as: a Memory is "zero-initialized at creation" (R53), a Register device is zero at
creation (R56). -/
abbrev Memory.unlisted : Byte := 0

/-- The devices that are not themselves mappers (R52). -/
inductive Device where
  /-- The flat Memory of a fixed capacity (R53). -/
  | memory (capacity : Nat) (bytes : Memory)
  /-- The Register device, 2 bytes of storage (R56). -/
  | register (bytes : Memory)
  /-- An external peripheral (R57); its handle names it to the oracle of Config. -/
  | peripheral (handle : Nat)
deriving DecidableEq, Repr

/-- The mapper: regions in insertion order, each an inclusive range of natural bounds bound to the device it owns (R58,
R59); the device of a `composite` region is a mapper with its own region list (R63). -/
inductive Mapper where
  | nil
  | device (start stop : Nat) (dev : Device) (rest : Mapper)
  | composite (start stop : Nat) (inner rest : Mapper)
deriving DecidableEq, Repr

end Sys2Proof.Machine
end

