-- ==== Sys2Proof/WellFormed.lean ====
section
/-! DEFINITION. The checks on what the host hands over and on what the model keeps in one form: an opcode map is injective
and total, an instruction has an opcode byte, a device's bytes are in canonical form and within its capacity, a region is
not empty. The operands of an instruction need no check (R22, R102, R103): their types admit exactly the legal ones. -/

namespace Sys2Proof

/-- "`OPCODE_MAP` assigns 46 distinct bytes to the 46 variants" (R100): every variant has one row, and no two rows share
a byte. -/
def OpcodeMap.wf (m : OpcodeMap) : Bool :=
  Opcode.all.all (fun v => m.any (fun row => row.1 == v))
    && decide (m.map Prod.fst).Nodup && decide (m.map Prod.snd).Nodup

/-- An instruction is well formed under an opcode map that gives its variant a byte: it can be encoded. -/
def Instr.wf (m : OpcodeMap) (i : Instr) : Bool := m.any (fun row => row.1 == i.opcode)

namespace Machine

/-- The canonical form of a device's bytes: indices strictly rising, no cell equal to what an unlisted index reads as. -/
abbrev Memory.wf (m : Memory) : Prop :=
  m.Pairwise (fun x y => x.1 < y.1) ∧ ∀ c ∈ m, c.2 ≠ Memory.unlisted

/-- No cell at or past the capacity (R53: the bytes are `m[0] .. m[C-1]`). -/
abbrev Memory.within (capacity : Nat) (m : Memory) : Prop := ∀ c ∈ m, c.1 < capacity

/-- The capacity of a Memory device lies in `1 <= C <= 0x10000` (R53), and the bytes of a device are in canonical form
within its capacity; a Register device has capacity 2 (R56). -/
def Device.wf : Device → Bool
  | .memory capacity bytes =>
    decide (1 ≤ capacity ∧ capacity ≤ 0x10000) && decide bytes.wf && decide (bytes.within capacity)
  | .register bytes => decide bytes.wf && decide (bytes.within 2)
  | .peripheral _ => true

/-- Every region's range is non-empty (R59) and every device in it well formed. Overlaps are allowed (R61). -/
def Mapper.wf : Mapper → Bool
  | .nil => true
  | .device start stop dev rest => decide (start ≤ stop) && dev.wf && rest.wf
  | .composite start stop inner rest => decide (start ≤ stop) && inner.wf && rest.wf

end Machine

end Sys2Proof
end

