-- ==== Sys2Proof/Decode.lean ====
section
/-! DEFINITION. Byte order, register ids, the opcode map, the encoding tables, the decoder (total on any bytes, rejecting by
name) and, after it, the encoder written from the same tables (R91, R94 to R102). -/

namespace Sys2Proof

/-- A 16-bit value from its two bytes, "high byte at the lower address" (R66, R96). -/
def wordOfBytes (high low : Byte) : Word := high ++ low

/-- Bits 15..8 of a value (R55, R66). -/
def highByte (v : Word) : Byte := v.extractLsb' 8 8

/-- Bits 7..0 of a value (R55, R66). -/
def lowByte (v : Word) : Byte := v.extractLsb' 0 8

/-- The register id (R21). -/
def Reg.id : Reg → Byte
  | .ip => 0x00 | .acc => 0x01 | .r1 => 0x02 | .r2 => 0x03 | .r3 => 0x04 | .r4 => 0x05
  | .r5 => 0x06 | .r6 => 0x07 | .r7 => 0x08 | .r8 => 0x09 | .sp => 0x0A | .fp => 0x0B

/-- The register a register-operand byte names; none for 0x0C to 0xFF (R102). -/
def regOfByte (b : Byte) : Option Reg := Reg.all.find? (fun r => r.id == b)

/-- The opcode byte of a variant. -/
def OpcodeMap.byteOf (m : OpcodeMap) (v : Opcode) : Option Byte :=
  (m.find? (fun row => row.1 == v)).map Prod.snd

/-- The variant an opcode byte selects; none for a byte of no variant (R99). -/
def OpcodeMap.variantOf (m : OpcodeMap) (b : Byte) : Option Opcode :=
  (m.find? (fun row => row.2 == b)).map Prod.fst

/-- What supplies operand fields: the next register field, the next literal or address field. The decoder takes them from
a list of bytes; the execution engine from memory at Ip (Machine/Operands.lean). -/
structure FieldSource (m : Type → Type) where
  reg : m Reg
  short : m Word

/-- Shapes reg. -/
def readReg {m : Type → Type} [Monad m] (src : FieldSource m) (mk : Reg → Instr) : m Instr := do
  let r ← src.reg
  return mk r

/-- Shape lit. -/
def readShort {m : Type → Type} [Monad m] (src : FieldSource m) (mk : Word → Instr) : m Instr := do
  let v ← src.short
  return mk v

/-- Shapes lit+reg and mem+reg. -/
def readShortReg {m : Type → Type} [Monad m] (src : FieldSource m) (mk : Word → Reg → Instr) : m Instr := do
  let v ← src.short
  let r ← src.reg
  return mk v r

/-- Shapes reg+reg and reg-ptr+reg. -/
def readRegReg {m : Type → Type} [Monad m] (src : FieldSource m) (mk : Reg → Reg → Instr) : m Instr := do
  let ra ← src.reg
  let rb ← src.reg
  return mk ra rb

/-- Shapes reg+lit and reg+mem. -/
def readRegShort {m : Type → Type} [Monad m] (src : FieldSource m) (mk : Reg → Word → Instr) : m Instr := do
  let r ← src.reg
  let v ← src.short
  return mk r v

/-- Shape lit+mem. -/
def readShortShort {m : Type → Type} [Monad m] (src : FieldSource m) (mk : Word → Word → Instr) : m Instr := do
  let v ← src.short
  let addr ← src.short
  return mk v addr

/-- Shape lit+offset+reg. -/
def readShortRegReg {m : Type → Type} [Monad m] (src : FieldSource m) (mk : Word → Reg → Reg → Instr) : m Instr := do
  let v ← src.short
  let ro ← src.reg
  let rd ← src.reg
  return mk v ro rd

/-- The reference opcode bytes of the move variants (R98). -/
def OpcodeMap.moveRows : OpcodeMap :=
  [(.moveLitReg, 0x10), (.moveRegReg, 0x11), (.moveRegMem, 0x12), (.moveMemReg, 0x13),
   (.moveLitMem, 0x1B), (.moveRegPtrReg, 0x1C), (.moveLitOffReg, 0x1D)]

/-- The reference opcode bytes of the arithmetic variants (R98). -/
def OpcodeMap.arithmeticRows : OpcodeMap :=
  [(.addRegReg, 0x14), (.addLitReg, 0x3F), (.subLitReg, 0x16), (.subRegLit, 0x1E),
   (.subRegReg, 0x1F), (.mulLitReg, 0x20), (.mulRegReg, 0x21), (.incReg, 0x35),
   (.decReg, 0x36)]

/-- The reference opcode bytes of the bitwise variants (R98). -/
def OpcodeMap.bitwiseRows : OpcodeMap :=
  [(.leftShiftRegLit, 0x26), (.leftShiftRegReg, 0x27), (.rightShiftRegLit, 0x2A), (.rightShiftRegReg, 0x2B),
   (.andRegLit, 0x2E), (.andRegReg, 0x2F), (.orRegLit, 0x30), (.orRegReg, 0x31),
   (.xorRegLit, 0x32), (.xorRegReg, 0x33), (.not, 0x34)]

/-- The reference opcode bytes of the jump variants (R98). -/
def OpcodeMap.jumpRows : OpcodeMap :=
  [(.jumpNotEqReg, 0x40), (.jumpNotEqLit, 0x15), (.jumpEqReg, 0x3E), (.jumpEqLit, 0x41),
   (.jumpLtReg, 0x42), (.jumpLtLit, 0x43), (.jumpGtReg, 0x44), (.jumpGtLit, 0x45),
   (.jumpLteReg, 0x46), (.jumpLteLit, 0x47), (.jumpGteReg, 0x48), (.jumpGteLit, 0x49)]

/-- The reference opcode bytes of the stack variants (R98). -/
def OpcodeMap.stackRows : OpcodeMap :=
  [(.pushLit, 0x17), (.pushReg, 0x18), (.pop, 0x1A)]

/-- The reference opcode bytes of the call variants (R98). -/
def OpcodeMap.callRows : OpcodeMap :=
  [(.callLit, 0x5E), (.callReg, 0x5F), (.ret, 0x60)]

/-- The reference opcode bytes of the control variants (R98). -/
def OpcodeMap.controlRows : OpcodeMap :=
  [(.halt, 0xFF)]

/-- The reference OPCODE_MAP (R98, the "ref. opcode" column). PRESUMED (log entry 7): the source gives no byte values; the
spec took these from general knowledge of the machine the repository ports (D1, G1). -/
def OpcodeMap.reference : OpcodeMap :=
  OpcodeMap.moveRows ++ OpcodeMap.arithmeticRows ++ OpcodeMap.bitwiseRows ++ OpcodeMap.jumpRows
    ++ OpcodeMap.stackRows ++ OpcodeMap.callRows ++ OpcodeMap.controlRows

/-- "variant→argument-shape", the fixed total mapping of R92 and R98. -/
def Opcode.shape : Opcode → Shape
  | .moveLitReg => .litReg
  | .moveRegReg => .regReg
  | .moveRegMem => .regMem
  | .moveMemReg => .memReg
  | .moveLitMem => .litMem
  | .moveRegPtrReg => .regPtrReg
  | .moveLitOffReg => .litOffReg
  | .addRegReg => .regReg
  | .addLitReg => .litReg
  | .subLitReg => .litReg
  | .subRegLit => .regLit
  | .subRegReg => .regReg
  | .mulLitReg => .litReg
  | .mulRegReg => .regReg
  | .incReg => .reg
  | .decReg => .reg
  | .leftShiftRegLit => .regLit
  | .leftShiftRegReg => .regReg
  | .rightShiftRegLit => .regLit
  | .rightShiftRegReg => .regReg
  | .andRegLit => .regLit
  | .andRegReg => .regReg
  | .orRegLit => .regLit
  | .orRegReg => .regReg
  | .xorRegLit => .regLit
  | .xorRegReg => .regReg
  | .not => .reg
  | .jumpNotEqReg => .regMem
  | .jumpNotEqLit => .litMem
  | .jumpEqReg => .regMem
  | .jumpEqLit => .litMem
  | .jumpLtReg => .regMem
  | .jumpLtLit => .litMem
  | .jumpGtReg => .regMem
  | .jumpGtLit => .litMem
  | .jumpLteReg => .regMem
  | .jumpLteLit => .litMem
  | .jumpGteReg => .regMem
  | .jumpGteLit => .litMem
  | .pushLit => .lit
  | .pushReg => .reg
  | .pop => .reg
  | .callLit => .lit
  | .callReg => .reg
  | .ret => .none
  | .halt => .none

/-- The operand fields of an instruction in encoding order (R94, R97). -/
def Instr.fields : Instr → List Field
  | .moveLitReg lit r => [.short lit, .reg r]
  | .moveRegReg ra rb => [.reg ra, .reg rb]
  | .moveRegMem r addr => [.reg r, .short addr]
  | .moveMemReg addr r => [.short addr, .reg r]
  | .moveLitMem lit addr => [.short lit, .short addr]
  | .moveRegPtrReg rp rd => [.reg rp, .reg rd]
  | .moveLitOffReg lit ro rd => [.short lit, .reg ro, .reg rd]
  | .addRegReg ra rb => [.reg ra, .reg rb]
  | .addLitReg lit r => [.short lit, .reg r]
  | .subLitReg lit r => [.short lit, .reg r]
  | .subRegLit r lit => [.reg r, .short lit]
  | .subRegReg ra rb => [.reg ra, .reg rb]
  | .mulLitReg lit r => [.short lit, .reg r]
  | .mulRegReg ra rb => [.reg ra, .reg rb]
  | .incReg r => [.reg r]
  | .decReg r => [.reg r]
  | .leftShiftRegLit r lit => [.reg r, .short lit]
  | .leftShiftRegReg ra rb => [.reg ra, .reg rb]
  | .rightShiftRegLit r lit => [.reg r, .short lit]
  | .rightShiftRegReg ra rb => [.reg ra, .reg rb]
  | .andRegLit r lit => [.reg r, .short lit]
  | .andRegReg ra rb => [.reg ra, .reg rb]
  | .orRegLit r lit => [.reg r, .short lit]
  | .orRegReg ra rb => [.reg ra, .reg rb]
  | .xorRegLit r lit => [.reg r, .short lit]
  | .xorRegReg ra rb => [.reg ra, .reg rb]
  | .not r => [.reg r]
  | .jumpNotEqReg r addr => [.reg r, .short addr]
  | .jumpNotEqLit lit addr => [.short lit, .short addr]
  | .jumpEqReg r addr => [.reg r, .short addr]
  | .jumpEqLit lit addr => [.short lit, .short addr]
  | .jumpLtReg r addr => [.reg r, .short addr]
  | .jumpLtLit lit addr => [.short lit, .short addr]
  | .jumpGtReg r addr => [.reg r, .short addr]
  | .jumpGtLit lit addr => [.short lit, .short addr]
  | .jumpLteReg r addr => [.reg r, .short addr]
  | .jumpLteLit lit addr => [.short lit, .short addr]
  | .jumpGteReg r addr => [.reg r, .short addr]
  | .jumpGteLit lit addr => [.short lit, .short addr]
  | .pushLit lit => [.short lit]
  | .pushReg r => [.reg r]
  | .pop r => [.reg r]
  | .callLit addr => [.short addr]
  | .callReg r => [.reg r]
  | .ret => []
  | .halt => []

/-- Operand fetch of each variant (R91): the fields of its shape, in order, from whatever supplies them. -/
def readOperands {m : Type → Type} [Monad m] (src : FieldSource m) : Opcode → m Instr
  | .moveLitReg => readShortReg src .moveLitReg
  | .moveRegReg => readRegReg src .moveRegReg
  | .moveRegMem => readRegShort src .moveRegMem
  | .moveMemReg => readShortReg src .moveMemReg
  | .moveLitMem => readShortShort src .moveLitMem
  | .moveRegPtrReg => readRegReg src .moveRegPtrReg
  | .moveLitOffReg => readShortRegReg src .moveLitOffReg
  | .addRegReg => readRegReg src .addRegReg
  | .addLitReg => readShortReg src .addLitReg
  | .subLitReg => readShortReg src .subLitReg
  | .subRegLit => readRegShort src .subRegLit
  | .subRegReg => readRegReg src .subRegReg
  | .mulLitReg => readShortReg src .mulLitReg
  | .mulRegReg => readRegReg src .mulRegReg
  | .incReg => readReg src .incReg
  | .decReg => readReg src .decReg
  | .leftShiftRegLit => readRegShort src .leftShiftRegLit
  | .leftShiftRegReg => readRegReg src .leftShiftRegReg
  | .rightShiftRegLit => readRegShort src .rightShiftRegLit
  | .rightShiftRegReg => readRegReg src .rightShiftRegReg
  | .andRegLit => readRegShort src .andRegLit
  | .andRegReg => readRegReg src .andRegReg
  | .orRegLit => readRegShort src .orRegLit
  | .orRegReg => readRegReg src .orRegReg
  | .xorRegLit => readRegShort src .xorRegLit
  | .xorRegReg => readRegReg src .xorRegReg
  | .not => readReg src .not
  | .jumpNotEqReg => readRegShort src .jumpNotEqReg
  | .jumpNotEqLit => readShortShort src .jumpNotEqLit
  | .jumpEqReg => readRegShort src .jumpEqReg
  | .jumpEqLit => readShortShort src .jumpEqLit
  | .jumpLtReg => readRegShort src .jumpLtReg
  | .jumpLtLit => readShortShort src .jumpLtLit
  | .jumpGtReg => readRegShort src .jumpGtReg
  | .jumpGtLit => readShortShort src .jumpGtLit
  | .jumpLteReg => readRegShort src .jumpLteReg
  | .jumpLteLit => readShortShort src .jumpLteLit
  | .jumpGteReg => readRegShort src .jumpGteReg
  | .jumpGteLit => readShortShort src .jumpGteLit
  | .pushLit => readShort src .pushLit
  | .pushReg => readReg src .pushReg
  | .pop => readReg src .pop
  | .callLit => readShort src .callLit
  | .callReg => readReg src .callReg
  | .ret => pure .ret
  | .halt => pure .halt

/-- The kinds of the fields of a shape, in order (R94). -/
def Shape.fieldKinds : Shape → List FieldKind
  | .none => []
  | .reg => [.reg]
  | .lit => [.short]
  | .litReg => [.short, .reg]
  | .regReg => [.reg, .reg]
  | .regLit => [.reg, .short]
  | .regMem => [.reg, .short]
  | .memReg => [.short, .reg]
  | .litMem => [.short, .short]
  | .regPtrReg => [.reg, .reg]
  | .litOffReg => [.short, .reg, .reg]

/-- "a register operand is 1 byte and a literal or address operand is 2 bytes" (R92). -/
def FieldKind.width : FieldKind → Nat
  | .reg => 1
  | .short => 2

/-- The kind of a field. -/
def Field.kind : Field → FieldKind
  | .reg _ => .reg
  | .short _ => .short

/-- The read that fetches a field of a kind: one byte, or one 2-byte read (R69, D23). -/
def FieldKind.readOp : FieldKind → BusOp
  | .reg => .readByte
  | .short => .readShort

/-- The length of an instruction of a shape: the opcode byte and the operand bytes (R92). -/
def Shape.length (sh : Shape) : Nat := 1 + (sh.fieldKinds.map FieldKind.width).sum

/-- The length of an instruction in bytes, 1 to 5 (R92). -/
def Instr.length (i : Instr) : Nat := i.opcode.shape.length

/-- Why the decoder rejects a list of bytes. -/
inductive DecodeError where
  /-- The opcode byte selects no variant (R99). -/
  | unknownOpcode (b : Byte)
  /-- A register-operand byte of 0x0C or more (R102). -/
  | badRegister (b : Byte)
  /-- The bytes end before the instruction does. -/
  | truncated
deriving DecidableEq, Repr

/-- Reads from the front of a list of bytes. -/
abbrev ByteReader := EStateM DecodeError (List Byte)

/-- The next byte of the list. -/
def ByteReader.byte : ByteReader Byte := fun bs =>
  match bs with
  | [] => .error .truncated []
  | b :: rest => .ok b rest

/-- A register field: one byte, its id checked as it is read (R91, R102). -/
def ByteReader.reg : ByteReader Reg := do
  let b ← ByteReader.byte
  match regOfByte b with
  | some r => return r
  | none => throw (.badRegister b)

/-- A literal or address field: two bytes, high byte first (R95, R96). -/
def ByteReader.short : ByteReader Word := do
  let high ← ByteReader.byte
  let low ← ByteReader.byte
  return wordOfBytes high low

/-- An opcode byte and the operand fields of its shape (R90, R91). -/
def ByteReader.instr (m : OpcodeMap) : ByteReader Instr := do
  let b ← ByteReader.byte
  match m.variantOf b with
  | some v => readOperands ⟨ByteReader.reg, ByteReader.short⟩ v
  | none => throw (.unknownOpcode b)

/-- The decoder: the instruction at the front of a list of bytes, with the bytes after it (R99, R102, R104). -/
def decode (m : OpcodeMap) (bs : List Byte) : Except DecodeError (Instr × List Byte) :=
  match ByteReader.instr m bs with
  | .ok i rest => .ok (i, rest)
  | .error e _ => .error e

/-- The bytes of a field (R95). -/
def Field.bytes : Field → List Byte
  | .reg r => [r.id]
  | .short v => [highByte v, lowByte v]

/-- The encoder: the opcode byte, then the bytes of the fields in order (R94); none for a variant the map gives no byte. -/
def encode (m : OpcodeMap) (i : Instr) : Option (List Byte) :=
  (m.byteOf i.opcode).map (fun b => b :: i.fields.flatMap Field.bytes)

/-- The first five bytes of an instruction (the longest, R92) whose bits are `w`, numbered as spec/opcode_table.json numbers
them: bit 0 is the least significant bit of byte 0, and byte k is bits 8k+7..8k; bits at `nbits` and above are 0. -/
def tableBytes (nbits w : Nat) : List Byte :=
  (List.range 5).map (fun k => BitVec.ofNat 8 ((w % 2 ^ nbits) >>> (8 * k)))

/-- What the decoder reads, under the reference opcode map, from an instruction whose bits are `w` in the table's
numbering. -/
def decodeTableWord (nbits w : Nat) : Option Instr :=
  match decode OpcodeMap.reference (tableBytes nbits w) with
  | .ok (i, _) => some i
  | .error _ => none

end Sys2Proof
end

