-- ==== Sys2Proof/Machine/Memory.lean ====
section
/-! DEFINITION. The bytes of a device and the operations of the mapper and its devices, as plain functions: what a request is
answered with (`reply`) and what the device or the mapper is afterwards (`after`) (R53 to R63). -/

namespace Sys2Proof.Machine

/-- The byte at an index. -/
def Memory.read : Memory → Nat → Byte
  | [], _ => Memory.unlisted
  | (k, b) :: rest, a => if a = k then b else Memory.read rest a

/-- Sets the byte at an index and keeps the canonical form: a byte equal to what an unlisted index reads as has no cell. -/
def Memory.write : Memory → Nat → Byte → Memory
  | [], a, v => if v = Memory.unlisted then [] else [(a, v)]
  | (k, b) :: rest, a, v =>
    if a < k then (if v = Memory.unlisted then (k, b) :: rest else (a, v) :: (k, b) :: rest)
    else if a = k then (if v = Memory.unlisted then rest else (a, v) :: rest)
    else (k, b) :: Memory.write rest a v

/-- `Memory.setBytes(buffer)`: copies bytes to successive indices from `a` (R79, R306). -/
def Memory.load (m : Memory) (a : Nat) : List Byte → Memory
  | [] => m
  | b :: bs => Memory.load (m.write a b) (a + 1) bs

/-- How a request is answered: completed with the data of a read (a byte is zero-extended; a write's data means nothing),
no region, past the capacity, or to be answered by an external peripheral at the address it receives. -/
inductive Reply where
  | done (v : Word)
  | unmapped
  | bounds
  | external (handle addr : Nat)
deriving DecidableEq, Repr

/-- How storage of a capacity answers at index `a`: R54 for one byte, R55 for two; index `a + 1` does not wrap. -/
def ramReply (capacity : Nat) (m : Memory) (a : Nat) : BusOp → Reply
  | .readByte => if a < capacity then .done ((m.read a).setWidth 16) else .bounds
  | .readShort => if a + 1 < capacity then .done (wordOfBytes (m.read a) (m.read (a + 1))) else .bounds
  | .writeByte _ => if a < capacity then .done 0 else .bounds
  | .writeShort _ => if a + 1 < capacity then .done 0 else .bounds

/-- Storage after a request (R54, R55, R71). A 2-byte write whose first byte alone is within the capacity faults and leaves
an unspecified byte there (R55, U13; log entry 3). -/
def ramAfter (capacity : Nat) (m : Memory) (a : Nat) : BusOp → Memory
  | .readByte => m
  | .readShort => m
  | .writeByte v => if a < capacity then m.write a v else m
  | .writeShort v =>
    if a + 1 < capacity then (m.write a (highByte v)).write (a + 1) (lowByte v)
    else if a < capacity then m.write a (Config.tornByte a v (m.read a))
    else m

/-- A device's answer. A Register device behaves as a Memory of capacity 2 (R56). -/
def Device.reply (d : Device) (a : Nat) (op : BusOp) : Reply :=
  match d with
  | .memory capacity bytes => ramReply capacity bytes a op
  | .register bytes => ramReply 2 bytes a op
  | .peripheral handle => .external handle a

/-- A device after a request. A peripheral's state is the log of requests, which State holds. -/
def Device.after (d : Device) (a : Nat) (op : BusOp) : Device :=
  match d with
  | .memory capacity bytes => .memory capacity (ramAfter capacity bytes a op)
  | .register bytes => .register (ramAfter 2 bytes a op)
  | .peripheral handle => .peripheral handle

/-- The address a region that starts at `start` passes to its device (R60). -/
def deviceAddress (mode : RegionAddressing) (start a : Nat) : Nat :=
  match mode with
  | .absolute => a
  | .relative => a - start

/-- The mapper's answer at address `a`: the first region whose range contains it answers (R58, R61), once for both bytes
(R62); a composite resolves the address it receives in its own list (R63). -/
def Mapper.reply (mode : RegionAddressing) : Mapper → Nat → BusOp → Reply
  | .nil, _, _ => .unmapped
  | .device start stop dev rest, a, op =>
    if start ≤ a ∧ a ≤ stop then dev.reply (deviceAddress mode start a) op
    else Mapper.reply mode rest a op
  | .composite start stop inner rest, a, op =>
    if start ≤ a ∧ a ≤ stop then Mapper.reply mode inner (deviceAddress mode start a) op
    else Mapper.reply mode rest a op

/-- The mapper after a request: the device that answered is updated in its place. -/
def Mapper.after (mode : RegionAddressing) : Mapper → Nat → BusOp → Mapper
  | .nil, _, _ => .nil
  | .device start stop dev rest, a, op =>
    if start ≤ a ∧ a ≤ stop then .device start stop (dev.after (deviceAddress mode start a) op) rest
    else .device start stop dev (Mapper.after mode rest a op)
  | .composite start stop inner rest, a, op =>
    if start ≤ a ∧ a ≤ stop then
      .composite start stop (Mapper.after mode inner (deviceAddress mode start a) op) rest
    else .composite start stop inner (Mapper.after mode rest a op)

end Sys2Proof.Machine
end

