-- ==== Sys2Proof/Machine/Reference.lean ====
section
/-! DEFINITION. The reference configuration of R8: the value each parameter has in a state made by `State.reset`. -/

namespace Sys2Proof.Machine

/-- SUB_ORDER (R153): register minus literal, literal minus register, first minus second register. PRESUMED (log entry 8):
from general knowledge of the machine the repository ports (D3, G4). -/
def referenceSubOrder : SubOrder where
  litReg := .second
  regLit := .second
  regReg := .first

/-- SHIFT_AMOUNT (R171): the count modulo 16. PRESUMED (log entry 9, D4). -/
def referenceShiftAmount : ShiftAmount := .mod16

/-- FP_RESTORE (R244): the popped value. DESIGN CHOICE (log entry 10, D11). -/
def referenceFpRestore : FpRestore := .popped

/-- REGION_ADDRESSING (R60): absolute. DESIGN CHOICE (log entry 11, D12). -/
def referenceAddressing : RegionAddressing := .absolute

/-- The comparand on the left of the relation (R190). DESIGN CHOICE (log entry 12, D5). -/
def referenceOrientation : JumpOrientation := .comparandFirst

/-- The reference values of R8. -/
def referenceParams : Params where
  opcodeMap := OpcodeMap.reference
  addressing := referenceAddressing
  subOrder := referenceSubOrder
  shiftAmount := referenceShiftAmount
  fpRestore := referenceFpRestore
  orientation := referenceOrientation

/-- A platform of one Memory of capacity `capacity` whose region is [0, capacity - 1]: what a single Memory is auto-wrapped
into (R64). -/
def Mapper.autoWrap (capacity : Nat) (bytes : Memory) : Mapper :=
  .device 0 (capacity - 1) (.memory capacity bytes) .nil

/-- PLATFORM_REGIONS (R8, R65): one Memory of capacity 0x10000 at [0x0000, 0xFFFF], nothing loaded. DESIGN CHOICE (log
entry 13, D17). -/
def referencePlatform : Mapper := Mapper.autoWrap 0x10000 []

end Sys2Proof.Machine
end

