-- ==== Sys2Proof/Machine/Registers.lean ====
section
/-! DEFINITION. The register file (R20 to R23): twelve 16-bit cells, read and written by name, and what they hold after
reset (R33). -/

namespace Sys2Proof.Machine

/-- "a fixed named collection of twelve registers", each "a 2-byte storage cell" (R20). -/
structure RegFile where
  ip : Word
  acc : Word
  r1 : Word
  r2 : Word
  r3 : Word
  r4 : Word
  r5 : Word
  r6 : Word
  r7 : Word
  r8 : Word
  sp : Word
  fp : Word
deriving DecidableEq, Repr

/-- `get(variant) -> Short` (R22). -/
def RegFile.get (f : RegFile) : Reg → Word
  | .ip => f.ip | .acc => f.acc | .r1 => f.r1 | .r2 => f.r2 | .r3 => f.r3 | .r4 => f.r4
  | .r5 => f.r5 | .r6 => f.r6 | .r7 => f.r7 | .r8 => f.r8 | .sp => f.sp | .fp => f.fp

/-- `set(variant, Short)` (R22): replaces all 16 bits of that register alone (R23). -/
def RegFile.set (f : RegFile) (r : Reg) (v : Word) : RegFile :=
  match r with
  | .ip => { f with ip := v } | .acc => { f with acc := v } | .r1 => { f with r1 := v } | .r2 => { f with r2 := v }
  | .r3 => { f with r3 := v } | .r4 => { f with r4 := v } | .r5 => { f with r5 := v } | .r6 => { f with r6 := v }
  | .r7 => { f with r7 := v } | .r8 => { f with r8 := v } | .sp => { f with sp := v } | .fp => { f with fp := v }

/-- R33: Ip is 0x0000, "Sp and Fp are initialized to `0xFFFE`"; Acc and R1 to R8 are 0x0000 by the spec's decision D7
(DESIGN CHOICE, log entry 14). -/
def RegFile.reset : RegFile where
  ip := 0x0000
  acc := 0x0000
  r1 := 0x0000
  r2 := 0x0000
  r3 := 0x0000
  r4 := 0x0000
  r5 := 0x0000
  r6 := 0x0000
  r7 := 0x0000
  r8 := 0x0000
  sp := 0xFFFE
  fp := 0xFFFE

end Sys2Proof.Machine
end

