-- ==== Sys2Proof/Machine/State.lean ====
section
/-! DEFINITION. The architectural state as plain data: "the register file (twelve 16-bit registers), the frame-size register
`FS` of the stack frame controller, the run state, and the mapper with the devices it owns" (10_state.md), with the log of
peripheral requests and the parameters of R8. -/

namespace Sys2Proof.Machine

/-- The five fault kinds with the info each records (R270). -/
inductive FaultKind where
  /-- The opcode byte selects no variant: the byte and its address (R271). -/
  | decodeOpcode (byte : Byte) (addr : Word)
  /-- A register-operand byte of 0x0C or more: the byte and its address (R272). -/
  | decodeRegister (byte : Byte) (addr : Word)
  /-- No region contains the access address (R273). -/
  | unmapped (addr : Word)
  /-- A Memory or Register device accessed at or past its capacity: the access address (R274). -/
  | bounds (addr : Word)
  /-- An external peripheral fails the access: the address (R275). -/
  | peripheral (addr : Word)
deriving DecidableEq, Repr

/-- The run state (R28). -/
inductive RunState where
  | running
  | halted
  | faulted (kind : FaultKind)
deriving DecidableEq, Repr

/-- What stops `step` itself. The spec's own faults are no stops: they are run states (R276). -/
inductive Fault where
  /-- An external peripheral never responds: the step never completes (R315, U11). Raised by every access that reaches such
  a peripheral (`busAccess`). Safe: the model stops where the hardware hangs. -/
  | peripheralHang (addr : Word)
deriving DecidableEq, Repr

/-- Why the model gives an instruction no meaning. -/
inductive Refusal where
  /-- The instruction has no meaning yet; raised by no arm of `exec`, since every instruction has one. Safe. -/
  | notModelled (mnemonic : String)
deriving DecidableEq, Repr

/-- The state of the machine. -/
structure State where
  /-- The register file (R20). -/
  regs : RegFile
  /-- The frame-size register FS (R27). -/
  fs : Word
  /-- The run state (R28). -/
  runState : RunState
  /-- The mapper with the devices it owns (R32, R58). -/
  mapper : Mapper
  /-- All requests external peripherals have received, newest first: what the oracle of Config answers from. The model's own
  representation of peripheral state, which the spec leaves to the peripheral (R33, D21; log entry 4). -/
  peripheralLog : List PeripheralRequest
  /-- The parameters of R8, which no step changes (log entry 6). -/
  params : Params
deriving DecidableEq, Repr

/-- Steps 4 and 5 of the reset procedure (R300) on a platform the host built: the register file and FS at their reset
values (R33), the run state Running, no peripheral request made. -/
def State.create (params : Params) (mapper : Mapper) : State where
  regs := RegFile.reset
  fs := 0x0000
  runState := .running
  mapper := mapper
  peripheralLog := []
  params := params

/-- The machine right after reset in the reference configuration (R8, R33): every Memory byte 0x00, nothing loaded. -/
def State.reset : State := State.create referenceParams referencePlatform

end Sys2Proof.Machine
end

