-- ==== Sys2Proof/Machine/Ops.lean ====
section
/-! DEFINITION. The named operations the instructions are written in: register, FS and run-state updates, one bus access,
`MemRead` and `MemWrite` (R12), `raise` and fault entry (R14, R276), `Push` and `Pop` (R220, R221), and how an operation
becomes the outcome of a step. -/

namespace Sys2Proof.Machine

/-- `x[r]` (R11). -/
def State.reg (s : State) (r : Reg) : Word := s.regs.get r

/-- `x[r] <- v` (R11, R23). -/
def State.setReg (s : State) (r : Reg) (v : Word) : State := { s with regs := s.regs.set r v }

/-- `FS <- v` (R11). -/
def State.setFs (s : State) (v : Word) : State := { s with fs := v }

/-- The run state becomes `r`. -/
def State.setRun (s : State) (r : RunState) : State := { s with runState := r }

/-- The mapper becomes `m`. -/
def State.setMapper (s : State) (m : Mapper) : State := { s with mapper := m }

/-- Peripherals have received the requests of `log`, newest first. -/
def State.setLog (s : State) (log : List PeripheralRequest) : State := { s with peripheralLog := log }

/-- A peripheral has received the request `e`. -/
def State.logRequest (s : State) (e : PeripheralRequest) : State := s.setLog (e :: s.peripheralLog)

/-- Fault entry (R276): the run state becomes `Faulted(kind, info)`; no state is saved, no handler entered and Ip not
redirected. -/
def State.enterFault (s : State) (k : FaultKind) : State := s.setRun (.faulted k)

/-- How the mapper answers a request at an address (R58). -/
def State.reply (s : State) (op : BusOp) (a : Word) : Reply := s.mapper.reply s.params.addressing a.toNat op

/-- The state after a request that a Memory or Register device answers. -/
def State.after (s : State) (op : BusOp) (a : Word) : State :=
  s.setMapper (s.mapper.after s.params.addressing a.toNat op)

/-- What ends an operation early: a fault of the spec, or a peripheral that never responds at an address. -/
inductive Stop where
  | fault (k : FaultKind)
  | hang (addr : Word)
deriving DecidableEq, Repr

/-- An operation: it runs on a state and either returns a value or stops; the effects of the statements before the stop
stay (R277). Its statements execute in the order written (R14, R72). -/
abbrev Op := EStateM Stop State

/-- Reads a register. -/
def getReg (r : Reg) : Op Word := fun s => .ok (s.reg r) s

/-- Writes a register. -/
def setReg (r : Reg) (v : Word) : Op Unit := fun s => .ok () (s.setReg r v)

/-- Reads FS. -/
def getFs : Op Word := fun s => .ok s.fs s

/-- Writes FS. -/
def setFs (v : Word) : Op Unit := fun s => .ok () (s.setFs v)

/-- Reads the parameters. -/
def getParams : Op Params := fun s => .ok s.params s

/-- `raise K(info)` (R14): the step ends here with the fault `k`. -/
def raise {α : Type} (k : FaultKind) : Op α := fun s => .error (.fault k) s

/-- A request that reaches the external peripheral `handle`, as it stands for the oracle. -/
def peripheralRequest (handle addr : Nat) (op : BusOp) : PeripheralRequest := { handle, addr, op }

/-- An external peripheral serves a request (R57, R80): it receives it, and responds, fails, or never responds. -/
def askPeripheral (a : Word) (e : PeripheralRequest) : Op Word := fun s =>
  match Config.peripheralFate s.peripheralLog e with
  | .respond => .ok (Config.peripheralData s.peripheralLog e) (s.logRequest e)
  | .fail => .error (.fault (.peripheral a)) (s.logRequest e)
  | .hang => .error (.hang a) (s.logRequest e)

/-- One bus transaction at address `a` (R58, R80): the region that answers does the whole operation, or the access raises
`Unmapped`, `Bounds` or `Peripheral` at `a` (R273 to R275). -/
def busAccess (op : BusOp) (a : Word) : Op Word := fun s =>
  match s.reply op a with
  | .done v => .ok v (s.after op a)
  | .unmapped => .error (.fault (.unmapped a)) s
  | .bounds => .error (.fault (.bounds a)) (s.after op a)
  | .external handle addr => askPeripheral a (peripheralRequest handle addr op) s

/-- `MemRead(addr, 1)` (R12). -/
def memReadByte (a : Word) : Op Byte := do
  let v ← busAccess .readByte a
  return lowByte v

/-- `MemRead(addr, 2)` (R12). -/
def memReadShort (a : Word) : Op Word := busAccess .readShort a

/-- `MemWrite(addr, 2, v)` (R12). -/
def memWriteShort (a : Word) (v : Word) : Op Unit := do
  let _ ← busAccess (.writeShort v) a

/-- `Push(v)` (R220): writes `v` at Sp, then moves Sp down by 2 and counts 2 more bytes in the frame. -/
def push (v : Word) : Op Unit := do
  memWriteShort (← getReg .sp) v
  setReg .sp ((← getReg .sp) - 2)
  setFs ((← getFs) + 2)

/-- `Pop()` (R221): moves Sp up by 2 and counts 2 fewer bytes in the frame, then reads the word at the new Sp. -/
def pop : Op Word := do
  setReg .sp ((← getReg .sp) + 2)
  setFs ((← getFs) - 2)
  memReadShort (← getReg .sp)

/-- The outcome of a step whose operation stopped: a fault gives the next state, with the run state `Faulted` (R276); a
peripheral that never responds leaves the step unfinished (R315). -/
def stopOutcome (e : Stop) (t : State) : Host.Outcome State Fault Refusal :=
  match e with
  | .fault k => .next (t.enterFault k)
  | .hang a => .fault (.peripheralHang a)

/-- The outcome of a step from what its operation did (R90). -/
def finish (op : Op Unit) (s : State) : Host.Outcome State Fault Refusal :=
  match op s with
  | .ok _ t => .next t
  | .error e t => stopOutcome e t

/-- Bytes put at successive addresses from outside the machine, not by a step: what a loader does (R306). -/
def State.placeBytes (s : State) (a : Word) : List Byte → State
  | [] => s
  | b :: bs => State.placeBytes (s.after (.writeByte b) a) (a + 1) bs

end Sys2Proof.Machine
end

