-- ==== Sys2Proof/Machine/Alu.lean ====
section
/-! DEFINITION. The arithmetic and shift functions whose meaning depends on a parameter (R153, R171); addition,
multiplication, complement and the logic operations are those of `Word` (R10). -/

namespace Sys2Proof.Machine

/-- The difference of a Sub form's two operands, given which is the minuend (R153). -/
def subtract (m : Minuend) (first second : Word) : Word :=
  match m with
  | .first => first - second
  | .second => second - first

/-- Logical left shift by a 16-bit count (R171). -/
def shiftLeft (mode : ShiftAmount) (x n : Word) : Word :=
  match mode with
  | .mod16 => x <<< (n.toNat % 16)
  | .zero => if n.toNat < 16 then x <<< n.toNat else 0

/-- Logical right shift by a 16-bit count (R171). -/
def shiftRight (mode : ShiftAmount) (x n : Word) : Word :=
  match mode with
  | .mod16 => x >>> (n.toNat % 16)
  | .zero => if n.toNat < 16 then x >>> n.toNat else 0

end Sys2Proof.Machine
end

