-- ==== Sys2Proof/Machine/Arithmetic.lean ====
section
/-! DEFINITION. The nine arithmetic instructions (R150 to R161): modulo 2^16, never a fault, results to Acc but for IncReg
and DecReg. -/

namespace Sys2Proof.Machine

/-- AddRegReg (R151): `Acc <- x[ra] +w x[rb]`. -/
def execAddRegReg (ra rb : Reg) (s : State) : Host.Outcome State Fault Refusal :=
  finish (do setReg .acc ((← getReg ra) + (← getReg rb))) s

/-- AddLitReg (R152): `Acc <- lit +w x[r]`. -/
def execAddLitReg (lit : Word) (r : Reg) (s : State) : Host.Outcome State Fault Refusal :=
  finish (do setReg .acc (lit + (← getReg r))) s

/-- SubLitReg (R154): `Acc <- x[r] -w lit` in the reference order. -/
def execSubLitReg (lit : Word) (r : Reg) (s : State) : Host.Outcome State Fault Refusal :=
  finish (do setReg .acc (subtract (← getParams).subOrder.litReg lit (← getReg r))) s

/-- SubRegLit (R155): `Acc <- lit -w x[r]` in the reference order. -/
def execSubRegLit (r : Reg) (lit : Word) (s : State) : Host.Outcome State Fault Refusal :=
  finish (do setReg .acc (subtract (← getParams).subOrder.regLit (← getReg r) lit)) s

/-- SubRegReg (R156): `Acc <- x[ra] -w x[rb]` in the reference order. -/
def execSubRegReg (ra rb : Reg) (s : State) : Host.Outcome State Fault Refusal :=
  finish (do setReg .acc (subtract (← getParams).subOrder.regReg (← getReg ra) (← getReg rb))) s

/-- MulLitReg (R157): `Acc <- lit *w x[r]`. -/
def execMulLitReg (lit : Word) (r : Reg) (s : State) : Host.Outcome State Fault Refusal :=
  finish (do setReg .acc (lit * (← getReg r))) s

/-- MulRegReg (R158): `Acc <- x[ra] *w x[rb]`. -/
def execMulRegReg (ra rb : Reg) (s : State) : Host.Outcome State Fault Refusal :=
  finish (do setReg .acc ((← getReg ra) * (← getReg rb))) s

/-- IncReg (R159): `x[r] <- x[r] +w 1`. -/
def execIncReg (r : Reg) (s : State) : Host.Outcome State Fault Refusal :=
  finish (do setReg r ((← getReg r) + 1)) s

/-- DecReg (R160): `x[r] <- x[r] -w 1`. -/
def execDecReg (r : Reg) (s : State) : Host.Outcome State Fault Refusal :=
  finish (do setReg r ((← getReg r) - 1)) s

end Sys2Proof.Machine
end

