-- ==== Sys2Proof/Machine/Bitwise.lean ====
section
/-! DEFINITION. The eleven shift and logic instructions (R170 to R182): shifts write back to the first register, And, Or and
Xor write Acc, Not writes its own register. -/

namespace Sys2Proof.Machine

/-- LeftShiftRegLit (R172): `x[r] <- x[r] <<w ShiftCount(lit)`. -/
def execLeftShiftRegLit (r : Reg) (lit : Word) (s : State) : Host.Outcome State Fault Refusal :=
  finish (do setReg r (shiftLeft (← getParams).shiftAmount (← getReg r) lit)) s

/-- LeftShiftRegReg (R173): `n <- x[rb]; x[ra] <- x[ra] <<w ShiftCount(n)`. -/
def execLeftShiftRegReg (ra rb : Reg) (s : State) : Host.Outcome State Fault Refusal :=
  finish (do setReg ra (shiftLeft (← getParams).shiftAmount (← getReg ra) (← getReg rb))) s

/-- RightShiftRegLit (R174): `x[r] <- x[r] >>w ShiftCount(lit)`. -/
def execRightShiftRegLit (r : Reg) (lit : Word) (s : State) : Host.Outcome State Fault Refusal :=
  finish (do setReg r (shiftRight (← getParams).shiftAmount (← getReg r) lit)) s

/-- RightShiftRegReg (R175): `n <- x[rb]; x[ra] <- x[ra] >>w ShiftCount(n)`. -/
def execRightShiftRegReg (ra rb : Reg) (s : State) : Host.Outcome State Fault Refusal :=
  finish (do setReg ra (shiftRight (← getParams).shiftAmount (← getReg ra) (← getReg rb))) s

/-- AndRegLit (R176): `Acc <- x[r] & lit`. -/
def execAndRegLit (r : Reg) (lit : Word) (s : State) : Host.Outcome State Fault Refusal :=
  finish (do setReg .acc ((← getReg r) &&& lit)) s

/-- AndRegReg (R177): `Acc <- x[ra] & x[rb]`. -/
def execAndRegReg (ra rb : Reg) (s : State) : Host.Outcome State Fault Refusal :=
  finish (do setReg .acc ((← getReg ra) &&& (← getReg rb))) s

/-- OrRegLit (R178): `Acc <- x[r] | lit`. -/
def execOrRegLit (r : Reg) (lit : Word) (s : State) : Host.Outcome State Fault Refusal :=
  finish (do setReg .acc ((← getReg r) ||| lit)) s

/-- OrRegReg (R179): `Acc <- x[ra] | x[rb]`. -/
def execOrRegReg (ra rb : Reg) (s : State) : Host.Outcome State Fault Refusal :=
  finish (do setReg .acc ((← getReg ra) ||| (← getReg rb))) s

/-- XorRegLit (R180): `Acc <- x[r] ^ lit`. -/
def execXorRegLit (r : Reg) (lit : Word) (s : State) : Host.Outcome State Fault Refusal :=
  finish (do setReg .acc ((← getReg r) ^^^ lit)) s

/-- XorRegReg (R181): `Acc <- x[ra] ^ x[rb]`. -/
def execXorRegReg (ra rb : Reg) (s : State) : Host.Outcome State Fault Refusal :=
  finish (do setReg .acc ((← getReg ra) ^^^ (← getReg rb))) s

/-- Not (R182): `x[r] <- ~w x[r]`. -/
def execNot (r : Reg) (s : State) : Host.Outcome State Fault Refusal :=
  finish (do setReg r (~~~(← getReg r))) s

end Sys2Proof.Machine
end

