-- ==== Sys2Proof/Machine/Operands.lean ====
section
/-! DEFINITION. Fetching an instruction from memory at Ip (R13, R25, R90, R91), and the operand forms that compute an
address (R136, R137). -/

namespace Sys2Proof.Machine

/-- `FetchByte()` (R13): a faulting read does not advance Ip. -/
def fetchByte : Op Byte := do
  let b ← memReadByte (← getReg .ip)
  setReg .ip ((← getReg .ip) + 1)
  return b

/-- `FetchShort()` (R13). -/
def fetchShort : Op Word := do
  let v ← memReadShort (← getReg .ip)
  setReg .ip ((← getReg .ip) + 2)
  return v

/-- `FetchReg()` (R13): the id is checked as its byte is fetched, and the fault names the byte's own address (R102). -/
def fetchReg : Op Reg := do
  let b ← fetchByte
  match regOfByte b with
  | some r => return r
  | none => raise (.decodeRegister b ((← getReg .ip) - 1))

/-- The step up to its execution (R90): the opcode byte at Ip, its variant, and the operand fields of its shape. Ip ends as
the address of the next sequential instruction (R25). -/
def fetchInstr : Op Instr := do
  let opAddr ← getReg .ip
  let b ← fetchByte
  match (← getParams).opcodeMap.variantOf b with
  | some v => readOperands ⟨fetchReg, fetchShort⟩ v
  | none => raise (.decodeOpcode b opAddr)

/-- The address in a pointer register (R136). -/
def pointerAddress (rp : Reg) : Op Word := getReg rp

/-- A literal base plus the value of an offset register, modulo 2^16 (R137). -/
def offsetAddress (lit : Word) (ro : Reg) : Op Word := do
  return lit + (← getReg ro)

end Sys2Proof.Machine
end

