-- ==== Sys2Proof/Machine/Call.lean ====
section
/-! DEFINITION. Call, return and the frame they save and restore (R240 to R248). -/

namespace Sys2Proof.Machine

/-- R1 to R8, in the order a call saves them (R240). -/
def savedRegs : List Reg := [.r1, .r2, .r3, .r4, .r5, .r6, .r7, .r8]

/-- Pushes the registers of a list in order, each read as it is pushed. -/
def pushRegs : List Reg → Op Unit
  | [] => pure ()
  | r :: rs => do
    push (← getReg r)
    pushRegs rs

/-- Pops into the registers of a list in order. -/
def popRegs : List Reg → Op Unit
  | [] => pure ()
  | r :: rs => do
    setReg r (← pop)
    popRegs rs

/-- Pops `n` words and discards them; each is a real 2-byte read (R244). -/
def popDiscard : Nat → Op Unit
  | 0 => pure ()
  | n + 1 => do
    let _ ← pop
    popDiscard n

/-- `PushState()` (R240): R1 to R8, the return address, the frame size with the two bytes of its own word; then `Fp = Sp`
and a frame size of 0. -/
def pushState : Op Unit := do
  pushRegs savedRegs
  push (← getReg .ip)
  push ((← getFs) + 2)
  setReg .fp (← getReg .sp)
  setFs 0

/-- The frame size that Ret adds to the saved Fp (FP_RESTORE, R244): the popped value, or the counter as it stands. -/
def restoredFrameSize (mode : FpRestore) (popped current : Word) : Word :=
  match mode with
  | .popped => popped
  | .current => current

/-- `Ret()` (R244). -/
def popState : Op Unit := do
  let savedFp ← getReg .fp
  setReg .sp savedFp
  let frameSize ← pop
  setFs frameSize
  setReg .ip (← pop)
  popRegs savedRegs.reverse
  let nArgs ← pop
  popDiscard nArgs.toNat
  setReg .fp (savedFp + restoredFrameSize (← getParams).fpRestore frameSize (← getFs))

/-- CallLit (R242): `PushState(); pc <- addr`. -/
def execCallLit (addr : Word) (s : State) : Host.Outcome State Fault Refusal :=
  finish (do
    pushState
    setReg .ip addr) s

/-- CallReg (R243): `addr <- x[r]; PushState(); pc <- addr`. -/
def execCallReg (r : Reg) (s : State) : Host.Outcome State Fault Refusal :=
  finish (do
    let addr ← getReg r
    pushState
    setReg .ip addr) s

/-- Ret (R244). -/
def execRet (s : State) : Host.Outcome State Fault Refusal :=
  finish popState s

end Sys2Proof.Machine
end

