-- ==== Sys2Proof/Machine/Control.lean ====
section
/-! DEFINITION. Halt (R260). -/

namespace Sys2Proof.Machine

/-- `runState <- Halted` (R260). -/
def enterHalt : Op Unit := fun s => .ok () (s.setRun .halted)

/-- Halt (R260): no register, no FS and no memory byte changes. -/
def execHalt (s : State) : Host.Outcome State Fault Refusal :=
  finish enterHalt s

end Sys2Proof.Machine
end

