-- ==== Sys2Proof/Machine/Flags.lean ====
section
/-! DEFINITION. The CORE has no flags (R29); what stands in their place is the comparison of a jump's comparand with Acc
(R190). -/

namespace Sys2Proof.Machine

/-- The six conditions of R190. -/
inductive Cond where
  | notEq | eq | lt | gt | lte | gte
deriving DecidableEq, Repr

/-- The relation of a condition between two values as unsigned integers (R190). -/
def condHolds (c : Cond) (left right : Word) : Bool :=
  match c with
  | .notEq => left.toNat != right.toNat
  | .eq => left.toNat == right.toNat
  | .lt => decide (left.toNat < right.toNat)
  | .gt => decide (left.toNat > right.toNat)
  | .lte => decide (left.toNat ≤ right.toNat)
  | .gte => decide (left.toNat ≥ right.toNat)

/-- `Cond(v, acc)` (R190), the comparand on the left in the reference orientation. -/
def jumpCond (o : JumpOrientation) (c : Cond) (v acc : Word) : Bool :=
  match o with
  | .comparandFirst => condHolds c v acc
  | .accFirst => condHolds c acc v

end Sys2Proof.Machine
end

