-- ==== Sys2Proof/Machine/Jump.lean ====
section
/-! DEFINITION. The twelve conditional jumps (R190 to R203). -/

namespace Sys2Proof.Machine

/-- `if Cond(v, x[Acc]) then pc <- addr` (R191); otherwise Ip keeps the address of the next instruction. -/
def jumpIf (c : Cond) (v addr : Word) : Op Unit := do
  if jumpCond (← getParams).orientation c v (← getReg .acc) then
    setReg .ip addr

/-- The `*Reg` forms: the comparand is the value of a register (R191). -/
def jumpIfReg (c : Cond) (r : Reg) (addr : Word) : Op Unit := do
  jumpIf c (← getReg r) addr

/-- JumpNotEqReg (R192): `if x[r] != x[Acc] then pc <- addr`. -/
def execJumpNotEqReg (r : Reg) (addr : Word) (s : State) : Host.Outcome State Fault Refusal :=
  finish (jumpIfReg .notEq r addr) s

/-- JumpNotEqLit (R193): `if lit != x[Acc] then pc <- addr`. -/
def execJumpNotEqLit (lit addr : Word) (s : State) : Host.Outcome State Fault Refusal :=
  finish (jumpIf .notEq lit addr) s

/-- JumpEqReg (R194): `if x[r] = x[Acc] then pc <- addr`. -/
def execJumpEqReg (r : Reg) (addr : Word) (s : State) : Host.Outcome State Fault Refusal :=
  finish (jumpIfReg .eq r addr) s

/-- JumpEqLit (R195): `if lit = x[Acc] then pc <- addr`. -/
def execJumpEqLit (lit addr : Word) (s : State) : Host.Outcome State Fault Refusal :=
  finish (jumpIf .eq lit addr) s

/-- JumpLtReg (R196): `if x[r] < x[Acc] then pc <- addr`. -/
def execJumpLtReg (r : Reg) (addr : Word) (s : State) : Host.Outcome State Fault Refusal :=
  finish (jumpIfReg .lt r addr) s

/-- JumpLtLit (R197): `if lit < x[Acc] then pc <- addr`. -/
def execJumpLtLit (lit addr : Word) (s : State) : Host.Outcome State Fault Refusal :=
  finish (jumpIf .lt lit addr) s

/-- JumpGtReg (R198): `if x[r] > x[Acc] then pc <- addr`. -/
def execJumpGtReg (r : Reg) (addr : Word) (s : State) : Host.Outcome State Fault Refusal :=
  finish (jumpIfReg .gt r addr) s

/-- JumpGtLit (R199): `if lit > x[Acc] then pc <- addr`. -/
def execJumpGtLit (lit addr : Word) (s : State) : Host.Outcome State Fault Refusal :=
  finish (jumpIf .gt lit addr) s

/-- JumpLteReg (R200): `if x[r] <= x[Acc] then pc <- addr`. -/
def execJumpLteReg (r : Reg) (addr : Word) (s : State) : Host.Outcome State Fault Refusal :=
  finish (jumpIfReg .lte r addr) s

/-- JumpLteLit (R201): `if lit <= x[Acc] then pc <- addr`. -/
def execJumpLteLit (lit addr : Word) (s : State) : Host.Outcome State Fault Refusal :=
  finish (jumpIf .lte lit addr) s

/-- JumpGteReg (R202): `if x[r] >= x[Acc] then pc <- addr`. -/
def execJumpGteReg (r : Reg) (addr : Word) (s : State) : Host.Outcome State Fault Refusal :=
  finish (jumpIfReg .gte r addr) s

/-- JumpGteLit (R203): `if lit >= x[Acc] then pc <- addr`. -/
def execJumpGteLit (lit addr : Word) (s : State) : Host.Outcome State Fault Refusal :=
  finish (jumpIf .gte lit addr) s

end Sys2Proof.Machine
end

