-- ==== Sys2Proof/Machine/Move.lean ====
section
/-! DEFINITION. The seven move instructions (R130 to R137). -/

namespace Sys2Proof.Machine

/-- MoveLitReg (R131): `x[r] <- lit`. -/
def execMoveLitReg (lit : Word) (r : Reg) (s : State) : Host.Outcome State Fault Refusal :=
  finish (setReg r lit) s

/-- MoveRegReg (R132): `v <- x[ra]; x[rb] <- v`. -/
def execMoveRegReg (ra rb : Reg) (s : State) : Host.Outcome State Fault Refusal :=
  finish (do setReg rb (← getReg ra)) s

/-- MoveRegMem (R133): `v <- x[r]; MemWrite(addr, 2, v)`. -/
def execMoveRegMem (r : Reg) (addr : Word) (s : State) : Host.Outcome State Fault Refusal :=
  finish (do memWriteShort addr (← getReg r)) s

/-- MoveMemReg (R134): `v <- MemRead(addr, 2); x[r] <- v`. -/
def execMoveMemReg (addr : Word) (r : Reg) (s : State) : Host.Outcome State Fault Refusal :=
  finish (do setReg r (← memReadShort addr)) s

/-- MoveLitMem (R135): `MemWrite(addr, 2, lit)`. -/
def execMoveLitMem (lit addr : Word) (s : State) : Host.Outcome State Fault Refusal :=
  finish (memWriteShort addr lit) s

/-- MoveRegPtrReg (R136): `addr <- x[rp]; v <- MemRead(addr, 2); x[rd] <- v`. -/
def execMoveRegPtrReg (rp rd : Reg) (s : State) : Host.Outcome State Fault Refusal :=
  finish (do setReg rd (← memReadShort (← pointerAddress rp))) s

/-- MoveLitOffReg (R137): `addr <- lit +w x[ro]; v <- MemRead(addr, 2); x[rd] <- v`. -/
def execMoveLitOffReg (lit : Word) (ro rd : Reg) (s : State) : Host.Outcome State Fault Refusal :=
  finish (do setReg rd (← memReadShort (← offsetAddress lit ro))) s

end Sys2Proof.Machine
end

