-- ==== Sys2Proof/Machine/Stack.lean ====
section
/-! DEFINITION. The three stack instructions (R222 to R224). -/

namespace Sys2Proof.Machine

/-- PushLit (R222): `Push(lit)`. -/
def execPushLit (lit : Word) (s : State) : Host.Outcome State Fault Refusal :=
  finish (push lit) s

/-- PushReg (R223): `v <- x[r]; Push(v)`. -/
def execPushReg (r : Reg) (s : State) : Host.Outcome State Fault Refusal :=
  finish (do push (← getReg r)) s

/-- Pop (R224): `v <- Pop(); x[r] <- v`. -/
def execPop (r : Reg) (s : State) : Host.Outcome State Fault Refusal :=
  finish (do setReg r (← pop)) s

end Sys2Proof.Machine
end

