-- ==== Sys2Proof/Machine/Dispatch.lean ====
section
/-! DEFINITION. The execution of a decoded instruction, after its operand fetch (R90): one arm per variant. -/

namespace Sys2Proof.Machine

/-- `Execute(v, ops)` (R90). -/
def exec (i : Instr) (s : State) : Host.Outcome State Fault Refusal :=
  match i with
  | .moveLitReg lit r => Sys2Proof.Machine.execMoveLitReg lit r s
  | .moveRegReg ra rb => Sys2Proof.Machine.execMoveRegReg ra rb s
  | .moveRegMem r addr => Sys2Proof.Machine.execMoveRegMem r addr s
  | .moveMemReg addr r => Sys2Proof.Machine.execMoveMemReg addr r s
  | .moveLitMem lit addr => Sys2Proof.Machine.execMoveLitMem lit addr s
  | .moveRegPtrReg rp rd => Sys2Proof.Machine.execMoveRegPtrReg rp rd s
  | .moveLitOffReg lit ro rd => Sys2Proof.Machine.execMoveLitOffReg lit ro rd s
  | .addRegReg ra rb => Sys2Proof.Machine.execAddRegReg ra rb s
  | .addLitReg lit r => Sys2Proof.Machine.execAddLitReg lit r s
  | .subLitReg lit r => Sys2Proof.Machine.execSubLitReg lit r s
  | .subRegLit r lit => Sys2Proof.Machine.execSubRegLit r lit s
  | .subRegReg ra rb => Sys2Proof.Machine.execSubRegReg ra rb s
  | .mulLitReg lit r => Sys2Proof.Machine.execMulLitReg lit r s
  | .mulRegReg ra rb => Sys2Proof.Machine.execMulRegReg ra rb s
  | .incReg r => Sys2Proof.Machine.execIncReg r s
  | .decReg r => Sys2Proof.Machine.execDecReg r s
  | .leftShiftRegLit r lit => Sys2Proof.Machine.execLeftShiftRegLit r lit s
  | .leftShiftRegReg ra rb => Sys2Proof.Machine.execLeftShiftRegReg ra rb s
  | .rightShiftRegLit r lit => Sys2Proof.Machine.execRightShiftRegLit r lit s
  | .rightShiftRegReg ra rb => Sys2Proof.Machine.execRightShiftRegReg ra rb s
  | .andRegLit r lit => Sys2Proof.Machine.execAndRegLit r lit s
  | .andRegReg ra rb => Sys2Proof.Machine.execAndRegReg ra rb s
  | .orRegLit r lit => Sys2Proof.Machine.execOrRegLit r lit s
  | .orRegReg ra rb => Sys2Proof.Machine.execOrRegReg ra rb s
  | .xorRegLit r lit => Sys2Proof.Machine.execXorRegLit r lit s
  | .xorRegReg ra rb => Sys2Proof.Machine.execXorRegReg ra rb s
  | .not r => Sys2Proof.Machine.execNot r s
  | .jumpNotEqReg r addr => Sys2Proof.Machine.execJumpNotEqReg r addr s
  | .jumpNotEqLit lit addr => Sys2Proof.Machine.execJumpNotEqLit lit addr s
  | .jumpEqReg r addr => Sys2Proof.Machine.execJumpEqReg r addr s
  | .jumpEqLit lit addr => Sys2Proof.Machine.execJumpEqLit lit addr s
  | .jumpLtReg r addr => Sys2Proof.Machine.execJumpLtReg r addr s
  | .jumpLtLit lit addr => Sys2Proof.Machine.execJumpLtLit lit addr s
  | .jumpGtReg r addr => Sys2Proof.Machine.execJumpGtReg r addr s
  | .jumpGtLit lit addr => Sys2Proof.Machine.execJumpGtLit lit addr s
  | .jumpLteReg r addr => Sys2Proof.Machine.execJumpLteReg r addr s
  | .jumpLteLit lit addr => Sys2Proof.Machine.execJumpLteLit lit addr s
  | .jumpGteReg r addr => Sys2Proof.Machine.execJumpGteReg r addr s
  | .jumpGteLit lit addr => Sys2Proof.Machine.execJumpGteLit lit addr s
  | .pushLit lit => Sys2Proof.Machine.execPushLit lit s
  | .pushReg r => Sys2Proof.Machine.execPushReg r s
  | .pop r => Sys2Proof.Machine.execPop r s
  | .callLit addr => Sys2Proof.Machine.execCallLit addr s
  | .callReg r => Sys2Proof.Machine.execCallReg r s
  | .ret => Sys2Proof.Machine.execRet s
  | .halt => Sys2Proof.Machine.execHalt s

end Sys2Proof.Machine
end

