-- ==== Sys2Proof/Machine/Step.lean ====
section
/-! DEFINITION. One step of the CORE (R90), and the placing of one instruction where the next step fetches. -/

namespace Sys2Proof.Machine

/-- `Step()` (R90): in the state Running, fetch, decode and execute one instruction; Halted and Faulted are terminal, and a
step in them changes nothing (R261, R276, R308). -/
def step (s : State) : Host.Outcome State Fault Refusal :=
  match s.runState with
  | .running =>
    match fetchInstr s with
    | .ok i t => exec i t
    | .error e t => stopOutcome e t
  | .halted => .next s
  | .faulted _ => .next s

/-- The state with the instruction whose bits are `w`, in the opcode table's numbering, stored at Ip (log entry 15). -/
def State.withFetchWord (s : State) (nbits w : Nat) : State := s.placeBytes (s.reg .ip) (tableBytes nbits w)

end Sys2Proof.Machine
end

