-- ==== Sys2Proof/Machine/Platform.lean ====
section
/-! DEFINITION. The host's part of the contract: building a platform and creating the CORE (R300, R301, R306, R64), reading
and setting registers between steps (R305, R307), and the step and run interface (R308, R309). No step runs any of it. -/

namespace Sys2Proof.Machine

/-- What is raised to the host while it builds a platform; no CORE is created then (R301). The spec says only that each is
refused: telling them apart, and which one is raised where two apply, is the model's own. DESIGN CHOICE (log entry 21). -/
inductive ConstructionError where
  /-- A region with `start > end`. -/
  | emptyRegion
  /-- A region without a device. -/
  | missingDevice
  /-- A Memory capacity outside `1 <= C <= 0x10000` (R53). -/
  | badCapacity
  /-- An image longer than the capacity (R79). -/
  | imageTooLong
deriving DecidableEq, Repr

/-- A Memory device "zero-initialized at creation", with the program image copied to it from index 0 (R300 step 1, R79). An
over-long image for a bad capacity raises `badCapacity`: DESIGN CHOICE (log entry 21). -/
def Device.newMemory (capacity : Nat) (image : List Byte) : Except ConstructionError Device :=
  if 1 ≤ capacity ∧ capacity ≤ 0x10000 then
    if image.length ≤ capacity then .ok (.memory capacity (Memory.load [] 0 image)) else .error .imageTooLong
  else .error .badCapacity

/-- A Register device holding 0x0000 (R300 step 2; DESIGN CHOICE, log entry 14). -/
def Device.newRegister : Device := .register []

/-- A region bound to a device at the end of the list, "in the order they should be probed" (R300 step 3, R301). Overlaps are
accepted (R61). An empty region without a device raises `emptyRegion`: DESIGN CHOICE (log entry 21). -/
def Mapper.addDevice : Mapper → Nat → Nat → Option Device → Except ConstructionError Mapper
  | .nil, start, stop, dev =>
    if start ≤ stop then
      match dev with
      | some d => .ok (.device start stop d .nil)
      | none => .error .missingDevice
    else .error .emptyRegion
  | .device a b d rest, start, stop, dev => (Mapper.addDevice rest start stop dev).map (.device a b d)
  | .composite a b inner rest, start, stop, dev => (Mapper.addDevice rest start stop dev).map (.composite a b inner)

/-- A region bound to a composite mapper at the end of the list (R63). -/
def Mapper.addComposite : Mapper → Nat → Nat → Mapper → Except ConstructionError Mapper
  | .nil, start, stop, m => if start ≤ stop then .ok (.composite start stop m .nil) else .error .emptyRegion
  | .device a b d rest, start, stop, m => (Mapper.addComposite rest start stop m).map (.device a b d)
  | .composite a b inner rest, start, stop, m => (Mapper.addComposite rest start stop m).map (.composite a b inner)

/-- What a region is bound to: a device, or a composite mapper with its own region list (R63). -/
inductive RegionDevice where
  | single (dev : Device)
  | composite (inner : Mapper)
deriving DecidableEq, Repr

/-- A region as the host hands it over: an inclusive range and the device it owns (R59, R310). -/
structure Region where
  start : Nat
  stop : Nat
  device : RegionDevice
deriving DecidableEq, Repr

/-- A region added at the end of the list (R300 step 3). -/
def Mapper.addRegion (m : Mapper) (r : Region) : Except ConstructionError Mapper :=
  match r.device with
  | .single dev => m.addDevice r.start r.stop (some dev)
  | .composite inner => m.addComposite r.start r.stop inner

/-- Regions added one after another, "in the order they should be probed" (R300 step 3, R310); the first that is refused
refuses the platform. -/
def Mapper.addRegions : Mapper → List Region → Except ConstructionError Mapper
  | m, [] => .ok m
  | m, r :: rs =>
    match m.addRegion r with
    | .ok m' => Mapper.addRegions m' rs
    | .error e => .error e

/-- The CORE created from a single Memory that holds an image: the Memory is auto-wrapped into one region (R64, R300). -/
def State.ofMemory (params : Params) (capacity : Nat) (image : List Byte) : Except ConstructionError State :=
  match Device.newMemory capacity image with
  | .ok (.memory c bytes) => .ok (State.create params (Mapper.autoWrap c bytes))
  | .ok _ => .error .missingDevice
  | .error e => .error e

/-- The host sets a register, before the first step or between steps (R305). -/
def State.hostSet (s : State) (r : Reg) (v : Word) : State := s.setReg r v

/-- The host reads a register (R307). -/
def State.hostGet (s : State) (r : Reg) : Word := s.reg r

/-- The devices of a mapper, in region order, those of a composite in its place. -/
def Mapper.devices : Mapper → List Device
  | .nil => []
  | .device _ _ dev rest => dev :: Mapper.devices rest
  | .composite _ _ inner rest => Mapper.devices inner ++ Mapper.devices rest

/-- The host reads a byte of a Memory or Register device (R307); a peripheral's state is outside the CORE. -/
def Device.hostByte (d : Device) (index : Nat) : Option Byte :=
  match d with
  | .memory capacity bytes => if index < capacity then some (bytes.read index) else none
  | .register bytes => if index < 2 then some (bytes.read index) else none
  | .peripheral _ => none

/-- The code of a fault kind (R270, D15). -/
def FaultKind.code : FaultKind → Nat
  | .decodeOpcode _ _ => 1
  | .decodeRegister _ _ => 2
  | .unmapped _ => 3
  | .bounds _ => 4
  | .peripheral _ => 5

/-- What `step()` returns to the host (R308). -/
inductive StepReport where
  | continue
  | halt
  | fault (kind : FaultKind)
deriving DecidableEq, Repr

/-- The outcome the host is told, from the run state after the step (R308). -/
def StepReport.of : RunState → StepReport
  | .running => .continue
  | .halted => .halt
  | .faulted k => .fault k

/-- The host calls `step()` (R308): what it is told, and the state after; nothing while a peripheral does not respond. -/
def hostStep (s : State) : Option (StepReport × State) :=
  match step s with
  | .next t => some (StepReport.of t.runState, t)
  | .fault _ => none
  | .refused _ => none

/-- The host calls `run()` (R309) and gives up after `n` steps: `run` itself has no bound (R93, R318). -/
def runFor : Nat → State → Option (StepReport × State)
  | 0, s => some (StepReport.of s.runState, s)
  | n + 1, s =>
    match s.runState with
    | .running =>
      match hostStep s with
      | some (_, t) => runFor n t
      | none => none
    | .halted => some (.halt, s)
    | .faulted k => some (.fault k, s)

end Sys2Proof.Machine
end

