-- ==== Sys2Proof/Safety.lean ====
section
/-! DEFINITION. The terms claims are stated in: what a state holds at an address, what an instruction leaves unchanged, when
a step faults, and the invariant and the shape that every step keeps. -/

namespace Sys2Proof.Machine

/-- The byte a Memory or Register device answers with at an address; none where no such device answers. -/
def State.peekByte (s : State) (a : Word) : Option Byte :=
  match s.reply .readByte a with
  | .done v => some (lowByte v)
  | _ => none

/-- The 16-bit value a Memory or Register device answers with at an address; none where no such device answers. -/
def State.peekShort (s : State) (a : Word) : Option Word :=
  match s.reply .readShort a with
  | .done v => some v
  | _ => none

/-- A Memory or Register device holds both bytes of the word at this address. -/
abbrev State.hasShort (s : State) (a : Word) : Prop := (s.peekShort a).isSome = true

/-- The operand fields stand in memory from address `a` on, each read as the execution engine reads it (R13, R69). -/
def State.holdsFields (s : State) (a : Word) : List Field → Prop
  | [] => True
  | .reg r :: fs => s.peekByte a = some r.id ∧ State.holdsFields s (a + 1) fs
  | .short v :: fs => s.peekShort a = some v ∧ State.holdsFields s (a + 2) fs

/-- The instruction `i` stands in memory at address `a`, under the state's opcode map. -/
def State.holdsInstr (s : State) (a : Word) (i : Instr) : Prop :=
  (∃ b, s.params.opcodeMap.byteOf i.opcode = some b ∧ s.peekByte a = some b) ∧ s.holdsFields (a + 1) i.fields

/-- How an access at `a` ends where external peripherals have received the requests of `log` before it: with the data of a read
and the log after it, or with what stops the step. A peripheral receives the one request, and responds, fails or never
responds (R57, R58, R273 to R275, R315; peripherals: log entries 4 and 5). -/
def State.access (s : State) (log : List PeripheralRequest) (op : BusOp) (a : Word) :
    Except Stop (Word × List PeripheralRequest) :=
  match s.reply op a with
  | .done v => .ok (v, log)
  | .unmapped => .error (.fault (.unmapped a))
  | .bounds => .error (.fault (.bounds a))
  | .external h l =>
    match Config.peripheralFate log ⟨h, l, op⟩ with
    | .respond => .ok (Config.peripheralData log ⟨h, l, op⟩, ⟨h, l, op⟩ :: log)
    | .fail => .error (.fault (.peripheral a))
    | .hang => .error (.hang a)

/-- How a run of accesses, one after another, ends: with their data and the log after the last, or as the first that does not
complete ends. Each is answered as `s` answers it: for a run of reads, or of writes that do not overlap, the same as one after
the other would be. -/
def State.accessAll (s : State) : List PeripheralRequest → List (BusOp × Word) →
    Except Stop (List Word × List PeripheralRequest)
  | log, [] => .ok ([], log)
  | log, (op, a) :: rest =>
    match s.access log op a with
    | .error e => .error e
    | .ok (v, log₁) =>
      match State.accessAll s log₁ rest with
      | .error e => .error e
      | .ok (vs, log₂) => .ok (v :: vs, log₂)

/-- The outcome is a next state in the run state `Faulted` with this kind and info: all that a claim may read of a faulted
step (R277). -/
def faultsWith (o : Host.Outcome State Fault Refusal) (k : FaultKind) : Prop :=
  ∃ t, o = .next t ∧ t.runState = .faulted k

/-- Where the access at `a` does not complete, the step ends with the outcome `o` as the access does: no region answers it, a
device too small does, or an external peripheral, which has received the requests of `log` before, fails it or never responds
(R57, R273 to R275, R315; log entries 4 and 5). -/
def stopsAsAccess (o : Host.Outcome State Fault Refusal) (s : State) (log : List PeripheralRequest) (op : BusOp) (a : Word) :
    Prop :=
  (s.reply op a = .unmapped → faultsWith o (.unmapped a))
    ∧ (s.reply op a = .bounds → faultsWith o (.bounds a))
    ∧ ∀ h l, s.reply op a = .external h l →
      (Config.peripheralFate log ⟨h, l, op⟩ = .fail → faultsWith o (.peripheral a))
        ∧ (Config.peripheralFate log ⟨h, l, op⟩ = .hang → o = .fault (.peripheralHang a))

/-- The operand fields are fetched from address `a` on, from whatever devices answer there: before, peripherals have received
the requests of `log`, and after, those of `log'` (R13, R69, R71). -/
def State.fetchesFields (s : State) (log : List PeripheralRequest) (a : Word) : List Field → List PeripheralRequest → Prop
  | [], log' => log' = log
  | .reg r :: fs, log' => ∃ v log₁, s.access log .readByte a = .ok (v, log₁) ∧ lowByte v = r.id
      ∧ State.fetchesFields s log₁ (a + 1) fs log'
  | .short v :: fs, log' => ∃ log₁, s.access log .readShort a = .ok (v, log₁) ∧ State.fetchesFields s log₁ (a + 2) fs log'

/-- The opcode byte fetched at Ip selects the variant `v` and the fields `fields` are fetched after it, from whatever devices
answer there; peripherals have then received the requests of `log` (R90, R91). -/
def State.fetches (s : State) (v : Opcode) (fields : List Field) (log : List PeripheralRequest) : Prop :=
  ∃ b log₁, s.access s.peripheralLog .readByte (s.reg .ip) = .ok (b, log₁)
    ∧ s.params.opcodeMap.variantOf (lowByte b) = some v ∧ s.fetchesFields log₁ (s.reg .ip + 1) fields log

/-- The state in which `i`, fetched at Ip, executes: Ip has advanced by its length (R25). -/
def State.afterFetch (s : State) (i : Instr) : State := s.setReg .ip (s.reg .ip + BitVec.ofNat 16 i.length)

/-- Everything but the register file and FS is the same; every byte of memory reads as before. -/
def sameBeyondRegs (s t : State) : Prop :=
  t.runState = s.runState ∧ t.mapper = s.mapper ∧ t.peripheralLog = s.peripheralLog ∧ t.params = s.params
    ∧ ∀ a, t.peekByte a = s.peekByte a

/-- Only the registers of the list may differ: every other register, FS, the run state, memory, the peripherals and the
parameters are the same. -/
def changesOnly (rs : List Reg) (s t : State) : Prop :=
  (∀ q, q ∉ rs → t.reg q = s.reg q) ∧ t.fs = s.fs ∧ sameBeyondRegs s t

/-- Every byte at an address other than `a` and `a + 1` (not wrapped) reads as before. -/
def sameBytesBut (a : Word) (s t : State) : Prop :=
  ∀ b : Word, b.toNat ≠ a.toNat → b.toNat ≠ a.toNat + 1 → t.peekByte b = s.peekByte b

/-- A device with its contents left out. -/
def Device.shape : Device → Device
  | .memory capacity _ => .memory capacity []
  | .register _ => .register []
  | .peripheral handle => .peripheral handle

/-- A mapper with the contents of its devices left out: the region list (R32). -/
def Mapper.shape : Mapper → Mapper
  | .nil => .nil
  | .device start stop dev rest => .device start stop dev.shape (Mapper.shape rest)
  | .composite start stop inner rest => .composite start stop (Mapper.shape inner) (Mapper.shape rest)

/-- The invariant: every region is non-empty, every Memory capacity legal, and the bytes of every device are in canonical
form within its capacity (R53, R59). -/
abbrev State.Inv (s : State) : Prop := s.mapper.wf = true

/-- The addresses `a`, `a - 2`, ..., `n` of them, that `n` pushes from `a` write at (R220). -/
def pushAddresses (a : Word) : Nat → List Word
  | 0 => []
  | n + 1 => a :: pushAddresses (a - 2) n

/-- The addresses `a + 2`, `a + 4`, ..., `n` of them, that `n` pops from `a` read at (R221). -/
def popAddresses (a : Word) : Nat → List Word
  | 0 => []
  | n + 1 => (a + 2) :: popAddresses (a + 2) n

/-- The ten words a call pushes, in the order it pushes them: R1 to R8, the return address, and the frame size with the nine
pushes before it and its own word counted (R240). -/
def callWords (s : State) : List Word :=
  [s.reg .r1, s.reg .r2, s.reg .r3, s.reg .r4, s.reg .r5, s.reg .r6, s.reg .r7, s.reg .r8, s.reg .ip, s.fs + 20]

/-- The ten writes of a call (R240). -/
def callWrites (s : State) : List (BusOp × Word) :=
  List.zipWith (fun a v => (.writeShort v, a)) (pushAddresses (s.reg .sp) 10) (callWords s)

/-- The reads of `n` pops from `a` (R221). -/
def popReads (a : Word) (n : Nat) : List (BusOp × Word) := (popAddresses a n).map (fun b => (.readShort, b))

/-- Executing `i` completes and leaves the number `n` in register `r`; nothing else changes. -/
def putsOnly (i : Instr) (s : State) (r : Reg) (n : Nat) : Prop :=
  ∃ t, exec i s = .next t ∧ (t.reg r).toNat = n ∧ changesOnly [r] s t

/-- Where no region, or a device too small, answers `i`'s access at `a`, `i` faults so (R273, R274). -/
def accessFaults (i : Instr) (s : State) (op : BusOp) (a : Word) : Prop :=
  (s.reply op a = .unmapped → faultsWith (exec i s) (.unmapped a))
    ∧ (s.reply op a = .bounds → faultsWith (exec i s) (.bounds a))

/-- Where an external peripheral answers `i`'s access at `a`: it receives the one request `e`; if it responds, `i` completes in
a state of which `done` holds, if it fails, `i` faults, and if it never responds, the step never completes (R57, R275,
R315). -/
def peripheralServes (i : Instr) (s : State) (a : Word) (e : PeripheralRequest) (done : State → Prop) : Prop :=
  match Config.peripheralFate s.peripheralLog e with
  | .respond => ∃ t, exec i s = .next t ∧ t.peripheralLog = e :: s.peripheralLog ∧ done t
  | .fail => faultsWith (exec i s) (.peripheral a)
  | .hang => exec i s = .fault (.peripheralHang a)

/-- Executing `i` stores the 16-bit value `v` at address `a` and changes nothing else, or ends as the access at `a` does. -/
def storesOnly (i : Instr) (s : State) (a v : Word) : Prop :=
  (s.Inv → s.hasShort a → ∃ t, exec i s = .next t ∧ t.peekShort a = some v ∧ t.peekByte a = some (highByte v)
      ∧ sameBytesBut a s t ∧ t.mapper.shape = s.mapper.shape
      ∧ (∀ q, t.reg q = s.reg q) ∧ t.fs = s.fs ∧ t.runState = s.runState
      ∧ t.peripheralLog = s.peripheralLog ∧ t.params = s.params)
    ∧ accessFaults i s (.writeShort v) a
    ∧ (∀ h l, s.reply (.writeShort v) a = .external h l →
        peripheralServes i s a ⟨h, l, .writeShort v⟩ (fun t =>
          (∀ q, t.reg q = s.reg q) ∧ t.fs = s.fs ∧ t.runState = s.runState ∧ t.mapper = s.mapper ∧ t.params = s.params))

/-- Executing `i` loads the 16-bit value at address `a` into register `r` and changes nothing else, or ends as the access at
`a` does. -/
def loadsOnly (i : Instr) (s : State) (a : Word) (r : Reg) : Prop :=
  (∀ v, s.peekShort a = some v → putsOnly i s r v.toNat)
    ∧ accessFaults i s .readShort a
    ∧ (∀ h l, s.reply .readShort a = .external h l →
        peripheralServes i s a ⟨h, l, .readShort⟩ (fun t =>
          t.reg r = Config.peripheralData s.peripheralLog ⟨h, l, .readShort⟩ ∧ (∀ q, q ≠ r → t.reg q = s.reg q)
            ∧ t.fs = s.fs ∧ t.runState = s.runState ∧ t.mapper = s.mapper ∧ t.params = s.params))

/-- Executing `i` pushes `v`: stores it at Sp, moves Sp down by 2 and counts 2 more bytes in the frame (R220), and changes
nothing else, or ends as the access at Sp does. -/
def pushesOnly (i : Instr) (s : State) (v : Word) : Prop :=
  (s.Inv → s.hasShort (s.reg .sp) → ∃ t, exec i s = .next t ∧ t.peekShort (s.reg .sp) = some v
      ∧ sameBytesBut (s.reg .sp) s t ∧ t.mapper.shape = s.mapper.shape
      ∧ t.reg .sp = s.reg .sp - 2 ∧ t.fs = s.fs + 2 ∧ (∀ q, q ≠ .sp → t.reg q = s.reg q)
      ∧ t.runState = s.runState ∧ t.peripheralLog = s.peripheralLog ∧ t.params = s.params)
    ∧ accessFaults i s (.writeShort v) (s.reg .sp)
    ∧ (∀ h l, s.reply (.writeShort v) (s.reg .sp) = .external h l →
        peripheralServes i s (s.reg .sp) ⟨h, l, .writeShort v⟩ (fun t =>
          t.reg .sp = s.reg .sp - 2 ∧ t.fs = s.fs + 2 ∧ (∀ q, q ≠ .sp → t.reg q = s.reg q)
            ∧ t.runState = s.runState ∧ t.mapper = s.mapper ∧ t.params = s.params))

/-- Executing `i` completes a call of `target` (R240, R241): the frame words stand where the ten pushes put them, Sp and Fp are
the first free slot below them, FS is 0, and nothing else changes. -/
def callsTo (i : Instr) (s : State) (target : Word) : Prop :=
  ∃ t, exec i s = .next t ∧ t.reg .ip = target ∧ t.reg .sp = s.reg .sp - 20 ∧ t.reg .fp = s.reg .sp - 20 ∧ t.fs = 0
    ∧ (∀ q, q ≠ .ip → q ≠ .sp → q ≠ .fp → t.reg q = s.reg q)
    ∧ (pushAddresses (s.reg .sp) 10).map t.peekShort = (callWords s).map some
    ∧ (∀ b : Word, (∀ a ∈ pushAddresses (s.reg .sp) 10, b.toNat ≠ a.toNat ∧ b.toNat ≠ a.toNat + 1) →
        t.peekByte b = s.peekByte b)
    ∧ t.mapper.shape = s.mapper.shape
    ∧ t.runState = s.runState ∧ t.peripheralLog = s.peripheralLog ∧ t.params = s.params

/-- Executes instructions one after another on the state each leaves, as long as there is a next state. -/
def execAll : List Instr → State → Host.Outcome State Fault Refusal
  | [], s => .next s
  | i :: is, s =>
    match exec i s with
    | .next t => execAll is t
    | .fault f => .fault f
    | .refused r => .refused r

/-! The launch premises of R319, each a condition on the state before the first step. -/

/-- `ResetState`: the register file, FS, the run state, every Register device and the peripherals, of which none has been asked
yet, are as reset leaves them (R33), with Ip = the entry address (R302). The Memory contents and the region list, the other
rows of R33, are `ImageLoaded` and `PlatformIs`. -/
def ResetState (entry : Word) (s : State) : Prop :=
  s.reg .ip = entry ∧ (∀ r ∈ [Reg.acc, .r1, .r2, .r3, .r4, .r5, .r6, .r7, .r8], s.reg r = 0x0000)
    ∧ s.reg .sp = 0xFFFE ∧ s.reg .fp = 0xFFFE ∧ s.fs = 0x0000 ∧ s.runState = .running ∧ s.peripheralLog = []
    ∧ ∀ bytes, Device.register bytes ∈ s.mapper.devices → ∀ i, i < 2 → bytes.read i = 0x00

/-- `ImageLoaded(img)`: a Memory device holds the image from index 0 and 0x00 at every other index, and every other Memory
device holds 0x00 everywhere (R53, R79, R306). That one Memory of several holds the image is DEDUCED (log entry 22). -/
def ImageLoaded (image : List Byte) (s : State) : Prop :=
  ∃ before after capacity bytes, s.mapper.devices = before ++ .memory capacity bytes :: after
    ∧ image.length ≤ capacity ∧ (∀ i, i < capacity → bytes.read i = image.getD i 0x00)
    ∧ ∀ c b, Device.memory c b ∈ before ++ after → ∀ i, i < c → b.read i = 0x00

/-- `PlatformIs(PLATFORM_REGIONS)`: the regions, their order and ranges, and the kind and capacity of every device are those of
`platform` (R32). -/
def PlatformIs (platform : Mapper) (s : State) : Prop := s.mapper.shape = platform.shape

/-- `NoFault`: the run state is Running. -/
def NoFault (s : State) : Prop := s.runState = .running

/-- A reset state in which the host has then set registers, one after another (R305): the further premise that R319 asks of a
claim about a pre-seeded register. -/
def PreSeeded (seeds : List (Reg × Word)) (entry : Word) (s : State) : Prop :=
  ∃ s₀, ResetState entry s₀ ∧ s = seeds.foldl (fun t p => t.hostSet p.1 p.2) s₀

end Sys2Proof.Machine
end

