-- ==== Sys2Proof/Certificates/Slice0/Obligations.lean ====
section
/-! DEFINITION. What is claimed of the model, each from the spec's rules. Statements about instructions are about `exec` on
the state after the operand fetch (Ip is already the address of the next instruction); `StepRunsDecodedInstruction` carries
them to `step`. -/

open Sys2Proof Sys2Proof.Machine

/-! Encoding. -/

/-- R100, "Opcode→variant and variant→argument-shape are total, bijective mappings", for every opcode map that is well formed,
the reference map among them. -/
def Obligations.OpcodeMapIsBijective : Prop :=
  OpcodeMap.reference.wf = true ∧ ∀ m : OpcodeMap, m.wf = true →
    (∀ v, ∃ b, m.byteOf v = some b ∧ m.variantOf b = some v)
      ∧ (∀ b v, m.variantOf b = some v → m.byteOf v = some b)
      ∧ (∀ v w, m.byteOf v = m.byteOf w → v = w)

/-- Every instruction is read back from its own encoding, whatever bytes follow, in as many bytes as its shape has (R92, R94
to R96), under every well-formed opcode map. -/
def Obligations.DecodeOfEncodeIsInstruction : Prop :=
  ∀ (m : OpcodeMap) (i : Instr) (rest : List Byte), m.wf = true →
    ∃ bs, encode m i = some bs ∧ bs.length = i.length ∧ decode m (bs ++ rest) = .ok (i, rest)

/-- What the decoder accepts is the encoding of what it answers: each accepted word has one meaning. -/
def Obligations.EncodeOfDecodeIsBytes : Prop :=
  ∀ (m : OpcodeMap) (bs : List Byte) (i : Instr) (rest : List Byte), m.wf = true →
    decode m bs = .ok (i, rest) → ∃ enc, encode m i = some enc ∧ bs = enc ++ rest

/-- Words written out from R94 and the examples of the instruction rules decode to the instruction they stand for, one per
family (reference opcode bytes: PRESUMED, log entry 7, D1). -/
def Obligations.ExampleWordsDecode : Prop :=
  decode OpcodeMap.reference [0x10, 0x12, 0x34, 0x02] = .ok (.moveLitReg 0x1234 .r1, [])
    ∧ decode OpcodeMap.reference [0x1D, 0x02, 0x00, 0x02, 0x03] = .ok (.moveLitOffReg 0x0200 .r1 .r2, [])
    ∧ decode OpcodeMap.reference [0x1E, 0x02, 0x00, 0x10] = .ok (.subRegLit .r1 0x0010, [])
    ∧ decode OpcodeMap.reference [0x27, 0x02, 0x03] = .ok (.leftShiftRegReg .r1 .r2, [])
    ∧ decode OpcodeMap.reference [0x15, 0x00, 0x03, 0x00, 0x00] = .ok (.jumpNotEqLit 0x0003 0x0000, [])
    ∧ decode OpcodeMap.reference [0x1A, 0x06] = .ok (.pop .r5, [])
    ∧ decode OpcodeMap.reference [0x5E, 0x01, 0x00] = .ok (.callLit 0x0100, [])
    ∧ decode OpcodeMap.reference [0xFF] = .ok (.halt, [])

/-! The step. -/

/-- R90: when the instruction `i` stands in memory at Ip, a running machine's step is the execution of `i` on the state whose
Ip has advanced by the length of `i`. -/
def Obligations.StepRunsDecodedInstruction : Prop :=
  ∀ (s : State) (i : Instr), s.runState = .running → s.params.opcodeMap.wf = true → s.holdsInstr (s.reg .ip) i →
    step s = exec i (s.afterFetch i)

/-- The same through the decoder: on a platform of one Memory over the whole space, when the bytes from Ip on decode to `i`
and do not run past 0xFFFF, the step executes `i`. -/
def Obligations.FlatMemoryStepRunsDecodedBytes : Prop :=
  ∀ (s : State) (bytes : Memory) (i : Instr) (rest : List Byte), s.runState = .running →
    s.mapper = Mapper.autoWrap 0x10000 bytes →
    decode s.params.opcodeMap ((List.range 5).map (fun k => bytes.read ((s.reg .ip).toNat + k))) = .ok (i, rest) →
    (s.reg .ip).toNat + i.length ≤ 0x10000 →
    step s = exec i (s.afterFetch i)

/-- The same where the bytes of the instruction come from any devices, peripherals among them (R57, R71): the peripherals that
answered have received one request for each access, in order, and nothing else has changed (log entry 4). Where such a fetch
fails or never ends, `OpcodeFetchFaults` and `OperandFetchFaults` say how the step ends. -/
def Obligations.FetchFromAnyDeviceRunsInstruction : Prop :=
  ∀ (s : State) (i : Instr) (log : List PeripheralRequest), s.runState = .running → s.fetches i.opcode i.fields log →
    step s = exec i ((s.afterFetch i).setLog log)

/-- R99, R271: an opcode byte that selects no variant raises `DecodeOpcode(b, opAddr)`; Ip has advanced past it and nothing
else has changed. (By R277 the state after a fault is for no other claim to build on.) -/
def Obligations.UnknownOpcodeFaults : Prop :=
  ∀ (s : State) (b : Byte), s.runState = .running → s.peekByte (s.reg .ip) = some b →
    s.params.opcodeMap.variantOf b = none →
    ∃ t, step s = .next t ∧ t.runState = .faulted (.decodeOpcode b (s.reg .ip)) ∧ t.reg .ip = s.reg .ip + 1
      ∧ (∀ q, q ≠ .ip → t.reg q = s.reg q) ∧ t.fs = s.fs ∧ t.mapper = s.mapper
      ∧ t.peripheralLog = s.peripheralLog ∧ t.params = s.params

/-- A register-operand byte of 0x0C or more, at any register field of any format, raises `DecodeRegister(b, a)` with the
address of that byte, whatever stands after it and whichever devices the bytes come from (R102, R272, R281; the order of the
checks is the spec's decision D6, D32; what peripherals answer: log entry 4). -/
def Obligations.BadRegisterByteFaults : Prop :=
  ∀ (s : State) (v : Opcode) (before : List Field) (after : List FieldKind) (a c : Word) (log log' : List PeripheralRequest),
    s.runState = .running → v.shape.fieldKinds = before.map Field.kind ++ .reg :: after →
    s.fetches v before log →
    a = s.reg .ip + 1 + BitVec.ofNat 16 (before.flatMap Field.bytes).length →
    s.access log .readByte a = .ok (c, log') → 0x0C ≤ (lowByte c).toNat →
    faultsWith (step s) (.decodeRegister (lowByte c) a)

/-- An opcode fetch stops the step as its access ends: `Unmapped`, `Bounds` or `Peripheral` at Ip, or, if a peripheral never
responds, a step that never completes (R57, R273 to R275, R281, R315; log entries 4 and 5). A byte that a peripheral responds
with is decoded like any other (R71): where it selects no variant, the step raises `DecodeOpcode`. -/
def Obligations.OpcodeFetchFaults : Prop :=
  ∀ s : State, s.runState = .running →
    stopsAsAccess (step s) s s.peripheralLog .readByte (s.reg .ip)
      ∧ ∀ b log, s.access s.peripheralLog .readByte (s.reg .ip) = .ok (b, log) →
        s.params.opcodeMap.variantOf (lowByte b) = none → faultsWith (step s) (.decodeOpcode (lowByte b) (s.reg .ip))

/-- An operand fetch stops the step as its access ends, at the field's own address, at any field of any format: `Unmapped`,
`Bounds` or `Peripheral`, or, if a peripheral never responds, a step that never completes (R57, R91, R273 to R275, R281, R315;
log entries 4 and 5): a register field is one byte, a literal or address field one 2-byte read (D23). The opcode and the
fields before it may come from any device. -/
def Obligations.OperandFetchFaults : Prop :=
  ∀ (s : State) (v : Opcode) (before : List Field) (k : FieldKind) (after : List FieldKind) (a : Word)
    (log : List PeripheralRequest),
    s.runState = .running → v.shape.fieldKinds = before.map Field.kind ++ k :: after →
    s.fetches v before log →
    a = s.reg .ip + 1 + BitVec.ofNat 16 (before.flatMap Field.bytes).length →
    stopsAsAccess (step s) s log k.readOp a

/-- Halted and Faulted are terminal: a step in them changes nothing and the host is told the same again (R261, R276, R308;
the spec's decision D16). -/
def Obligations.TerminalStatesStay : Prop :=
  ∀ s : State, s.runState ≠ .running →
    step s = .next s ∧ hostStep s = some (StepReport.of s.runState, s) ∧ StepReport.of s.runState ≠ .continue

/-- R260: Halt has no operands; executing it leaves everything but the run state; a step of it at address `a` leaves
Ip = `a +w 1`. -/
def Obligations.HaltStops : Prop :=
  Instr.halt.fields = [] ∧ ∀ s : State,
    (∃ t, exec .halt s = .next t ∧ t.runState = .halted ∧ (∀ q, t.reg q = s.reg q) ∧ t.fs = s.fs
      ∧ t.mapper = s.mapper ∧ t.peripheralLog = s.peripheralLog ∧ t.params = s.params
      ∧ ∀ b, t.peekByte b = s.peekByte b)
    ∧ (s.runState = .running → s.params.opcodeMap.wf = true → s.holdsInstr (s.reg .ip) .halt →
      ∃ t, step s = .next t ∧ t.runState = .halted ∧ t.reg .ip = s.reg .ip + 1 ∧ (∀ q, q ≠ .ip → t.reg q = s.reg q)
        ∧ t.fs = s.fs ∧ ∀ b, t.peekByte b = s.peekByte b)

/-- No instruction but Halt halts the machine ("true only for Halt", R90). -/
def Obligations.OnlyHaltHalts : Prop :=
  ∀ (i : Instr) (s t : State), exec i s = .next t → s.runState = .running → t.runState = .halted → i = .halt

/-! Reset, platform and whole-machine rules. -/

/-- Every step keeps the invariant: regions non-empty, capacities legal, the bytes of every device in canonical form within
its capacity. That a faulted next state keeps it too rests on the state the model gives after a fault (R277; log entry 2). -/
def Obligations.StepKeepsInvariant : Prop :=
  ∀ s t : State, s.Inv → step s = .next t → t.Inv

/-- The reset state meets the invariant. -/
def Obligations.ResetMeetsInvariant : Prop := State.reset.Inv ∧ State.reset.params.opcodeMap.wf = true

/-- R33: what reset leaves. Ip, Sp, Fp, the run state and the zeroed Memory are the source's; the zeros of Acc, R1 to R8 and
FS are the spec's decision D7 (DESIGN CHOICE, log entry 14), the platform is the reference one (log entry 13). -/
def Obligations.ResetLeaves : Prop :=
  State.reset.reg .ip = 0x0000 ∧ State.reset.reg .sp = 0xFFFE ∧ State.reset.reg .fp = 0xFFFE
    ∧ State.reset.runState = .running ∧ (∀ a : Word, State.reset.peekByte a = some 0x00)
    ∧ (∀ r ∈ [Reg.acc, .r1, .r2, .r3, .r4, .r5, .r6, .r7, .r8], State.reset.reg r = 0x0000)
    ∧ State.reset.fs = 0x0000

/-- A CORE created from one Memory and an image (R64, R79, R300): byte `i` of the Memory is byte `i` of the image, every other
byte 0x00, and the state meets the invariant; an image longer than the capacity or a capacity outside 1 to 0x10000 creates
none (the spec's decisions D27,
D28; that a bad capacity is reported before an over-long image is the model's choice, log entry 21). -/
def Obligations.LoadedImageIsRead : Prop :=
  ∀ (p : Params) (capacity : Nat) (image : List Byte),
    (1 ≤ capacity → capacity ≤ 0x10000 → image.length ≤ capacity →
      ∃ s, State.ofMemory p capacity image = .ok s ∧ s.Inv
        ∧ ∀ a : Word, s.peekByte a = if a.toNat < capacity then some (image.getD a.toNat 0x00) else none)
    ∧ (1 ≤ capacity → capacity ≤ 0x10000 → capacity < image.length →
      State.ofMemory p capacity image = .error .imageTooLong)
    ∧ (capacity = 0 ∨ 0x10000 < capacity → State.ofMemory p capacity image = .error .badCapacity)

/-- R32: "no instruction adds, removes or reorders regions", and no step changes a device's kind or capacity, or a
parameter. -/
def Obligations.StepKeepsRegionList : Prop :=
  ∀ s t : State, step s = .next t → t.mapper.shape = s.mapper.shape ∧ t.params = s.params

/-- What peripherals have received is only added to, and the CORE never issues `writeByte` (R69, the spec's decision D23); the
log of requests is the model's own (log entry 4), and what it is after a fault is too (R277; log entry 2). -/
def Obligations.StepAddsNoByteWriteRequests : Prop :=
  ∀ s t : State, step s = .next t →
    ∃ new, t.peripheralLog = new ++ s.peripheralLog ∧ ∀ e ∈ new, ∀ v, e.op ≠ .writeByte v

/-- FS is written only by Push, Pop, Call and Ret (R27, R226), in every next state, the faulted ones among them: R277 leaves FS
after a fault unspecified, and that it is as before there is the model's choice (log entry 2). -/
def Obligations.OnlyStackAndCallsWriteFs : Prop :=
  ∀ (i : Instr) (s t : State), i.opcode ∉ Opcode.stackOpcodes ++ Opcode.callOpcodes → exec i s = .next t → t.fs = s.fs

/-- Memory is written only by the two store moves, the pushes and the calls (R130, R150, R170, R191), in every next state, the
faulted ones among them: R277 leaves memory after a fault unspecified, and that it is as before there is the model's choice
(log entry 2). -/
def Obligations.OnlyStoresPushesAndCallsWriteMemory : Prop :=
  ∀ (i : Instr) (s t : State),
    i.opcode ∉ [Opcode.moveRegMem, .moveLitMem, .pushLit, .pushReg, .callLit, .callReg] →
    exec i s = .next t → t.mapper = s.mapper ∧ ∀ b, t.peekByte b = s.peekByte b

/-! Devices and the mapper. -/

/-- R67: a 2-byte write to a Memory device puts `v >> 8` at `a` and `v & 0xFF` at `a + 1`, a 2-byte read assembles
whatever bytes are at its two places, and at the last byte both 2-byte accesses raise `Bounds`. -/
def Obligations.ShortAccessIsBigEndian : Prop :=
  ∀ (capacity : Nat) (bytes : Memory) (a : Nat) (v : Word), (Device.memory capacity bytes).wf = true →
    (a + 1 < capacity →
      (Device.memory capacity bytes).reply a (.writeShort v) = .done 0
      ∧ ((Device.memory capacity bytes).after a (.writeShort v)).reply a .readByte = .done (v >>> 8)
      ∧ ((Device.memory capacity bytes).after a (.writeShort v)).reply (a + 1) .readByte = .done (v &&& 0xFF)
      ∧ ((Device.memory capacity bytes).after a (.writeShort v)).reply a .readShort = .done v
      ∧ ∀ x y, (Device.memory capacity bytes).reply a .readByte = .done x →
          (Device.memory capacity bytes).reply (a + 1) .readByte = .done y →
          (Device.memory capacity bytes).reply a .readShort = .done ((x <<< 8) ||| y))
    ∧ (a + 1 = capacity →
      (Device.memory capacity bytes).reply a .readShort = .bounds
        ∧ (Device.memory capacity bytes).reply a (.writeShort v) = .bounds)

/-- R61: "first matching region wins". For regions added in any number and order, overlapping or not: a request at address `x`
is answered by the device of the first region added whose range contains `x`, and by none, `Unmapped`, if no range does (R58).
The device receives `x` itself, or under relative addressing `x` less the region's start (R60, D12; log entry 11); a composite
resolves the address it receives in its own region list (R63). -/
def Obligations.FirstMatchingRegionAnswers : Prop :=
  ∀ (mode : RegionAddressing) (regions : List Region) (op : BusOp) (x : Nat), (∀ r ∈ regions, r.start ≤ r.stop) →
    ∃ m, Mapper.addRegions .nil regions = .ok m
      ∧ m.reply mode x op =
        match regions.find? (fun r => decide (r.start ≤ x ∧ x ≤ r.stop)) with
        | none => .unmapped
        | some r =>
          match mode, r.device with
          | .absolute, .single dev => dev.reply x op
          | .relative, .single dev => dev.reply (x - r.start) op
          | .absolute, .composite inner => inner.reply .absolute x op
          | .relative, .composite inner => inner.reply .relative (x - r.start) op

/-! Moves. -/

/-- R131: MoveLitReg copies its literal to its register and changes nothing else; every register is admitted, Ip among them
(an absolute jump). -/
def Obligations.MoveLitRegPutsLiteral : Prop :=
  ∀ (lit : Word) (r : Reg) (s : State),
    (Instr.moveLitReg lit r).fields = [.short lit, .reg r] ∧ putsOnly (.moveLitReg lit r) s r lit.toNat

/-- MoveRegReg copies its first register to its second and changes nothing else (R132; the order of reads and writes is the
spec's decision D6). -/
def Obligations.MoveRegRegCopies : Prop :=
  ∀ (ra rb : Reg) (s : State),
    (Instr.moveRegReg ra rb).fields = [.reg ra, .reg rb] ∧ putsOnly (.moveRegReg ra rb) s rb (s.reg ra).toNat

/-- MoveRegMem and MoveLitMem store a register or a literal at their address, high byte first, and change no other
byte and no register; an access no device holds faults as R273 to R275 say
(R133, R135). The request that a peripheral receives (R57) and the step that never completes (R315) are as log entries 4 and 5
say. -/
def Obligations.StoreMovesStore : Prop :=
  ∀ (r : Reg) (lit addr : Word) (s : State),
    ((Instr.moveRegMem r addr).fields = [.reg r, .short addr] ∧ storesOnly (.moveRegMem r addr) s addr (s.reg r))
      ∧ ((Instr.moveLitMem lit addr).fields = [.short lit, .short addr] ∧ storesOnly (.moveLitMem lit addr) s addr lit)

/-- MoveMemReg and MoveRegPtrReg load the word at a literal address, or at the value of a pointer register, into
their register and change nothing else; an access no device holds faults as R273 to R275 say (R134, R136). The
request that a peripheral receives (R57) and the step that never completes (R315) are as log entries 4 and 5 say. -/
def Obligations.LoadMovesLoad : Prop :=
  ∀ (r rp : Reg) (addr : Word) (s : State),
    ((Instr.moveMemReg addr r).fields = [.short addr, .reg r] ∧ loadsOnly (.moveMemReg addr r) s addr r)
      ∧ ((Instr.moveRegPtrReg rp r).fields = [.reg rp, .reg r] ∧ loadsOnly (.moveRegPtrReg rp r) s (s.reg rp) r)

/-- MoveLitOffReg loads the word at its literal plus its offset register modulo 2^16 (R137; that the sum wraps is the spec's
decision D8). The request that a peripheral receives (R57) and the step that never completes (R315) are as log entries 4 and 5
say. -/
def Obligations.OffsetMoveLoads : Prop :=
  ∀ (lit : Word) (ro rd : Reg) (a : Word) (s : State),
    (Instr.moveLitOffReg lit ro rd).fields = [.short lit, .reg ro, .reg rd]
      ∧ (a.toNat = (lit.toNat + (s.reg ro).toNat) % 65536 → loadsOnly (.moveLitOffReg lit ro rd) s a rd)

/-! Arithmetic. -/

/-- R151, R159, R160: AddRegReg puts the sum modulo 2^16 in Acc; IncReg and DecReg change their register by one modulo 2^16;
nothing else changes, and none of them faults (R150). -/
def Obligations.AddIncDecResults : Prop :=
  ∀ (ra rb : Reg) (s : State),
    ((Instr.addRegReg ra rb).fields = [.reg ra, .reg rb]
      ∧ putsOnly (.addRegReg ra rb) s .acc (((s.reg ra).toNat + (s.reg rb).toNat) % 65536))
    ∧ ((Instr.incReg ra).fields = [.reg ra] ∧ putsOnly (.incReg ra) s ra (((s.reg ra).toNat + 1) % 65536))
    ∧ ((Instr.decReg ra).fields = [.reg ra] ∧ putsOnly (.decReg ra) s ra (((s.reg ra).toNat + 65535) % 65536))

/-- AddLitReg, MulLitReg and MulRegReg put the sum or the product modulo 2^16 in Acc and change nothing else (R152, R157, R158;
that these forms exist is the spec's decision D2). -/
def Obligations.AddLitAndMulResults : Prop :=
  ∀ (lit : Word) (r ra rb : Reg) (s : State),
    putsOnly (.addLitReg lit r) s .acc ((lit.toNat + (s.reg r).toNat) % 65536)
      ∧ putsOnly (.mulLitReg lit r) s .acc ((lit.toNat * (s.reg r).toNat) % 65536)
      ∧ putsOnly (.mulRegReg ra rb) s .acc (((s.reg ra).toNat * (s.reg rb).toNat) % 65536)

/-- The Sub forms put a difference modulo 2^16 in Acc and change nothing else, whichever operand SUB_ORDER makes the minuend
(R153; log entry 8); in the reference order register minus literal, literal minus register, first minus second register
(R154 to R156, D3). -/
def Obligations.SubResults : Prop :=
  ∀ (lit : Word) (r ra rb : Reg) (s : State),
    (putsOnly (.subLitReg lit r) s .acc (match s.params.subOrder.litReg with
      | .second => ((s.reg r).toNat + (65536 - lit.toNat)) % 65536
      | .first => (lit.toNat + (65536 - (s.reg r).toNat)) % 65536))
    ∧ (putsOnly (.subRegLit r lit) s .acc (match s.params.subOrder.regLit with
      | .second => (lit.toNat + (65536 - (s.reg r).toNat)) % 65536
      | .first => ((s.reg r).toNat + (65536 - lit.toNat)) % 65536))
    ∧ (putsOnly (.subRegReg ra rb) s .acc (match s.params.subOrder.regReg with
      | .first => ((s.reg ra).toNat + (65536 - (s.reg rb).toNat)) % 65536
      | .second => ((s.reg rb).toNat + (65536 - (s.reg ra).toNat)) % 65536))
    ∧ referenceParams.subOrder = ⟨.second, .second, .first⟩

/-! Shift and logic. -/

/-- R176 to R182: And, Or and Xor put the bitwise result of their two operands in Acc, Not complements its register in place,
and nothing else changes. -/
def Obligations.LogicResults : Prop :=
  ∀ (lit : Word) (r ra rb : Reg) (s : State),
    ((Instr.andRegLit r lit).fields = [.reg r, .short lit] ∧ (Instr.andRegReg ra rb).fields = [.reg ra, .reg rb]
      ∧ (Instr.orRegLit r lit).fields = [.reg r, .short lit] ∧ (Instr.orRegReg ra rb).fields = [.reg ra, .reg rb]
      ∧ (Instr.xorRegLit r lit).fields = [.reg r, .short lit] ∧ (Instr.xorRegReg ra rb).fields = [.reg ra, .reg rb]
      ∧ (Instr.not r).fields = [.reg r])
    ∧ (∃ t, exec (.andRegLit r lit) s = .next t ∧ changesOnly [.acc] s t
        ∧ ∀ k, k < 16 → (t.reg .acc).getLsbD k = ((s.reg r).getLsbD k && lit.getLsbD k))
    ∧ (∃ t, exec (.andRegReg ra rb) s = .next t ∧ changesOnly [.acc] s t
        ∧ ∀ k, k < 16 → (t.reg .acc).getLsbD k = ((s.reg ra).getLsbD k && (s.reg rb).getLsbD k))
    ∧ (∃ t, exec (.orRegLit r lit) s = .next t ∧ changesOnly [.acc] s t
        ∧ ∀ k, k < 16 → (t.reg .acc).getLsbD k = ((s.reg r).getLsbD k || lit.getLsbD k))
    ∧ (∃ t, exec (.orRegReg ra rb) s = .next t ∧ changesOnly [.acc] s t
        ∧ ∀ k, k < 16 → (t.reg .acc).getLsbD k = ((s.reg ra).getLsbD k || (s.reg rb).getLsbD k))
    ∧ (∃ t, exec (.xorRegLit r lit) s = .next t ∧ changesOnly [.acc] s t
        ∧ ∀ k, k < 16 → (t.reg .acc).getLsbD k = ((s.reg r).getLsbD k ^^ lit.getLsbD k))
    ∧ (∃ t, exec (.xorRegReg ra rb) s = .next t ∧ changesOnly [.acc] s t
        ∧ ∀ k, k < 16 → (t.reg .acc).getLsbD k = ((s.reg ra).getLsbD k ^^ (s.reg rb).getLsbD k))
    ∧ putsOnly (.not r) s r (65535 - (s.reg r).toNat)

/-- The shift forms shift their first register in place, logically, by the literal or the second register, and change nothing
else (R171 to R175). A count of 16 or more acts as SHIFT_AMOUNT says (log entry 9, D4). -/
def Obligations.ShiftResults : Prop :=
  ∀ (x n : Word) (r ra rb : Reg) (s : State),
    (∀ left right : Nat,
      (match s.params.shiftAmount with
        | .mod16 => left = x.toNat * 2 ^ (n.toNat % 16) % 65536 ∧ right = x.toNat / 2 ^ (n.toNat % 16)
        | .zero => left = x.toNat * 2 ^ n.toNat % 65536 ∧ right = x.toNat / 2 ^ n.toNat) →
      (s.reg r = x → putsOnly (.leftShiftRegLit r n) s r left ∧ putsOnly (.rightShiftRegLit r n) s r right)
      ∧ (s.reg ra = x → s.reg rb = n →
          putsOnly (.leftShiftRegReg ra rb) s ra left ∧ putsOnly (.rightShiftRegReg ra rb) s ra right))
    ∧ referenceParams.shiftAmount = .mod16

/-! Jumps. -/

/-- JumpNotEq and JumpEq compare a register or a literal with Acc; on success Ip is the target, on failure Ip
stays, and nothing else changes (R192 to R195). That they come in these register and literal forms, of these
shapes, is the spec's own decision (R98, R191, D2, G3). -/
def Obligations.EqualityJumps : Prop :=
  ∀ (r : Reg) (lit addr : Word) (s : State),
    ((Instr.jumpNotEqReg r addr).fields = [.reg r, .short addr] ∧ (Instr.jumpEqReg r addr).fields = [.reg r, .short addr]
      ∧ (Instr.jumpNotEqLit lit addr).fields = [.short lit, .short addr]
      ∧ (Instr.jumpEqLit lit addr).fields = [.short lit, .short addr])
    ∧ putsOnly (.jumpNotEqReg r addr) s .ip
        (if (s.reg r).toNat ≠ (s.reg .acc).toNat then addr.toNat else (s.reg .ip).toNat)
    ∧ putsOnly (.jumpNotEqLit lit addr) s .ip
        (if lit.toNat ≠ (s.reg .acc).toNat then addr.toNat else (s.reg .ip).toNat)
    ∧ putsOnly (.jumpEqReg r addr) s .ip
        (if (s.reg r).toNat = (s.reg .acc).toNat then addr.toNat else (s.reg .ip).toNat)
    ∧ putsOnly (.jumpEqLit lit addr) s .ip
        (if lit.toNat = (s.reg .acc).toNat then addr.toNat else (s.reg .ip).toNat)

/-- The ordering jumps compare a register or a literal with Acc as unsigned integers (R196 to R203), the comparand on the left
in the reference orientation and Acc on the left in the other (R190, D5, log entry 12). -/
def Obligations.OrderingJumps : Prop :=
  ∀ (r : Reg) (lit addr : Word) (s : State) (regLeft regRight litLeft litRight : Nat),
    (match s.params.orientation with
      | .comparandFirst => regLeft = (s.reg r).toNat ∧ regRight = (s.reg .acc).toNat
          ∧ litLeft = lit.toNat ∧ litRight = (s.reg .acc).toNat
      | .accFirst => regLeft = (s.reg .acc).toNat ∧ regRight = (s.reg r).toNat
          ∧ litLeft = (s.reg .acc).toNat ∧ litRight = lit.toNat) →
    putsOnly (.jumpLtReg r addr) s .ip (if regLeft < regRight then addr.toNat else (s.reg .ip).toNat)
      ∧ putsOnly (.jumpLtLit lit addr) s .ip (if litLeft < litRight then addr.toNat else (s.reg .ip).toNat)
      ∧ putsOnly (.jumpGtReg r addr) s .ip (if regLeft > regRight then addr.toNat else (s.reg .ip).toNat)
      ∧ putsOnly (.jumpGtLit lit addr) s .ip (if litLeft > litRight then addr.toNat else (s.reg .ip).toNat)
      ∧ putsOnly (.jumpLteReg r addr) s .ip (if regLeft ≤ regRight then addr.toNat else (s.reg .ip).toNat)
      ∧ putsOnly (.jumpLteLit lit addr) s .ip (if litLeft ≤ litRight then addr.toNat else (s.reg .ip).toNat)
      ∧ putsOnly (.jumpGteReg r addr) s .ip (if regLeft ≥ regRight then addr.toNat else (s.reg .ip).toNat)
      ∧ putsOnly (.jumpGteLit lit addr) s .ip (if litLeft ≥ litRight then addr.toNat else (s.reg .ip).toNat)

/-! Stack. -/

/-- PushLit stores its literal at Sp, moves Sp down by 2 and counts 2 more bytes in FS, all modulo 2^16; nothing else
changes (R220, R222). That Sp and FS wrap is the spec's own decision (D8, D24); the request that a peripheral receives (R57)
and the step that never completes (R315) are as log entries 4 and 5 say. -/
def Obligations.PushLitPushes : Prop :=
  ∀ (lit : Word) (s : State), (Instr.pushLit lit).fields = [.short lit] ∧ pushesOnly (.pushLit lit) s lit

/-- PushReg pushes the value its register had before the push, Sp and Ip among them (R223; read before write is the spec's
decision D6, the wrapping D8 and D24). The request that a peripheral receives (R57) and the step that never completes (R315)
are as log entries 4 and 5 say. -/
def Obligations.PushRegPushes : Prop :=
  ∀ (r : Reg) (s : State), (Instr.pushReg r).fields = [.reg r] ∧ pushesOnly (.pushReg r) s (s.reg r)

/-- Pop moves Sp up by 2, counts 2 fewer bytes in FS, and puts the word at the new Sp in its register, after the increment if
that register is Sp (R224, R221; that Pop names a register is the spec's decision D9, the wrapping D8 and D24); no byte of
memory changes. The request that a peripheral receives (R57) and the step that never completes (R315) are as log entries 4
and 5 say. -/
def Obligations.PopPops : Prop :=
  ∀ (r : Reg) (s : State), (Instr.pop r).fields = [.reg r]
    ∧ (∀ v, s.peekShort (s.reg .sp + 2) = some v → ∃ t, exec (.pop r) s = .next t
        ∧ t.reg r = v ∧ (r ≠ .sp → t.reg .sp = s.reg .sp + 2) ∧ (∀ q, q ≠ r → q ≠ .sp → t.reg q = s.reg q)
        ∧ t.fs = s.fs - 2 ∧ sameBeyondRegs s t)
    ∧ accessFaults (.pop r) s .readShort (s.reg .sp + 2)
    ∧ (∀ h l, s.reply .readShort (s.reg .sp + 2) = .external h l →
        peripheralServes (.pop r) s (s.reg .sp + 2) ⟨h, l, .readShort⟩ (fun t =>
          t.reg r = Config.peripheralData s.peripheralLog ⟨h, l, .readShort⟩
            ∧ (r ≠ .sp → t.reg .sp = s.reg .sp + 2) ∧ (∀ q, q ≠ r → q ≠ .sp → t.reg q = s.reg q)
            ∧ t.fs = s.fs - 2 ∧ t.runState = s.runState ∧ t.mapper = s.mapper ∧ t.params = s.params))

/-- N pushes followed by N pops into N different registers other than Sp restore each pushed value in reverse order, and Sp and
FS return to their values (R225); every other register, every byte but those pushed, the run state, the region list, the
peripherals and the parameters are as before. -/
def Obligations.PushesThenPopsRestore : Prop :=
  ∀ (vs : List Word) (rs : List Reg) (s : State), s.Inv → rs.length = vs.length → rs.Nodup → Reg.sp ∉ rs →
    (∀ a ∈ pushAddresses (s.reg .sp) vs.length, s.hasShort a) →
    ∃ t, execAll (vs.map Instr.pushLit ++ rs.map Instr.pop) s = .next t ∧ rs.map t.reg = vs.reverse
      ∧ t.reg .sp = s.reg .sp ∧ t.fs = s.fs ∧ (∀ q, q ∉ rs → t.reg q = s.reg q)
      ∧ (∀ b : Word, (∀ a ∈ pushAddresses (s.reg .sp) vs.length, b.toNat ≠ a.toNat ∧ b.toNat ≠ a.toNat + 1) →
          t.peekByte b = s.peekByte b)
      ∧ t.runState = s.runState ∧ t.mapper.shape = s.mapper.shape ∧ t.peripheralLog = s.peripheralLog
      ∧ t.params = s.params

/-- The frame invariant `Sp = Fp -w FS` of R246: pushes, and pops into a register other than Sp and Fp, keep it, and a call
starts the callee's frame with it, whatever it was before. -/
def Obligations.FrameInvariantKept : Prop :=
  ∀ (i : Instr) (s t : State), exec i s = .next t → t.runState = .running →
    ((∃ lit, i = .pushLit lit) ∨ (∃ r, i = .pushReg r) ∨ (∃ r, r ≠ .sp ∧ r ≠ .fp ∧ i = .pop r) →
      s.runState = .running → s.reg .sp = s.reg .fp - s.fs → t.reg .sp = t.reg .fp - t.fs)
    ∧ ((∃ a, i = .callLit a) ∨ (∃ r, i = .callReg r) → s.runState = .running → t.reg .sp = t.reg .fp - t.fs)

/-! Call and return. -/

/-- R242: CallLit saves the frame of R240 and sets Ip to its target, where the ten words below Sp can be written. -/
def Obligations.CallLitCalls : Prop :=
  ∀ (addr : Word) (s : State), (Instr.callLit addr).fields = [.short addr]
    ∧ (s.Inv → (∀ a ∈ pushAddresses (s.reg .sp) 10, s.hasShort a) → callsTo (.callLit addr) s addr)

/-- CallReg does the same for the value its register had before the frame was pushed (R243; the spec's decision D10). -/
def Obligations.CallRegCalls : Prop :=
  ∀ (r : Reg) (s : State), (Instr.callReg r).fields = [.reg r]
    ∧ (s.Inv → (∀ a ∈ pushAddresses (s.reg .sp) 10, s.hasShort a) → callsTo (.callReg r) s (s.reg r))

/-- A call stops at the first of its ten writes that does not complete, as that access ends (R240, R273 to R275, R281): with
`Unmapped`, `Bounds` or `Peripheral` at its address, or, if a peripheral never responds, as a step that never completes (R315).
The writes before it may be served by any devices (peripherals: R57, log entries 4 and 5). -/
def Obligations.CallsFaultAtFirstBadPush : Prop :=
  ∀ (i : Instr) (s : State) (k : Nat) (a v : Word) (vs : List Word) (log : List PeripheralRequest),
    ((∃ addr, i = .callLit addr) ∨ (∃ r, i = .callReg r)) →
    s.accessAll s.peripheralLog ((callWrites s).take k) = .ok (vs, log) →
    (callWords s)[k]? = some v → a = s.reg .sp - BitVec.ofNat 16 (2 * k) →
    stopsAsAccess (exec i s) s log (.writeShort v) a

/-- Where all ten writes complete, whichever devices serve them, a call of either form saves its frame and goes to its target
(R240 to R243; the target is read first, D10): peripherals have received the requests of their accesses, in order (R57; log
entry 4), and every frame word that a Memory or Register device holds stands there. -/
def Obligations.CallsCompleteOnAnyDevices : Prop :=
  ∀ (i : Instr) (s : State) (target : Word) (vs : List Word) (log : List PeripheralRequest),
    i = .callLit target ∨ (∃ r, i = .callReg r ∧ target = s.reg r) → s.Inv →
    s.accessAll s.peripheralLog (callWrites s) = .ok (vs, log) →
    ∃ t, exec i s = .next t ∧ t.reg .ip = target ∧ t.reg .sp = s.reg .sp - 20 ∧ t.reg .fp = s.reg .sp - 20 ∧ t.fs = 0
      ∧ (∀ q, q ≠ .ip → q ≠ .sp → q ≠ .fp → t.reg q = s.reg q)
      ∧ t.peripheralLog = log
      ∧ (∀ p ∈ (pushAddresses (s.reg .sp) 10).zip (callWords s), s.hasShort p.1 → t.peekShort p.1 = some p.2)
      ∧ (∀ b : Word, (∀ a ∈ pushAddresses (s.reg .sp) 10, b.toNat ≠ a.toNat ∧ b.toNat ≠ a.toNat + 1) →
          t.peekByte b = s.peekByte b)
      ∧ t.mapper.shape = s.mapper.shape ∧ t.runState = s.runState ∧ t.params = s.params

/-- Ret pops the frame size, Ip, R8 to R1, the argument count and that many words from above Fp, and restores Fp from the
frame size that FP_RESTORE names (R244; log entry 10, D11); Acc and memory are not changed. -/
def Obligations.RetRestores : Prop :=
  ∀ (s : State) (frameSize ret v8 v7 v6 v5 v4 v3 v2 v1 n : Word),
    (popAddresses (s.reg .fp) 11).map s.peekShort = [frameSize, ret, v8, v7, v6, v5, v4, v3, v2, v1, n].map some →
    (∀ a ∈ popAddresses (s.reg .fp + 22) n.toNat, s.hasShort a) →
    ∃ t, exec .ret s = .next t ∧ t.reg .ip = ret
      ∧ savedRegs.map t.reg = [v1, v2, v3, v4, v5, v6, v7, v8]
      ∧ t.reg .sp = s.reg .fp + 22 + 2 * n ∧ t.fs = frameSize - 20 - 2 * n
      ∧ t.reg .fp = s.reg .fp + (match s.params.fpRestore with
          | .popped => frameSize
          | .current => frameSize - 20 - 2 * n)
      ∧ t.reg .acc = s.reg .acc ∧ sameBeyondRegs s t

/-- Ret stops at the first of its pops that does not complete, as that access ends (R244, R273 to R275, R281): with `Unmapped`,
`Bounds` or `Peripheral` at its address, or, if a peripheral never responds, as a step that never completes (R315). The words
above the eleven of the frame are the arguments it discards, as many as the eleventh word says; the pops before the one that
stops may be served by any devices (peripherals: R57, log entries 4 and 5). -/
def Obligations.RetFaultsAtFirstBadPop : Prop :=
  ∀ (s : State) (k : Nat) (a : Word) (vs : List Word) (log : List PeripheralRequest),
    s.accessAll s.peripheralLog (popReads (s.reg .fp) k) = .ok (vs, log) →
    (k < 11 ∨ ∃ n, vs[10]? = some n ∧ k < 11 + n.toNat) → a = s.reg .fp + 2 + BitVec.ofNat 16 (2 * k) →
    stopsAsAccess (exec .ret s) s log .readShort a

/-- Where all its pops complete, whichever devices serve them, Ret restores what it has read as `RetRestores` says (R244; log
entry 10, D11): peripherals have received the requests of their accesses, in order (R57; log entry 4), and Acc and memory are
not changed. -/
def Obligations.RetCompletesOnAnyDevices : Prop :=
  ∀ (s : State) (frameSize ret v8 v7 v6 v5 v4 v3 v2 v1 n : Word) (args : List Word) (log₁ log₂ : List PeripheralRequest),
    s.accessAll s.peripheralLog (popReads (s.reg .fp) 11)
      = .ok ([frameSize, ret, v8, v7, v6, v5, v4, v3, v2, v1, n], log₁) →
    s.accessAll log₁ (popReads (s.reg .fp + 22) n.toNat) = .ok (args, log₂) →
    ∃ t, exec .ret s = .next t ∧ t.reg .ip = ret
      ∧ savedRegs.map t.reg = [v1, v2, v3, v4, v5, v6, v7, v8]
      ∧ t.reg .sp = s.reg .fp + 22 + 2 * n ∧ t.fs = frameSize - 20 - 2 * n
      ∧ t.reg .fp = s.reg .fp + (match s.params.fpRestore with
          | .popped => frameSize
          | .current => frameSize - 20 - 2 * n)
      ∧ t.reg .acc = s.reg .acc ∧ t.peripheralLog = log₂
      ∧ t.runState = s.runState ∧ t.mapper = s.mapper ∧ t.params = s.params

/-- The call and return law (R246, R248), with FP_RESTORE = popped (log entry 10): after a call, whatever the callee did, if
Fp and the ten frame words are as the call left them and the word above the frame is the argument count, Ret restores
R1 to R8 and sets Ip to the return address; Sp is above the count and the arguments and FS is less by the arguments; if the
frame invariant held at the call, Fp is the caller's and `Sp = Fp -w FS +w 2`. -/
def Obligations.CallThenRetRestoresCaller : Prop :=
  ∀ (i : Instr) (s t u : State) (n : Word),
    ((∃ addr, i = .callLit addr) ∨ (∃ r, i = .callReg r)) → s.Inv →
    (∀ a ∈ pushAddresses (s.reg .sp) 10, s.hasShort a) → exec i s = .next t →
    u.params.fpRestore = .popped → u.reg .fp = t.reg .fp →
    (∀ a ∈ popAddresses (t.reg .fp) 10, u.peekShort a = t.peekShort a) →
    u.peekShort (s.reg .sp + 2) = some n → (∀ a ∈ popAddresses (s.reg .sp + 2) n.toNat, u.hasShort a) →
    ∃ w, exec .ret u = .next w ∧ (∀ r ∈ savedRegs, w.reg r = s.reg r) ∧ w.reg .ip = s.reg .ip
      ∧ w.reg .sp = s.reg .sp + 2 + 2 * n ∧ w.fs = s.fs - 2 * n ∧ w.reg .acc = u.reg .acc ∧ sameBeyondRegs u w
      ∧ (s.reg .sp = s.reg .fp - s.fs → w.reg .fp = s.reg .fp ∧ w.reg .sp = w.reg .fp - w.fs + 2)

/-! The host's side. -/

/-- Construction errors (R301; the spec's decision D34): a region with `start > end` or without a device is refused, a region
that overlaps another is accepted, and a mapper with no regions leaves every opcode fetch unmapped (that an empty region without
a device is reported as empty is the model's choice, log entry 21). -/
def Obligations.RegionsAreCheckedWhenBuilt : Prop :=
  (∀ (m : Mapper) (start stop : Nat) (d : Option Device), stop < start →
      Mapper.addDevice m start stop d = .error .emptyRegion)
    ∧ (∀ (m : Mapper) (start stop : Nat), start ≤ stop → Mapper.addDevice m start stop none = .error .missingDevice)
    ∧ (∀ (m : Mapper) (start stop : Nat) (d : Device), start ≤ stop → m.wf = true → d.wf = true →
      ∃ m', Mapper.addDevice m start stop (some d) = .ok m' ∧ m'.wf = true)
    ∧ (∀ p : Params, faultsWith (step (State.create p .nil)) (.unmapped 0x0000))

/-- The launch premises of R319 say what a state before the first step is, and no less: on a platform of one Memory, the states
that meet `ResetState(entry)`, `ImageLoaded(image)`, `PlatformIs` and `NoFault` (and the invariant) are exactly the CORE
created with that image (R300, R64), its Ip pre-seeded with the entry address (R305). -/
def Obligations.LaunchPremisesFixTheState : Prop :=
  ∀ (s : State) (capacity : Nat) (image : List Byte) (entry : Word), 1 ≤ capacity → capacity ≤ 0x10000 →
    image.length ≤ capacity →
    (s.Inv ∧ ResetState entry s ∧ ImageLoaded image s ∧ PlatformIs (Mapper.autoWrap capacity []) s ∧ NoFault s
      ↔ ∃ s₀, State.ofMemory s.params capacity image = .ok s₀ ∧ s = s₀.hostSet .ip entry)

/-- R305: registers that the host has set in a reset state, each once, hold what it set; every other register but Ip, which may
be the entry address, and FS and the run state are as reset leaves them (Acc and R1 to R8 by the spec's decision D7, log entry
14). -/
def Obligations.PreSeededRegistersHold : Prop :=
  ∀ (seeds : List (Reg × Word)) (entry : Word) (s : State), (seeds.map Prod.fst).Nodup → PreSeeded seeds entry s →
    (∀ p ∈ seeds, s.reg p.1 = p.2)
      ∧ (Reg.ip ∉ seeds.map Prod.fst → s.reg .ip = entry)
      ∧ (∀ q, q ≠ .ip → q ∉ seeds.map Prod.fst → s.reg q = State.reset.reg q)
      ∧ s.fs = 0x0000 ∧ NoFault s

/-- `run()` takes one step after another while the run state is Running, and then reports `halt` or the fault (R309, R93): with
no step allowed it reports the run state it found; after a run that still continues, one more step allowed is one more host
step; a run that has ended, or that hangs in a step, stays so however many steps are allowed. That `runFor` bounds the steps
of `run()`, which has no bound, is the model's choice (log entry 18). -/
def Obligations.RunRepeatsStep : Prop :=
  ∀ s : State, runFor 0 s = some (StepReport.of s.runState, s)
    ∧ (∀ k t, runFor k s = some (.continue, t) → runFor (k + 1) s = hostStep t)
    ∧ (∀ k r t, runFor k s = some (r, t) → r = StepReport.of t.runState)
    ∧ (∀ k j r t, runFor k s = some (r, t) → r ≠ .continue → runFor (k + j) s = some (r, t))
    ∧ (∀ k j, runFor k s = none → runFor (k + j) s = none)
end

