-- ==== Sys2Proof/Laws/Memory.lean ====
section
/-! SUPPORT. The bytes of a device: a write is read back and leaves every other index alone, every operation keeps the
canonical form and the capacity, and the canonical form makes equal contents equal data. -/

namespace Sys2Proof.Machine

theorem Memory.wf_nil : Memory.wf [] := by simp [Memory.wf]

theorem Memory.wf_cons {k : Nat} {b : Byte} {m : Memory} :
    Memory.wf ((k, b) :: m) ↔ (∀ c ∈ m, k < c.1) ∧ b ≠ Memory.unlisted ∧ Memory.wf m := by
  simp only [Memory.wf, List.pairwise_cons, List.mem_cons, forall_eq_or_imp]
  tauto

/-- Every cell of a memory after a write is the cell written or was there before. -/
theorem Memory.mem_write {m : Memory} {a : Nat} {v : Byte} {c : Host.Cell} (h : c ∈ m.write a v) : c = (a, v) ∨ c ∈ m := by
  induction m with
  | nil => simp only [Memory.write] at h; split at h <;> simp_all
  | cons x rest ih =>
    obtain ⟨k, b⟩ := x
    simp only [Memory.write] at h
    split at h
    · split at h <;> simp_all
    · split at h
      · split at h
        · exact .inr (List.mem_cons_of_mem _ h)
        · rcases List.mem_cons.mp h with h | h <;> simp_all
      · rcases List.mem_cons.mp h with h | h
        · simp_all
        · rcases ih h with h | h <;> simp_all

/-- A write keeps the canonical form. -/
theorem Memory.write_wf {m : Memory} (h : m.wf) (a : Nat) (v : Byte) : (m.write a v).wf := by
  induction m with
  | nil => simp only [Memory.write]; split <;> simp_all [Memory.wf]
  | cons x rest ih =>
    obtain ⟨k, b⟩ := x
    obtain ⟨hk, hb, hr⟩ := Memory.wf_cons.mp h
    simp only [Memory.write]
    split
    · split
      · exact h
      · refine Memory.wf_cons.mpr ⟨fun c hc => ?_, by assumption, h⟩
        rcases List.mem_cons.mp hc with rfl | hc
        · assumption
        · exact lt_trans ‹a < k› (hk c hc)
    · split
      · subst_vars
        split
        · exact hr
        · exact Memory.wf_cons.mpr ⟨hk, by assumption, hr⟩
      · refine Memory.wf_cons.mpr ⟨fun c hc => ?_, hb, ih hr⟩
        rcases Memory.mem_write hc with rfl | hc
        · simp only; omega
        · exact hk c hc

/-- A write within a capacity adds no cell past it. -/
theorem Memory.write_within {m : Memory} {capacity : Nat} (h : m.within capacity) {a : Nat} (ha : a < capacity) (v : Byte) :
    (m.write a v).within capacity := by
  intro c hc
  rcases Memory.mem_write hc with rfl | hc
  · exact ha
  · exact h c hc

/-- Below every listed index a memory reads as unlisted. -/
theorem Memory.read_of_lt {m : Memory} {a : Nat} (h : ∀ c ∈ m, a < c.1) : m.read a = Memory.unlisted := by
  induction m with
  | nil => rfl
  | cons x rest ih =>
    obtain ⟨k, b⟩ := x
    have hk : a < k := h (k, b) (by simp)
    simp only [Memory.read, if_neg (Nat.ne_of_lt hk)]
    exact ih fun c hc => h c (List.mem_cons_of_mem _ hc)

/-- Read after write at the same index. -/
theorem Memory.read_write_same {m : Memory} (h : m.wf) (a : Nat) (v : Byte) : (m.write a v).read a = v := by
  induction m with
  | nil => simp only [Memory.write]; split <;> simp_all [Memory.read]
  | cons x rest ih =>
    obtain ⟨k, b⟩ := x
    obtain ⟨hk, _, hr⟩ := Memory.wf_cons.mp h
    simp only [Memory.write]
    split
    · rename_i hlt
      split
      · rename_i hv
        rw [hv]
        refine Memory.read_of_lt fun c hc => ?_
        rcases List.mem_cons.mp hc with rfl | hc
        · exact hlt
        · exact lt_trans hlt (hk c hc)
      · simp [Memory.read]
    · split
      · subst_vars
        split
        · rename_i hv
          rw [hv]
          exact Memory.read_of_lt hk
        · simp [Memory.read]
      · rename_i hne
        simp only [Memory.read, if_neg hne]
        exact ih hr

/-- A write leaves every other index alone. -/
theorem Memory.read_write_other {m : Memory} {a c : Nat} (v : Byte) (h : c ≠ a) : (m.write a v).read c = m.read c := by
  induction m with
  | nil => simp only [Memory.write]; split <;> simp [Memory.read, h]
  | cons x rest ih =>
    obtain ⟨k, b⟩ := x
    simp only [Memory.write]
    split
    · split
      · rfl
      · simp [Memory.read, h]
    · split
      · subst_vars
        split <;> simp [Memory.read, h]
      · simp only [Memory.read, ih]

/-- In canonical form, memories that read the same everywhere are the same data. -/
theorem Memory.eq_of_read_eq {m n : Memory} (hm : m.wf) (hn : n.wf) (h : ∀ a, m.read a = n.read a) : m = n := by
  induction m generalizing n with
  | nil =>
    cases n with
    | nil => rfl
    | cons y rest =>
      obtain ⟨k, b⟩ := y
      obtain ⟨_, hb, _⟩ := Memory.wf_cons.mp hn
      exact absurd (by simpa [Memory.read] using (h k).symm) hb
  | cons x rest ih =>
    obtain ⟨k, b⟩ := x
    obtain ⟨hk, hb, hr⟩ := Memory.wf_cons.mp hm
    cases n with
    | nil => exact absurd (by simpa [Memory.read] using h k) hb
    | cons y rest' =>
      obtain ⟨k', b'⟩ := y
      obtain ⟨hk', hb', hr'⟩ := Memory.wf_cons.mp hn
      have hkk : k = k' := by
        rcases Nat.lt_trichotomy k k' with hlt | heq | hlt
        · refine absurd ?_ hb
          have hu : Memory.read ((k', b') :: rest') k = Memory.unlisted :=
            Memory.read_of_lt fun c hc => by
              rcases List.mem_cons.mp hc with rfl | hc
              · exact hlt
              · exact lt_trans hlt (hk' c hc)
          have hx := h k
          rw [hu] at hx
          simpa [Memory.read] using hx
        · exact heq
        · refine absurd ?_ hb'
          have hu : Memory.read ((k, b) :: rest) k' = Memory.unlisted :=
            Memory.read_of_lt fun c hc => by
              rcases List.mem_cons.mp hc with rfl | hc
              · exact hlt
              · exact lt_trans hlt (hk c hc)
          have hx := h k'
          rw [hu] at hx
          simpa [Memory.read] using hx.symm
      subst hkk
      have hbb : b = b' := by simpa [Memory.read] using h k
      subst hbb
      have hrest : rest = rest' := by
        refine ih hr hr' fun a => ?_
        by_cases ha : a = k
        · subst ha
          rw [Memory.read_of_lt hk, Memory.read_of_lt hk']
        · simpa [Memory.read, ha] using h a
      rw [hrest]

/-- Copying bytes in keeps the canonical form. -/
theorem Memory.load_wf {m : Memory} (h : m.wf) (a : Nat) (bs : List Byte) : (m.load a bs).wf := by
  induction bs generalizing m a with
  | nil => exact h
  | cons b bs ih => exact ih (Memory.write_wf h a b) (a + 1)

/-- Copying in bytes that fit keeps every cell within the capacity. -/
theorem Memory.load_within {m : Memory} {capacity : Nat} (h : m.within capacity) {a : Nat} {bs : List Byte}
    (hb : a + bs.length ≤ capacity) : (m.load a bs).within capacity := by
  induction bs generalizing m a with
  | nil => exact h
  | cons b bs ih =>
    simp only [List.length_cons] at hb
    exact ih (Memory.write_within h (by omega) b) (by omega)

/-- Copying bytes in from index `a` on leaves every index below `a` alone. -/
theorem Memory.read_load_below {m : Memory} {a c : Nat} (bs : List Byte) (h : c < a) : (m.load a bs).read c = m.read c := by
  induction bs generalizing m a with
  | nil => rfl
  | cons b bs ih =>
    rw [Memory.load, ih (by omega), Memory.read_write_other b (by omega)]

/-- Copying bytes in from index `a` on: index `a + k` reads as byte `k`, every other index as before. -/
theorem Memory.read_load {m : Memory} (hm : m.wf) (a : Nat) (bs : List Byte) (c : Nat) :
    (m.load a bs).read c = if a ≤ c ∧ c < a + bs.length then bs.getD (c - a) 0 else m.read c := by
  induction bs generalizing m a with
  | nil => rw [Memory.load, if_neg (by simp only [List.length_nil]; omega)]
  | cons b bs ih =>
    rw [Memory.load, ih (Memory.write_wf hm a b), List.length_cons]
    by_cases hca : c = a
    · subst hca
      rw [if_neg (by omega), Memory.read_write_same hm, if_pos (by omega), Nat.sub_self, List.getD_cons_zero]
    · rw [Memory.read_write_other b hca]
      by_cases hc : a + 1 ≤ c ∧ c < a + 1 + bs.length
      · rw [if_pos hc, if_pos (by omega), show c - a = (c - (a + 1)) + 1 by omega, List.getD_cons_succ]
      · rw [if_neg hc, if_neg (by omega)]

/-- Every request keeps storage in canonical form. -/
theorem ramAfter_wf {m : Memory} (h : m.wf) (capacity a : Nat) (op : BusOp) : (ramAfter capacity m a op).wf := by
  cases op with
  | readByte => exact h
  | readShort => exact h
  | writeByte v => simp only [ramAfter]; split <;> [exact Memory.write_wf h a v; exact h]
  | writeShort v =>
    simp only [ramAfter]
    split
    · exact Memory.write_wf (Memory.write_wf h a _) (a + 1) _
    · split <;> [exact Memory.write_wf h a _; exact h]

/-- Every request keeps storage within its capacity. -/
theorem ramAfter_within {m : Memory} {capacity : Nat} (h : m.within capacity) (a : Nat) (op : BusOp) :
    (ramAfter capacity m a op).within capacity := by
  cases op with
  | readByte => exact h
  | readShort => exact h
  | writeByte v =>
    simp only [ramAfter]
    split <;> [exact Memory.write_within h (by assumption) v; exact h]
  | writeShort v =>
    simp only [ramAfter]
    split
    · exact Memory.write_within (Memory.write_within h (by omega) _) (by omega) _
    · split <;> [exact Memory.write_within h (by omega) _; exact h]

/-- A device stays well formed under every request. -/
theorem Device.after_wf {d : Device} (h : d.wf = true) (a : Nat) (op : BusOp) : (d.after a op).wf = true := by
  cases d with
  | memory capacity bytes =>
    simp only [Device.wf, Bool.and_eq_true, decide_eq_true_eq, Device.after] at h ⊢
    exact ⟨⟨h.1.1, ramAfter_wf h.1.2 _ _ _⟩, ramAfter_within h.2 _ _⟩
  | register bytes =>
    simp only [Device.wf, Bool.and_eq_true, decide_eq_true_eq, Device.after] at h ⊢
    exact ⟨ramAfter_wf h.1 _ _ _, ramAfter_within h.2 _ _⟩
  | peripheral handle => rfl

/-- A mapper stays well formed under every request. -/
theorem Mapper.after_wf {mode : RegionAddressing} {m : Mapper} (h : m.wf = true) (a : Nat) (op : BusOp) :
    (m.after mode a op).wf = true := by
  induction m generalizing a with
  | nil => rfl
  | device start stop dev rest ih =>
    simp only [Mapper.wf, Bool.and_eq_true] at h
    simp only [Mapper.after]
    split <;> simp only [Mapper.wf, Bool.and_eq_true]
    · exact ⟨⟨h.1.1, Device.after_wf h.1.2 _ _⟩, h.2⟩
    · exact ⟨h.1, ih h.2 a⟩
  | composite start stop inner rest ihi ihr =>
    simp only [Mapper.wf, Bool.and_eq_true] at h
    simp only [Mapper.after]
    split <;> simp only [Mapper.wf, Bool.and_eq_true]
    · exact ⟨⟨h.1.1, ihi h.1.2 _⟩, h.2⟩
    · exact ⟨h.1, ihr h.2 a⟩

end Sys2Proof.Machine
end

