-- ==== Sys2Proof/Laws/Mapper.lean ====
section
/-! SUPPORT. The mapper in the view of addresses: reads change nothing, a 2-byte write is answered like a 2-byte read, is read
back, and leaves every byte and word it does not overlap alone. -/

namespace Sys2Proof.Machine

@[simp] theorem lowByte_wordOfBytes (h l : Byte) : lowByte (wordOfBytes h l) = l := by
  apply BitVec.eq_of_getLsbD_eq
  intro i hi
  simp only [lowByte, wordOfBytes, BitVec.getLsbD_extractLsb', BitVec.getLsbD_append]
  simp [hi]

@[simp] theorem highByte_wordOfBytes (h l : Byte) : highByte (wordOfBytes h l) = h := by
  apply BitVec.eq_of_getLsbD_eq
  intro i hi
  simp only [highByte, wordOfBytes, BitVec.getLsbD_extractLsb', BitVec.getLsbD_append]
  simp [hi]

@[simp] theorem wordOfBytes_highByte_lowByte (v : Word) : wordOfBytes (highByte v) (lowByte v) = v := by
  apply BitVec.eq_of_getLsbD_eq
  intro i hi
  simp only [highByte, lowByte, wordOfBytes, BitVec.getLsbD_extractLsb', BitVec.getLsbD_append]
  by_cases h : i < 8
  · simp [h]
  · have e : 8 + (i - 8) = i := by omega
    have h8 : i - 8 < 8 := by omega
    simp [h, e, h8]

@[simp] theorem lowByte_setWidth (b : Byte) : lowByte (b.setWidth 16) = b := by
  apply BitVec.eq_of_getLsbD_eq
  intro i hi
  simp only [lowByte, BitVec.getLsbD_extractLsb', BitVec.getLsbD_setWidth]
  simp [hi]
  intro _
  omega

/-- The address a device receives keeps the distance between addresses of its region. -/
theorem deviceAddress_sub {mode : RegionAddressing} {start a b : Nat} (ha : start ≤ a) (hb : start ≤ b) :
    deviceAddress mode start a + b = deviceAddress mode start b + a := by
  cases mode <;> simp only [deviceAddress] <;> omega

theorem Device.after_readByte (d : Device) (a : Nat) : d.after a .readByte = d := by cases d <;> rfl

theorem Device.after_readShort (d : Device) (a : Nat) : d.after a .readShort = d := by cases d <;> rfl

/-- A byte read changes no device (R71). -/
theorem Mapper.after_readByte (mode : RegionAddressing) (m : Mapper) (a : Nat) : m.after mode a .readByte = m := by
  induction m generalizing a with
  | nil => rfl
  | device start stop dev rest ih => simp only [Mapper.after, Device.after_readByte, ih, ite_self]
  | composite start stop inner rest ihi ihr => simp only [Mapper.after, ihi, ihr, ite_self]

/-- A 2-byte read changes no device (R71). -/
theorem Mapper.after_readShort (mode : RegionAddressing) (m : Mapper) (a : Nat) : m.after mode a .readShort = m := by
  induction m generalizing a with
  | nil => rfl
  | device start stop dev rest ih => simp only [Mapper.after, Device.after_readShort, ih, ite_self]
  | composite start stop inner rest ihi ihr => simp only [Mapper.after, ihi, ihr, ite_self]

/-- A request that reaches a peripheral changes no device: what it does there is the peripheral's (R57). -/
theorem Mapper.after_of_external {mode : RegionAddressing} {m : Mapper} {a h l : Nat} {op : BusOp}
    (he : m.reply mode a op = .external h l) : m.after mode a op = m := by
  induction m generalizing a with
  | nil => rfl
  | device start stop dev rest ih =>
    simp only [Mapper.reply] at he
    simp only [Mapper.after]
    split <;> rename_i hin
    · rw [if_pos hin] at he
      cases dev with
      | peripheral handle => rfl
      | memory capacity bytes => cases op <;> simp only [Device.reply, ramReply] at he <;> split at he <;> cases he
      | register bytes => cases op <;> simp only [Device.reply, ramReply] at he <;> split at he <;> cases he
    · rw [if_neg hin] at he
      rw [ih he]
  | composite start stop inner rest ihi ihr =>
    simp only [Mapper.reply] at he
    simp only [Mapper.after]
    split <;> rename_i hin
    · rw [if_pos hin] at he
      rw [ihi he]
    · rw [if_neg hin] at he
      rw [ihr he]

/-- What the answer to a write is, given the answer to a read of the same width: a write's data is 0 by convention. -/
def Reply.ofRead : Reply → Reply
  | .done _ => .done 0
  | .unmapped => .unmapped
  | .bounds => .bounds
  | .external handle addr => .external handle addr

/-- A 2-byte write is answered like a 2-byte read at the same address (R55, R62). -/
theorem Mapper.reply_writeShort (mode : RegionAddressing) (m : Mapper) (a : Nat) (v : Word) :
    m.reply mode a (.writeShort v) = (m.reply mode a .readShort).ofRead := by
  induction m generalizing a with
  | nil => rfl
  | device start stop dev rest ih =>
    simp only [Mapper.reply]
    split
    · cases dev <;> simp only [Device.reply, ramReply, Reply.ofRead] <;> split <;> rfl
    · exact ih a
  | composite start stop inner rest ihi ihr =>
    simp only [Mapper.reply]
    split
    · exact ihi _
    · exact ihr a

/-- What storage is does not change what it answers a 2-byte read with, but for the data. -/
theorem ramReply_readShort_ofRead (capacity : Nat) (m n : Memory) (a : Nat) :
    (ramReply capacity m a .readShort).ofRead = (ramReply capacity n a .readShort).ofRead := by
  simp only [ramReply]
  split <;> rfl

/-- No request changes which addresses a 2-byte access completes at. -/
theorem Mapper.reply_readShort_after_ofRead (mode : RegionAddressing) (m : Mapper) (a b : Nat) (op : BusOp) :
    ((m.after mode a op).reply mode b .readShort).ofRead = (m.reply mode b .readShort).ofRead := by
  induction m generalizing a b with
  | nil => rfl
  | device start stop dev rest ih =>
    simp only [Mapper.after]
    split
    · simp only [Mapper.reply]
      split
      · cases dev with
        | memory capacity bytes => exact ramReply_readShort_ofRead _ _ _ _
        | register bytes => exact ramReply_readShort_ofRead _ _ _ _
        | peripheral handle => rfl
      · rfl
    · simp only [Mapper.reply]
      split
      · rfl
      · exact ih a b
  | composite start stop inner rest ihi ihr =>
    simp only [Mapper.after]
    split
    · simp only [Mapper.reply]
      split
      · exact ihi _ _
      · rfl
    · simp only [Mapper.reply]
      split
      · rfl
      · exact ihr a b

/-- Storage reads the same at every index a 2-byte write does not reach. -/
theorem ramAfter_writeShort_read {capacity : Nat} {m : Memory} {a c : Nat} (v : Word) (h : c ≠ a) (h' : c ≠ a + 1) :
    (ramAfter capacity m a (.writeShort v)).read c = m.read c := by
  simp only [ramAfter]
  split
  · rw [Memory.read_write_other _ h', Memory.read_write_other _ h]
  · split
    · rw [Memory.read_write_other _ h]
    · rfl

/-- Storage after a 2-byte write that fits holds its two bytes, high byte first (R55). -/
theorem ramAfter_writeShort_same {capacity : Nat} {m : Memory} (hm : m.wf) {a : Nat} (v : Word) (h : a + 1 < capacity) :
    (ramAfter capacity m a (.writeShort v)).read a = highByte v
      ∧ (ramAfter capacity m a (.writeShort v)).read (a + 1) = lowByte v := by
  simp only [ramAfter, if_pos h]
  constructor
  · rw [Memory.read_write_other _ (by omega), Memory.read_write_same hm]
  · rw [Memory.read_write_same (Memory.write_wf hm a _)]

/-- A 2-byte write leaves the answer to a byte read at every other address alone. -/
theorem Mapper.reply_readByte_after_other (mode : RegionAddressing) (m : Mapper) {a b : Nat} (v : Word)
    (h : b ≠ a) (h' : b ≠ a + 1) :
    (m.after mode a (.writeShort v)).reply mode b .readByte = m.reply mode b .readByte := by
  induction m generalizing a b with
  | nil => rfl
  | device start stop dev rest ih =>
    simp only [Mapper.after]
    split
    · simp only [Mapper.reply]
      split
      · rename_i ha hb
        have := deviceAddress_sub (mode := mode) ha.1 hb.1
        cases dev with
        | memory capacity bytes =>
          simp only [Device.after, Device.reply, ramReply]
          rw [ramAfter_writeShort_read v (by omega) (by omega)]
        | register bytes =>
          simp only [Device.after, Device.reply, ramReply]
          rw [ramAfter_writeShort_read v (by omega) (by omega)]
        | peripheral handle => rfl
      · rfl
    · simp only [Mapper.reply, ih h h']
  | composite start stop inner rest ihi ihr =>
    simp only [Mapper.after]
    split
    · simp only [Mapper.reply]
      split
      · rename_i ha hb
        have := deviceAddress_sub (mode := mode) ha.1 hb.1
        exact ihi (by omega) (by omega)
      · rfl
    · simp only [Mapper.reply, ihr h h']

/-- A 2-byte write leaves the answer to a 2-byte read that does not overlap it alone. -/
theorem Mapper.reply_readShort_after_other (mode : RegionAddressing) (m : Mapper) {a b : Nat} (v : Word)
    (h : b + 1 < a ∨ a + 1 < b) :
    (m.after mode a (.writeShort v)).reply mode b .readShort = m.reply mode b .readShort := by
  induction m generalizing a b with
  | nil => rfl
  | device start stop dev rest ih =>
    simp only [Mapper.after]
    split
    · simp only [Mapper.reply]
      split
      · rename_i ha hb
        have := deviceAddress_sub (mode := mode) ha.1 hb.1
        cases dev with
        | memory capacity bytes =>
          simp only [Device.after, Device.reply, ramReply]
          rw [ramAfter_writeShort_read v (by omega) (by omega), ramAfter_writeShort_read v (by omega) (by omega)]
        | register bytes =>
          simp only [Device.after, Device.reply, ramReply]
          rw [ramAfter_writeShort_read v (by omega) (by omega), ramAfter_writeShort_read v (by omega) (by omega)]
        | peripheral handle => rfl
      · rfl
    · simp only [Mapper.reply, ih h]
  | composite start stop inner rest ihi ihr =>
    simp only [Mapper.after]
    split
    · simp only [Mapper.reply]
      split
      · rename_i ha hb
        have := deviceAddress_sub (mode := mode) ha.1 hb.1
        exact ihi (by omega)
      · rfl
    · simp only [Mapper.reply, ihr h]

/-- A 2-byte write that a Memory or Register device takes is read back (R67). -/
theorem Mapper.reply_readShort_after_same {mode : RegionAddressing} {m : Mapper} (hm : m.wf = true) {a : Nat} {w : Word}
    (v : Word) (h : m.reply mode a .readShort = .done w) :
    (m.after mode a (.writeShort v)).reply mode a .readShort = .done v := by
  induction m generalizing a with
  | nil => simp [Mapper.reply] at h
  | device start stop dev rest ih =>
    simp only [Mapper.wf, Bool.and_eq_true] at hm
    simp only [Mapper.after]
    simp only [Mapper.reply] at h
    split at h
    · rename_i hin
      simp only [if_pos hin, Mapper.reply]
      cases dev with
      | memory capacity bytes =>
        simp only [Device.wf, Bool.and_eq_true, decide_eq_true_eq] at hm
        simp only [Device.after, Device.reply, ramReply] at h ⊢
        split at h <;> rename_i hc
        · obtain ⟨h1, h2⟩ := ramAfter_writeShort_same hm.1.2.1.2 v hc
          rw [if_pos hc, h1, h2, wordOfBytes_highByte_lowByte]
        · cases h
      | register bytes =>
        simp only [Device.wf, Bool.and_eq_true, decide_eq_true_eq] at hm
        simp only [Device.after, Device.reply, ramReply] at h ⊢
        split at h <;> rename_i hc
        · obtain ⟨h1, h2⟩ := ramAfter_writeShort_same hm.1.2.1 v hc
          rw [if_pos hc, h1, h2, wordOfBytes_highByte_lowByte]
        · cases h
      | peripheral handle => simp [Device.reply] at h
    · rename_i hin
      simp only [if_neg hin, Mapper.reply]
      exact ih hm.2 h
  | composite start stop inner rest ihi ihr =>
    simp only [Mapper.wf, Bool.and_eq_true] at hm
    simp only [Mapper.after]
    simp only [Mapper.reply] at h
    split at h
    · rename_i hin
      simp only [if_pos hin, Mapper.reply]
      exact ihi hm.1.2 h
    · rename_i hin
      simp only [if_neg hin, Mapper.reply]
      exact ihr hm.2 h

/-- Where a word can be read, its first byte can, and it is the high byte (R66). -/
theorem Mapper.reply_readByte_of_readShort {mode : RegionAddressing} {m : Mapper} {a : Nat} {w : Word}
    (h : m.reply mode a .readShort = .done w) : m.reply mode a .readByte = .done ((highByte w).setWidth 16) := by
  induction m generalizing a with
  | nil => simp [Mapper.reply] at h
  | device start stop dev rest ih =>
    simp only [Mapper.reply] at h ⊢
    split at h
    · rename_i hin
      rw [if_pos hin]
      cases dev with
      | memory capacity bytes =>
        simp only [Device.reply, ramReply] at h ⊢
        split at h
        · rw [if_pos (by omega)]
          cases h
          simp
        · cases h
      | register bytes =>
        simp only [Device.reply, ramReply] at h ⊢
        split at h
        · rw [if_pos (by omega)]
          cases h
          simp
        · cases h
      | peripheral handle => simp [Device.reply] at h
    · rename_i hin
      rw [if_neg hin]
      exact ih h
  | composite start stop inner rest ihi ihr =>
    simp only [Mapper.reply] at h ⊢
    split at h
    · rename_i hin
      rw [if_pos hin]
      exact ihi h
    · rename_i hin
      rw [if_neg hin]
      exact ihr h

/-- The high byte of a word as a 16-bit value (R54: `v >> 8`). -/
theorem setWidth_highByte (v : Word) : (highByte v).setWidth 16 = v >>> 8 := by
  apply BitVec.eq_of_getLsbD_eq
  intro i hi
  simp only [highByte, BitVec.getLsbD_setWidth, BitVec.getLsbD_extractLsb', BitVec.getLsbD_ushiftRight]
  by_cases h : i < 8
  · simp [h, hi]
  · simp only [hi, h, decide_true, decide_false, Bool.false_and, Bool.and_false]
    rw [BitVec.getLsbD_of_ge _ _ (by omega)]

/-- The low byte of a word as a 16-bit value (R54: `v & 0xFF`). -/
theorem setWidth_lowByte (v : Word) : (lowByte v).setWidth 16 = v &&& 0xFF := by
  apply BitVec.eq_of_getLsbD_eq
  intro i hi
  simp only [lowByte, BitVec.getLsbD_setWidth, BitVec.getLsbD_extractLsb', BitVec.getLsbD_and]
  interval_cases i <;> simp

/-- No request changes a device's kind or capacity. -/
theorem Device.shape_after (d : Device) (a : Nat) (op : BusOp) : (d.after a op).shape = d.shape := by cases d <;> rfl

/-- No request changes the region list (R32). -/
theorem Mapper.shape_after (mode : RegionAddressing) (m : Mapper) (a : Nat) (op : BusOp) :
    (m.after mode a op).shape = m.shape := by
  induction m generalizing a with
  | nil => rfl
  | device start stop dev rest ih =>
    simp only [Mapper.after]
    split <;> simp only [Mapper.shape, Device.shape_after, ih]
  | composite start stop inner rest ihi ihr =>
    simp only [Mapper.after]
    split <;> simp only [Mapper.shape, ihi, ihr]

end Sys2Proof.Machine
end

