-- ==== Sys2Proof/Laws/State.lean ====
section
/-! SUPPORT. The small lemmas of State and the register file: what each update leaves in each field, so that no proof
unfolds a record update. -/

namespace Sys2Proof.Machine

theorem RegFile.get_set_same (f : RegFile) (r : Reg) (v : Word) : (f.set r v).get r = v := by
  cases r <;> rfl

theorem RegFile.get_set_other (f : RegFile) {r q : Reg} (v : Word) (h : q ≠ r) : (f.set r v).get q = f.get q := by
  cases r <;> cases q <;> first | rfl | exact absurd rfl h

/-- The register file is a map from names to values: two writes to one register leave the later. -/
theorem RegFile.set_set_same (f : RegFile) (r : Reg) (v w : Word) : (f.set r v).set r w = f.set r w := by
  cases r <;> rfl

/-- Register files that agree on every register are equal. -/
theorem RegFile.ext_get {f g : RegFile} (h : ∀ r, f.get r = g.get r) : f = g := by
  obtain ⟨_, _, _, _, _, _, _, _, _, _, _, _⟩ := f
  obtain ⟨_, _, _, _, _, _, _, _, _, _, _, _⟩ := g
  simp only [RegFile.mk.injEq]
  exact ⟨h .ip, h .acc, h .r1, h .r2, h .r3, h .r4, h .r5, h .r6, h .r7, h .r8, h .sp, h .fp⟩

@[simp] theorem State.reg_setReg_same (s : State) (r : Reg) (v : Word) : (s.setReg r v).reg r = v :=
  RegFile.get_set_same s.regs r v

theorem State.reg_setReg_other (s : State) {r q : Reg} (v : Word) (h : q ≠ r) : (s.setReg r v).reg q = s.reg q :=
  RegFile.get_set_other s.regs v h

@[simp] theorem State.reg_setReg (s : State) (r q : Reg) (v : Word) :
    (s.setReg r v).reg q = if q = r then v else s.reg q := by
  split
  · subst_vars; exact s.reg_setReg_same _ v
  · exact s.reg_setReg_other v ‹_›

@[simp] theorem State.regs_setReg (s : State) (r : Reg) (v : Word) : (s.setReg r v).regs = s.regs.set r v := rfl
@[simp] theorem State.fs_setReg (s : State) (r : Reg) (v : Word) : (s.setReg r v).fs = s.fs := rfl
@[simp] theorem State.runState_setReg (s : State) (r : Reg) (v : Word) : (s.setReg r v).runState = s.runState := rfl
@[simp] theorem State.mapper_setReg (s : State) (r : Reg) (v : Word) : (s.setReg r v).mapper = s.mapper := rfl
@[simp] theorem State.peripheralLog_setReg (s : State) (r : Reg) (v : Word) : (s.setReg r v).peripheralLog = s.peripheralLog := rfl
@[simp] theorem State.params_setReg (s : State) (r : Reg) (v : Word) : (s.setReg r v).params = s.params := rfl

@[simp] theorem State.regs_setFs (s : State) (v : Word) : (s.setFs v).regs = s.regs := rfl
@[simp] theorem State.fs_setFs (s : State) (v : Word) : (s.setFs v).fs = v := rfl
@[simp] theorem State.runState_setFs (s : State) (v : Word) : (s.setFs v).runState = s.runState := rfl
@[simp] theorem State.mapper_setFs (s : State) (v : Word) : (s.setFs v).mapper = s.mapper := rfl
@[simp] theorem State.peripheralLog_setFs (s : State) (v : Word) : (s.setFs v).peripheralLog = s.peripheralLog := rfl
@[simp] theorem State.params_setFs (s : State) (v : Word) : (s.setFs v).params = s.params := rfl
@[simp] theorem State.reg_setFs (s : State) (v : Word) (q : Reg) : (s.setFs v).reg q = s.reg q := rfl

@[simp] theorem State.regs_setRun (s : State) (r : RunState) : (s.setRun r).regs = s.regs := rfl
@[simp] theorem State.fs_setRun (s : State) (r : RunState) : (s.setRun r).fs = s.fs := rfl
@[simp] theorem State.runState_setRun (s : State) (r : RunState) : (s.setRun r).runState = r := rfl
@[simp] theorem State.mapper_setRun (s : State) (r : RunState) : (s.setRun r).mapper = s.mapper := rfl
@[simp] theorem State.peripheralLog_setRun (s : State) (r : RunState) : (s.setRun r).peripheralLog = s.peripheralLog := rfl
@[simp] theorem State.params_setRun (s : State) (r : RunState) : (s.setRun r).params = s.params := rfl
@[simp] theorem State.reg_setRun (s : State) (r : RunState) (q : Reg) : (s.setRun r).reg q = s.reg q := rfl

@[simp] theorem State.regs_setMapper (s : State) (m : Mapper) : (s.setMapper m).regs = s.regs := rfl
@[simp] theorem State.fs_setMapper (s : State) (m : Mapper) : (s.setMapper m).fs = s.fs := rfl
@[simp] theorem State.runState_setMapper (s : State) (m : Mapper) : (s.setMapper m).runState = s.runState := rfl
@[simp] theorem State.mapper_setMapper (s : State) (m : Mapper) : (s.setMapper m).mapper = m := rfl
@[simp] theorem State.peripheralLog_setMapper (s : State) (m : Mapper) : (s.setMapper m).peripheralLog = s.peripheralLog := rfl
@[simp] theorem State.params_setMapper (s : State) (m : Mapper) : (s.setMapper m).params = s.params := rfl
@[simp] theorem State.reg_setMapper (s : State) (m : Mapper) (q : Reg) : (s.setMapper m).reg q = s.reg q := rfl

@[simp] theorem State.regs_setLog (s : State) (log : List PeripheralRequest) : (s.setLog log).regs = s.regs := rfl
@[simp] theorem State.fs_setLog (s : State) (log : List PeripheralRequest) : (s.setLog log).fs = s.fs := rfl
@[simp] theorem State.runState_setLog (s : State) (log : List PeripheralRequest) : (s.setLog log).runState = s.runState := rfl
@[simp] theorem State.mapper_setLog (s : State) (log : List PeripheralRequest) : (s.setLog log).mapper = s.mapper := rfl
@[simp] theorem State.peripheralLog_setLog (s : State) (log : List PeripheralRequest) : (s.setLog log).peripheralLog = log := rfl
@[simp] theorem State.params_setLog (s : State) (log : List PeripheralRequest) : (s.setLog log).params = s.params := rfl
@[simp] theorem State.reg_setLog (s : State) (log : List PeripheralRequest) (q : Reg) : (s.setLog log).reg q = s.reg q := rfl
@[simp] theorem State.setLog_setLog (s : State) (log log' : List PeripheralRequest) :
    (s.setLog log).setLog log' = s.setLog log' := rfl
@[simp] theorem State.setLog_self (s : State) : s.setLog s.peripheralLog = s := rfl
theorem State.setLog_setReg (s : State) (log : List PeripheralRequest) (r : Reg) (v : Word) :
    (s.setLog log).setReg r v = (s.setReg r v).setLog log := rfl
theorem State.setLog_setFs (s : State) (log : List PeripheralRequest) (v : Word) :
    (s.setLog log).setFs v = (s.setFs v).setLog log := rfl

@[simp] theorem State.regs_logRequest (s : State) (e : PeripheralRequest) : (s.logRequest e).regs = s.regs := rfl
@[simp] theorem State.fs_logRequest (s : State) (e : PeripheralRequest) : (s.logRequest e).fs = s.fs := rfl
@[simp] theorem State.runState_logRequest (s : State) (e : PeripheralRequest) : (s.logRequest e).runState = s.runState := rfl
@[simp] theorem State.mapper_logRequest (s : State) (e : PeripheralRequest) : (s.logRequest e).mapper = s.mapper := rfl
@[simp] theorem State.peripheralLog_logRequest (s : State) (e : PeripheralRequest) : (s.logRequest e).peripheralLog = e :: s.peripheralLog := rfl
@[simp] theorem State.params_logRequest (s : State) (e : PeripheralRequest) : (s.logRequest e).params = s.params := rfl
@[simp] theorem State.reg_logRequest (s : State) (e : PeripheralRequest) (q : Reg) : (s.logRequest e).reg q = s.reg q := rfl

@[simp] theorem State.regs_enterFault (s : State) (k : FaultKind) : (s.enterFault k).regs = s.regs := rfl
@[simp] theorem State.fs_enterFault (s : State) (k : FaultKind) : (s.enterFault k).fs = s.fs := rfl
@[simp] theorem State.runState_enterFault (s : State) (k : FaultKind) : (s.enterFault k).runState = .faulted k := rfl
@[simp] theorem State.mapper_enterFault (s : State) (k : FaultKind) : (s.enterFault k).mapper = s.mapper := rfl
@[simp] theorem State.peripheralLog_enterFault (s : State) (k : FaultKind) : (s.enterFault k).peripheralLog = s.peripheralLog := rfl
@[simp] theorem State.params_enterFault (s : State) (k : FaultKind) : (s.enterFault k).params = s.params := rfl
@[simp] theorem State.reg_enterFault (s : State) (k : FaultKind) (q : Reg) : (s.enterFault k).reg q = s.reg q := rfl

@[simp] theorem State.regs_after (s : State) (op : BusOp) (a : Word) : (s.after op a).regs = s.regs := rfl
@[simp] theorem State.fs_after (s : State) (op : BusOp) (a : Word) : (s.after op a).fs = s.fs := rfl
@[simp] theorem State.runState_after (s : State) (op : BusOp) (a : Word) : (s.after op a).runState = s.runState := rfl
@[simp] theorem State.mapper_after (s : State) (op : BusOp) (a : Word) : (s.after op a).mapper = s.mapper.after s.params.addressing a.toNat op := rfl
@[simp] theorem State.peripheralLog_after (s : State) (op : BusOp) (a : Word) : (s.after op a).peripheralLog = s.peripheralLog := rfl
@[simp] theorem State.params_after (s : State) (op : BusOp) (a : Word) : (s.after op a).params = s.params := rfl
@[simp] theorem State.reg_after (s : State) (op : BusOp) (a : Word) (q : Reg) : (s.after op a).reg q = s.reg q := rfl

/-- A register written with its own value is unchanged. -/
theorem State.setReg_self (s : State) (r : Reg) : s.setReg r (s.reg r) = s := by
  unfold State.setReg State.reg
  rw [RegFile.ext_get (f := s.regs.set r (s.regs.get r)) (g := s.regs) fun q => by
    by_cases h : q = r
    · rw [h, RegFile.get_set_same]
    · rw [RegFile.get_set_other _ _ h]]

/-- Two writes of one register leave the later. -/
theorem State.setReg_setReg_same (s : State) (r : Reg) (v w : Word) : (s.setReg r v).setReg r w = s.setReg r w := by
  unfold State.setReg
  simp only [RegFile.set_set_same]

end Sys2Proof.Machine
end

