-- ==== Sys2Proof/Laws/Ops.lean ====
section
/-! SUPPORT. What each shared operation does, once: how operations compose, what a bus access answers, and the reads, writes,
pushes and pops that a Memory or Register device serves. -/

namespace Sys2Proof.Machine

/-! Composition. -/

/-- A sequence of two operations: the second runs on the state the first leaves, unless the first stops. -/
theorem Op.bind_apply {α β : Type} (x : Op α) (f : α → Op β) (s : State) :
    (x >>= f) s = match x s with
      | .ok a t => f a t
      | .error e t => .error e t := by
  simp only [bind, EStateM.bind]
  cases x s <;> rfl

theorem Op.bind_of_ok {α β : Type} {x : Op α} {f : α → Op β} {s t : State} {a : α} (h : x s = .ok a t) :
    (x >>= f) s = f a t := by
  rw [Op.bind_apply, h]

theorem Op.bind_of_error {α β : Type} {x : Op α} {f : α → Op β} {s t : State} {e : Stop} (h : x s = .error e t) :
    (x >>= f) s = .error e t := by
  rw [Op.bind_apply, h]

@[simp] theorem Op.pure_apply {α : Type} (a : α) (s : State) : (pure a : Op α) s = .ok a s := rfl

@[simp] theorem getReg_apply (r : Reg) (s : State) : getReg r s = .ok (s.reg r) s := rfl

@[simp] theorem setReg_apply (r : Reg) (v : Word) (s : State) : setReg r v s = .ok () (s.setReg r v) := rfl

@[simp] theorem getFs_apply (s : State) : getFs s = .ok s.fs s := rfl

@[simp] theorem setFs_apply (v : Word) (s : State) : setFs v s = .ok () (s.setFs v) := rfl

@[simp] theorem getParams_apply (s : State) : getParams s = .ok s.params s := rfl

@[simp] theorem raise_apply {α : Type} (k : FaultKind) (s : State) : (raise k : Op α) s = .error (.fault k) s := rfl

@[simp] theorem getReg_bind {β : Type} (r : Reg) (f : Word → Op β) (s : State) : (getReg r >>= f) s = f (s.reg r) s := rfl

@[simp] theorem setReg_bind {β : Type} (r : Reg) (v : Word) (f : Unit → Op β) (s : State) :
    (setReg r v >>= f) s = f () (s.setReg r v) := rfl

@[simp] theorem getFs_bind {β : Type} (f : Word → Op β) (s : State) : (getFs >>= f) s = f s.fs s := rfl

@[simp] theorem setFs_bind {β : Type} (v : Word) (f : Unit → Op β) (s : State) :
    (setFs v >>= f) s = f () (s.setFs v) := rfl

@[simp] theorem getParams_bind {β : Type} (f : Params → Op β) (s : State) : (getParams >>= f) s = f s.params s := rfl

theorem finish_of_ok {op : Op Unit} {s t : State} (h : op s = .ok () t) : finish op s = .next t := by
  simp only [finish, h]

theorem finish_of_fault {op : Op Unit} {s t : State} {k : FaultKind} (h : op s = .error (.fault k) t) :
    finish op s = .next (t.enterFault k) := by
  simp only [finish, h, stopOutcome]

theorem finish_of_hang {op : Op Unit} {s t : State} {a : Word} (h : op s = .error (.hang a) t) :
    finish op s = .fault (.peripheralHang a) := by
  simp only [finish, h, stopOutcome]

/-- Everything an outcome can be: the next state of a completed operation, the next state of a fault, or a hang. -/
theorem finish_cases (op : Op Unit) (s : State) :
    (∃ t, op s = .ok () t ∧ finish op s = .next t)
      ∨ (∃ k t, op s = .error (.fault k) t ∧ finish op s = .next (t.enterFault k))
      ∨ (∃ a t, op s = .error (.hang a) t ∧ finish op s = .fault (.peripheralHang a)) := by
  rcases h : op s with ⟨u, t⟩ | ⟨e, t⟩
  · exact .inl ⟨t, rfl, finish_of_ok h⟩
  · cases e with
    | fault k => exact .inr (.inl ⟨k, t, rfl, finish_of_fault h⟩)
    | hang a => exact .inr (.inr ⟨a, t, rfl, finish_of_hang h⟩)

/-! What memory answers does not depend on registers, FS or the run state. -/

@[simp] theorem State.reply_setReg (s : State) (r : Reg) (v : Word) (op : BusOp) (a : Word) :
    (s.setReg r v).reply op a = s.reply op a := rfl
@[simp] theorem State.reply_setFs (s : State) (v : Word) (op : BusOp) (a : Word) :
    (s.setFs v).reply op a = s.reply op a := rfl
@[simp] theorem State.reply_setRun (s : State) (r : RunState) (op : BusOp) (a : Word) :
    (s.setRun r).reply op a = s.reply op a := rfl
@[simp] theorem State.peekByte_setReg (s : State) (r : Reg) (v a : Word) : (s.setReg r v).peekByte a = s.peekByte a := rfl
@[simp] theorem State.peekByte_setFs (s : State) (v a : Word) : (s.setFs v).peekByte a = s.peekByte a := rfl
@[simp] theorem State.peekByte_setRun (s : State) (r : RunState) (a : Word) : (s.setRun r).peekByte a = s.peekByte a := rfl
@[simp] theorem State.peekShort_setReg (s : State) (r : Reg) (v a : Word) : (s.setReg r v).peekShort a = s.peekShort a := rfl
@[simp] theorem State.peekShort_setFs (s : State) (v a : Word) : (s.setFs v).peekShort a = s.peekShort a := rfl
@[simp] theorem State.peekShort_setRun (s : State) (r : RunState) (a : Word) :
    (s.setRun r).peekShort a = s.peekShort a := rfl
@[simp] theorem State.after_setReg (s : State) (r : Reg) (v : Word) (op : BusOp) (a : Word) :
    (s.setReg r v).after op a = (s.after op a).setReg r v := rfl
@[simp] theorem State.after_setFs (s : State) (v : Word) (op : BusOp) (a : Word) :
    (s.setFs v).after op a = (s.after op a).setFs v := rfl

/-! Bus accesses. -/

/-- A word that can be peeked is what the mapper answers a 2-byte read with. -/
theorem State.peekShort_eq_some {s : State} {a v : Word} : s.peekShort a = some v ↔ s.reply .readShort a = .done v := by
  unfold State.peekShort
  split <;> simp_all

theorem State.hasShort_iff {s : State} {a : Word} : s.hasShort a ↔ ∃ v, s.reply .readShort a = .done v := by
  simp only [State.hasShort, Option.isSome_iff_exists, State.peekShort_eq_some]

/-- Everything one bus access can do. -/
theorem busAccess_cases (op : BusOp) (a : Word) (s : State) :
    (∃ v, s.reply op a = .done v ∧ busAccess op a s = .ok v (s.after op a))
      ∨ (s.reply op a = .unmapped ∧ busAccess op a s = .error (.fault (.unmapped a)) s)
      ∨ (s.reply op a = .bounds ∧ busAccess op a s = .error (.fault (.bounds a)) (s.after op a))
      ∨ (∃ h l, s.reply op a = .external h l ∧ busAccess op a s = askPeripheral a (peripheralRequest h l op) s) := by
  unfold busAccess
  cases h : s.reply op a with
  | done v => exact .inl ⟨v, rfl, rfl⟩
  | unmapped => exact .inr (.inl ⟨rfl, rfl⟩)
  | bounds => exact .inr (.inr (.inl ⟨rfl, rfl⟩))
  | external handle addr => exact .inr (.inr (.inr ⟨handle, addr, rfl, rfl⟩))

/-- An access no region answers (R273). -/
theorem busAccess_of_unmapped {op : BusOp} {a : Word} {s : State} (h : s.reply op a = .unmapped) :
    busAccess op a s = .error (.fault (.unmapped a)) s := by
  simp only [busAccess, h]

/-- An access past a device's capacity (R274). -/
theorem busAccess_of_bounds {op : BusOp} {a : Word} {s : State} (h : s.reply op a = .bounds) :
    busAccess op a s = .error (.fault (.bounds a)) (s.after op a) := by
  simp only [busAccess, h]

/-- An access that reaches an external peripheral (R57). -/
theorem busAccess_of_external {op : BusOp} {a : Word} {handle addr : Nat} {s : State}
    (h : s.reply op a = .external handle addr) : busAccess op a s = askPeripheral a ⟨handle, addr, op⟩ s := by
  simp only [busAccess, h, peripheralRequest]

/-- What a state holds at an address depends on the mapper and the parameters alone. -/
theorem State.peekByte_of_mapper {s t : State} (h : t.mapper = s.mapper) (hp : t.params = s.params) (a : Word) :
    t.peekByte a = s.peekByte a := by
  unfold State.peekByte State.reply
  rw [h, hp]

theorem State.peekShort_of_mapper {s t : State} (h : t.mapper = s.mapper) (hp : t.params = s.params) (a : Word) :
    t.peekShort a = s.peekShort a := by
  unfold State.peekShort State.reply
  rw [h, hp]

theorem State.after_readByte (s : State) (a : Word) : s.after .readByte a = s := by
  simp only [State.after, Mapper.after_readByte, State.setMapper]

theorem State.after_readShort (s : State) (a : Word) : s.after .readShort a = s := by
  simp only [State.after, Mapper.after_readShort, State.setMapper]

/-- A byte read that a Memory or Register device serves changes nothing. -/
theorem memReadByte_of_peekByte {s : State} {a : Word} {b : Byte} (h : s.peekByte a = some b) :
    memReadByte a s = .ok b s := by
  unfold State.peekByte at h
  split at h
  · rename_i v hv
    cases h
    unfold memReadByte
    rw [Op.bind_apply]
    simp only [busAccess, hv, State.after_readByte, Op.pure_apply]
  · cases h

/-- A 2-byte read that a Memory or Register device serves changes nothing. -/
theorem memReadShort_of_peekShort {s : State} {a v : Word} (h : s.peekShort a = some v) : memReadShort a s = .ok v s := by
  unfold memReadShort busAccess
  simp only [State.peekShort_eq_some.mp h, State.after_readShort]

/-- A 2-byte write where a Memory or Register device holds the word. -/
theorem memWriteShort_of_hasShort {s : State} {a : Word} (v : Word) (h : s.hasShort a) :
    memWriteShort a v s = .ok () (s.after (.writeShort v) a) := by
  obtain ⟨w, hw⟩ := State.hasShort_iff.mp h
  have hr : s.reply (.writeShort v) a = .done 0 := by
    unfold State.reply at hw ⊢
    rw [Mapper.reply_writeShort, hw]
    rfl
  unfold memWriteShort
  rw [Op.bind_apply]
  simp only [busAccess, hr]
  rfl

/-- A word written is read back. -/
theorem State.peekShort_after_same {s : State} (hs : s.Inv) {a : Word} (v : Word) (h : s.hasShort a) :
    (s.after (.writeShort v) a).peekShort a = some v := by
  obtain ⟨w, hw⟩ := State.hasShort_iff.mp h
  exact State.peekShort_eq_some.mpr (Mapper.reply_readShort_after_same hs v hw)

/-- A 2-byte write leaves every word it does not overlap alone. -/
theorem State.peekShort_after_other (s : State) {a b : Word} (v : Word)
    (h : b.toNat + 1 < a.toNat ∨ a.toNat + 1 < b.toNat) :
    (s.after (.writeShort v) a).peekShort b = s.peekShort b := by
  unfold State.peekShort
  rw [show (s.after (.writeShort v) a).reply .readShort b = s.reply .readShort b from
    Mapper.reply_readShort_after_other _ _ v h]

/-- A 2-byte write leaves every other byte alone. -/
theorem State.peekByte_after_other (s : State) {a b : Word} (v : Word)
    (h : b.toNat ≠ a.toNat) (h' : b.toNat ≠ a.toNat + 1) : (s.after (.writeShort v) a).peekByte b = s.peekByte b := by
  unfold State.peekByte
  rw [show (s.after (.writeShort v) a).reply .readByte b = s.reply .readByte b from
    Mapper.reply_readByte_after_other _ _ v h h']

/-- The high byte of a word stands at the word's own address (R66). -/
theorem State.peekByte_of_peekShort {s : State} {a v : Word} (h : s.peekShort a = some v) :
    s.peekByte a = some (highByte v) := by
  unfold State.peekByte
  rw [show s.reply .readByte a = .done ((highByte v).setWidth 16) from
    Mapper.reply_readByte_of_readShort (State.peekShort_eq_some.mp h)]
  simp

/-- A write changes neither which words are held, nor where a 2-byte access is unmapped or out of bounds. -/
theorem State.reply_after_ofRead (s : State) (op : BusOp) (a b : Word) :
    ((s.after op a).reply .readShort b).ofRead = (s.reply .readShort b).ofRead :=
  Mapper.reply_readShort_after_ofRead _ _ _ _ _

theorem State.hasShort_iff_ofRead {s : State} {a : Word} :
    s.hasShort a ↔ (s.reply .readShort a).ofRead = .done 0 := by
  rw [State.hasShort_iff]
  cases h : s.reply .readShort a <;> simp [Reply.ofRead]

theorem State.hasShort_after (s : State) (op : BusOp) (a b : Word) : (s.after op a).hasShort b ↔ s.hasShort b := by
  rw [State.hasShort_iff_ofRead, State.hasShort_iff_ofRead, State.reply_after_ofRead]

/-- The invariant is kept by every request a device serves. -/
theorem State.after_inv {s : State} (h : s.Inv) (op : BusOp) (a : Word) : (s.after op a).Inv :=
  Mapper.after_wf h a.toNat op

/-! Accesses that peripherals may serve. -/

/-- An access that completes: the device that answers is updated, and the peripherals' log is as `State.access` says. -/
theorem busAccess_of_access {op : BusOp} {a v : Word} {s : State} {log : List PeripheralRequest}
    (h : s.access s.peripheralLog op a = .ok (v, log)) : busAccess op a s = .ok v ((s.after op a).setLog log) := by
  unfold State.access at h
  cases hr : s.reply op a with
  | done w =>
    simp only [hr] at h
    cases h
    simp only [busAccess, hr]
    rfl
  | unmapped => simp only [hr] at h; cases h
  | bounds => simp only [hr] at h; cases h
  | external hd l =>
    simp only [hr] at h
    have hs : s.after op a = s := congrArg s.setMapper (Mapper.after_of_external hr)
    rw [busAccess_of_external hr, hs]
    unfold askPeripheral
    cases hf : Config.peripheralFate s.peripheralLog ⟨hd, l, op⟩ <;> simp only [hf] at h <;> cases h
    rfl

/-- A step whose operation stops wherever the access does, as it does, ends as the access ends. -/
theorem stopsAsAccess_of_error {o : Host.Outcome State Fault Refusal} {s : State} {op : BusOp} {a : Word}
    (h : ∀ e t, busAccess op a s = .error e t → ∃ u, o = stopOutcome e u) : stopsAsAccess o s s.peripheralLog op a := by
  have hk : ∀ k t, busAccess op a s = .error (.fault k) t → faultsWith o k := fun k t e => by
    obtain ⟨u, hu⟩ := h _ t e
    exact ⟨u.enterFault k, hu, rfl⟩
  refine ⟨fun e => hk _ _ (busAccess_of_unmapped e), fun e => hk _ _ (busAccess_of_bounds e), fun hd l e => ⟨fun f => ?_,
    fun f => ?_⟩⟩
  · refine hk _ (s.logRequest ⟨hd, l, op⟩) ?_
    rw [busAccess_of_external e, askPeripheral, f]
  · obtain ⟨u, hu⟩ := h (.hang a) (s.logRequest ⟨hd, l, op⟩) (by rw [busAccess_of_external e, askPeripheral, f])
    exact hu

/-- What an access is answered with depends on the mapper and the parameters alone. -/
theorem State.access_of_mapper {s t : State} (h : t.mapper = s.mapper) (hp : t.params = s.params)
    (log : List PeripheralRequest) (op : BusOp) (a : Word) : t.access log op a = s.access log op a := by
  unfold State.access State.reply
  rw [h, hp]

/-! The stack primitives. -/

/-- Push where the word at Sp can be written (R220). -/
theorem push_of_hasShort {s : State} (v : Word) (h : s.hasShort (s.reg .sp)) :
    push v s = .ok () (((s.after (.writeShort v) (s.reg .sp)).setReg .sp (s.reg .sp - 2)).setFs (s.fs + 2)) := by
  unfold push
  simp only [getReg_bind]
  rw [Op.bind_of_ok (memWriteShort_of_hasShort v h)]
  rfl

/-- Pop where the word above Sp can be read (R221). -/
theorem pop_of_peekShort {s : State} {v : Word} (h : s.peekShort (s.reg .sp + 2) = some v) :
    pop s = .ok v ((s.setReg .sp (s.reg .sp + 2)).setFs (s.fs - 2)) := by
  unfold pop
  simp only [getReg_bind, setReg_bind, getFs_bind, setFs_bind]
  rw [State.reg_setFs, State.reg_setReg_same]
  exact memReadShort_of_peekShort h

/-- Push where the write at Sp completes, whichever device serves it (R220). -/
theorem push_of_access {v w : Word} {s : State} {log : List PeripheralRequest}
    (h : s.access s.peripheralLog (.writeShort v) (s.reg .sp) = .ok (w, log)) :
    push v s = .ok ()
      ((((s.after (.writeShort v) (s.reg .sp)).setLog log).setReg .sp (s.reg .sp - 2)).setFs (s.fs + 2)) := by
  unfold push memWriteShort
  simp only [getReg_bind]
  rw [Op.bind_of_ok (by rw [Op.bind_of_ok (busAccess_of_access h)]; rfl)]
  rfl

/-- Pop where the read above Sp completes, whichever device serves it (R221). -/
theorem pop_of_access {v : Word} {s : State} {log : List PeripheralRequest}
    (h : s.access s.peripheralLog .readShort (s.reg .sp + 2) = .ok (v, log)) :
    pop s = .ok v (((s.setReg .sp (s.reg .sp + 2)).setFs (s.fs - 2)).setLog log) := by
  unfold pop
  simp only [getReg_bind, setReg_bind, getFs_bind, setFs_bind]
  rw [State.reg_setFs, State.reg_setReg_same]
  refine (busAccess_of_access (s := (s.setReg .sp (s.reg .sp + 2)).setFs (s.fs - 2)) h).trans ?_
  rw [State.after_readShort]

/-- A write that completes or not is answered the same after any request: contents do not matter to it. -/
theorem State.access_writeShort_after (s : State) (op : BusOp) (a b v : Word) (log : List PeripheralRequest) :
    (s.after op a).access log (.writeShort v) b = s.access log (.writeShort v) b := by
  have hr : (s.after op a).reply (.writeShort v) b = s.reply (.writeShort v) b := by
    have h1 := Mapper.reply_writeShort s.params.addressing (s.after op a).mapper b.toNat v
    have h2 := Mapper.reply_writeShort s.params.addressing s.mapper b.toNat v
    exact h1.trans ((s.reply_after_ofRead op a b).trans h2.symm)
  unfold State.access
  rw [hr]

/-! Fetching. -/

/-- A byte fetch (R13). -/
theorem fetchByte_of_peekByte {s : State} {b : Byte} (h : s.peekByte (s.reg .ip) = some b) :
    fetchByte s = .ok b (s.setReg .ip (s.reg .ip + 1)) := by
  unfold fetchByte
  simp only [getReg_bind]
  rw [Op.bind_of_ok (memReadByte_of_peekByte h)]
  rfl

/-- A 2-byte fetch (R13). -/
theorem fetchShort_of_peekShort {s : State} {v : Word} (h : s.peekShort (s.reg .ip) = some v) :
    fetchShort s = .ok v (s.setReg .ip (s.reg .ip + 2)) := by
  unfold fetchShort
  simp only [getReg_bind]
  rw [Op.bind_of_ok (memReadShort_of_peekShort h)]
  rfl

/-- Every register id names its register (R102). -/
theorem regOfByte_id (r : Reg) : regOfByte r.id = some r := by cases r <;> decide

/-- A register fetch of a legal id (R13). -/
theorem fetchReg_of_peekByte {s : State} {r : Reg} (h : s.peekByte (s.reg .ip) = some r.id) :
    fetchReg s = .ok r (s.setReg .ip (s.reg .ip + 1)) := by
  unfold fetchReg
  rw [Op.bind_of_ok (fetchByte_of_peekByte h)]
  simp only [regOfByte_id]
  rfl

/-! Relations that every operation keeps. -/

/-- The state an operation ends in, whether it completed or stopped. -/
def Op.final {α : Type} (op : Op α) (s : State) : State :=
  match op s with
  | .ok _ t => t
  | .error _ t => t

/-- The operation relates every state to the state it ends in. -/
def Op.Keeps {α : Type} (R : State → State → Prop) (op : Op α) : Prop := ∀ s, R s (op.final s)

/-- A reflexive and transitive relation that two operations keep, their sequence keeps. -/
theorem Op.Keeps.bind {α β : Type} {R : State → State → Prop} (htrans : ∀ a b c, R a b → R b c → R a c)
    {x : Op α} {f : α → Op β} (hx : x.Keeps R) (hf : ∀ a, (f a).Keeps R) : (x >>= f).Keeps R := by
  intro s
  have h1 := hx s
  unfold Op.final at h1 ⊢
  rw [Op.bind_apply]
  cases hxs : x s with
  | ok a t =>
    rw [hxs] at h1
    exact htrans _ _ _ h1 (hf a t)
  | error e t =>
    rw [hxs] at h1
    exact h1

theorem Op.Keeps.pure {α : Type} {R : State → State → Prop} (hrefl : ∀ s, R s s) (a : α) : (Pure.pure a : Op α).Keeps R :=
  fun s => hrefl s

theorem Op.Keeps.raise {α : Type} {R : State → State → Prop} (hrefl : ∀ s, R s s) (k : FaultKind) :
    (Machine.raise k : Op α).Keeps R := fun s => hrefl s

theorem Op.Keeps.getReg {R : State → State → Prop} (hrefl : ∀ s, R s s) (r : Reg) : (Machine.getReg r).Keeps R :=
  fun s => hrefl s

theorem Op.Keeps.getFs {R : State → State → Prop} (hrefl : ∀ s, R s s) : Machine.getFs.Keeps R := fun s => hrefl s

theorem Op.Keeps.getParams {R : State → State → Prop} (hrefl : ∀ s, R s s) : Machine.getParams.Keeps R := fun s => hrefl s

end Sys2Proof.Machine
end

