-- ==== Sys2Proof/Laws/PerInstr.lean ====
section
/-! SUPPORT. The layout of every instruction (R92, R94): its operand fields are of the kinds of its variant's shape, in that
order, and with the opcode byte they take as many bytes as the shape says, 1 to 5. -/

/-- Every shape takes 1 to 5 bytes (R92). -/
theorem Sys2Proof.Opcode.length_bounds (v : Sys2Proof.Opcode) : 1 ≤ v.shape.length ∧ v.shape.length ≤ 5 := by
  cases v <;> decide

namespace Sys2Proof.Laws.FieldLayout

/-- The operand fields of an instruction fit the shape of its variant. -/
def Statement (i : Instr) : Prop :=
  i.fields.map Field.kind = i.opcode.shape.fieldKinds ∧ 1 + (i.fields.flatMap Field.bytes).length = i.length
    ∧ 1 ≤ i.length ∧ i.length ≤ 5

theorem moveLitReg (lit : Word) (r : Reg) : Statement (.moveLitReg lit r) := ⟨rfl, rfl, Opcode.length_bounds _⟩
theorem moveRegReg (ra rb : Reg) : Statement (.moveRegReg ra rb) := ⟨rfl, rfl, Opcode.length_bounds _⟩
theorem moveRegMem (r : Reg) (addr : Word) : Statement (.moveRegMem r addr) := ⟨rfl, rfl, Opcode.length_bounds _⟩
theorem moveMemReg (addr : Word) (r : Reg) : Statement (.moveMemReg addr r) := ⟨rfl, rfl, Opcode.length_bounds _⟩
theorem moveLitMem (lit addr : Word) : Statement (.moveLitMem lit addr) := ⟨rfl, rfl, Opcode.length_bounds _⟩
theorem moveRegPtrReg (rp rd : Reg) : Statement (.moveRegPtrReg rp rd) := ⟨rfl, rfl, Opcode.length_bounds _⟩
theorem moveLitOffReg (lit : Word) (ro rd : Reg) : Statement (.moveLitOffReg lit ro rd) := ⟨rfl, rfl, Opcode.length_bounds _⟩
theorem addRegReg (ra rb : Reg) : Statement (.addRegReg ra rb) := ⟨rfl, rfl, Opcode.length_bounds _⟩
theorem addLitReg (lit : Word) (r : Reg) : Statement (.addLitReg lit r) := ⟨rfl, rfl, Opcode.length_bounds _⟩
theorem subLitReg (lit : Word) (r : Reg) : Statement (.subLitReg lit r) := ⟨rfl, rfl, Opcode.length_bounds _⟩
theorem subRegLit (r : Reg) (lit : Word) : Statement (.subRegLit r lit) := ⟨rfl, rfl, Opcode.length_bounds _⟩
theorem subRegReg (ra rb : Reg) : Statement (.subRegReg ra rb) := ⟨rfl, rfl, Opcode.length_bounds _⟩
theorem mulLitReg (lit : Word) (r : Reg) : Statement (.mulLitReg lit r) := ⟨rfl, rfl, Opcode.length_bounds _⟩
theorem mulRegReg (ra rb : Reg) : Statement (.mulRegReg ra rb) := ⟨rfl, rfl, Opcode.length_bounds _⟩
theorem incReg (r : Reg) : Statement (.incReg r) := ⟨rfl, rfl, Opcode.length_bounds _⟩
theorem decReg (r : Reg) : Statement (.decReg r) := ⟨rfl, rfl, Opcode.length_bounds _⟩
theorem leftShiftRegLit (r : Reg) (lit : Word) : Statement (.leftShiftRegLit r lit) := ⟨rfl, rfl, Opcode.length_bounds _⟩
theorem leftShiftRegReg (ra rb : Reg) : Statement (.leftShiftRegReg ra rb) := ⟨rfl, rfl, Opcode.length_bounds _⟩
theorem rightShiftRegLit (r : Reg) (lit : Word) : Statement (.rightShiftRegLit r lit) := ⟨rfl, rfl, Opcode.length_bounds _⟩
theorem rightShiftRegReg (ra rb : Reg) : Statement (.rightShiftRegReg ra rb) := ⟨rfl, rfl, Opcode.length_bounds _⟩
theorem andRegLit (r : Reg) (lit : Word) : Statement (.andRegLit r lit) := ⟨rfl, rfl, Opcode.length_bounds _⟩
theorem andRegReg (ra rb : Reg) : Statement (.andRegReg ra rb) := ⟨rfl, rfl, Opcode.length_bounds _⟩
theorem orRegLit (r : Reg) (lit : Word) : Statement (.orRegLit r lit) := ⟨rfl, rfl, Opcode.length_bounds _⟩
theorem orRegReg (ra rb : Reg) : Statement (.orRegReg ra rb) := ⟨rfl, rfl, Opcode.length_bounds _⟩
theorem xorRegLit (r : Reg) (lit : Word) : Statement (.xorRegLit r lit) := ⟨rfl, rfl, Opcode.length_bounds _⟩
theorem xorRegReg (ra rb : Reg) : Statement (.xorRegReg ra rb) := ⟨rfl, rfl, Opcode.length_bounds _⟩
theorem not (r : Reg) : Statement (.not r) := ⟨rfl, rfl, Opcode.length_bounds _⟩
theorem jumpNotEqReg (r : Reg) (addr : Word) : Statement (.jumpNotEqReg r addr) := ⟨rfl, rfl, Opcode.length_bounds _⟩
theorem jumpNotEqLit (lit addr : Word) : Statement (.jumpNotEqLit lit addr) := ⟨rfl, rfl, Opcode.length_bounds _⟩
theorem jumpEqReg (r : Reg) (addr : Word) : Statement (.jumpEqReg r addr) := ⟨rfl, rfl, Opcode.length_bounds _⟩
theorem jumpEqLit (lit addr : Word) : Statement (.jumpEqLit lit addr) := ⟨rfl, rfl, Opcode.length_bounds _⟩
theorem jumpLtReg (r : Reg) (addr : Word) : Statement (.jumpLtReg r addr) := ⟨rfl, rfl, Opcode.length_bounds _⟩
theorem jumpLtLit (lit addr : Word) : Statement (.jumpLtLit lit addr) := ⟨rfl, rfl, Opcode.length_bounds _⟩
theorem jumpGtReg (r : Reg) (addr : Word) : Statement (.jumpGtReg r addr) := ⟨rfl, rfl, Opcode.length_bounds _⟩
theorem jumpGtLit (lit addr : Word) : Statement (.jumpGtLit lit addr) := ⟨rfl, rfl, Opcode.length_bounds _⟩
theorem jumpLteReg (r : Reg) (addr : Word) : Statement (.jumpLteReg r addr) := ⟨rfl, rfl, Opcode.length_bounds _⟩
theorem jumpLteLit (lit addr : Word) : Statement (.jumpLteLit lit addr) := ⟨rfl, rfl, Opcode.length_bounds _⟩
theorem jumpGteReg (r : Reg) (addr : Word) : Statement (.jumpGteReg r addr) := ⟨rfl, rfl, Opcode.length_bounds _⟩
theorem jumpGteLit (lit addr : Word) : Statement (.jumpGteLit lit addr) := ⟨rfl, rfl, Opcode.length_bounds _⟩
theorem pushLit (lit : Word) : Statement (.pushLit lit) := ⟨rfl, rfl, Opcode.length_bounds _⟩
theorem pushReg (r : Reg) : Statement (.pushReg r) := ⟨rfl, rfl, Opcode.length_bounds _⟩
theorem pop (r : Reg) : Statement (.pop r) := ⟨rfl, rfl, Opcode.length_bounds _⟩
theorem callLit (addr : Word) : Statement (.callLit addr) := ⟨rfl, rfl, Opcode.length_bounds _⟩
theorem callReg (r : Reg) : Statement (.callReg r) := ⟨rfl, rfl, Opcode.length_bounds _⟩
theorem ret : Statement (.ret) := ⟨rfl, rfl, Opcode.length_bounds _⟩
theorem halt : Statement (.halt) := ⟨rfl, rfl, Opcode.length_bounds _⟩

end Sys2Proof.Laws.FieldLayout
end

