-- ==== Sys2Proof/Laws/Stack.lean ====
section
/-! SUPPORT. The addresses that runs of pushes and pops use, and what those runs do where a Memory or Register device holds
every word (R220, R221, R240, R244). -/

namespace Sys2Proof.Machine

/-- The k-th push from `a` writes at `a - 2k`. -/
theorem mem_pushAddresses {b a : Word} {n : Nat} :
    b ∈ pushAddresses a n ↔ ∃ k < n, b = a - BitVec.ofNat 16 (2 * k) := by
  induction n generalizing a with
  | zero => simp [pushAddresses]
  | succ n ih =>
    simp only [pushAddresses, List.mem_cons, ih]
    constructor
    · rintro (rfl | ⟨k, hk, rfl⟩)
      · exact ⟨0, by omega, by simp⟩
      · exact ⟨k + 1, by omega, by rw [Nat.mul_add, BitVec.ofNat_add]; bv_omega⟩
    · rintro ⟨k, hk, rfl⟩
      cases k with
      | zero => simp
      | succ k => exact .inr ⟨k, by omega, by rw [Nat.mul_add, BitVec.ofNat_add]; bv_omega⟩

/-- The k-th pop from `a` reads at `a + 2 + 2k`. -/
theorem mem_popAddresses {b a : Word} {n : Nat} :
    b ∈ popAddresses a n ↔ ∃ k < n, b = a + 2 + BitVec.ofNat 16 (2 * k) := by
  induction n generalizing a with
  | zero => simp [popAddresses]
  | succ n ih =>
    simp only [popAddresses, List.mem_cons, ih]
    constructor
    · rintro (rfl | ⟨k, hk, rfl⟩)
      · exact ⟨0, by omega, by simp⟩
      · exact ⟨k + 1, by omega, by rw [Nat.mul_add, BitVec.ofNat_add]; bv_omega⟩
    · rintro ⟨k, hk, rfl⟩
      cases k with
      | zero => simp
      | succ k => exact .inr ⟨k, by omega, by rw [Nat.mul_add, BitVec.ofNat_add]; bv_omega⟩

theorem pushAddresses_length (a : Word) (n : Nat) : (pushAddresses a n).length = n := by
  induction n generalizing a <;> simp [pushAddresses, *]

theorem popAddresses_length (a : Word) (n : Nat) : (popAddresses a n).length = n := by
  induction n generalizing a <;> simp [popAddresses, *]

/-- Words pushed by one run of at most 32768 pushes do not overlap. -/
theorem pushAddresses_apart {a : Word} {k : Nat} (h0 : 0 < k) (hk : 2 * k < 65536) :
    (a - BitVec.ofNat 16 (2 * k)).toNat + 1 < a.toNat ∨ a.toNat + 1 < (a - BitVec.ofNat 16 (2 * k)).toNat := by
  have ha := a.isLt
  rw [BitVec.toNat_sub, BitVec.toNat_ofNat, Nat.mod_eq_of_lt (by omega : 2 * k < 2 ^ 16)]
  omega

/-- Discarding `n` words (R244): Sp moves up and FS goes down by `2n`. -/
theorem popDiscard_of_hasShort (n : Nat) (s : State) (h : ∀ a ∈ popAddresses (s.reg .sp) n, s.hasShort a) :
    popDiscard n s
      = .ok () ((s.setReg .sp (s.reg .sp + BitVec.ofNat 16 (2 * n))).setFs (s.fs - BitVec.ofNat 16 (2 * n))) := by
  induction n generalizing s with
  | zero =>
    simp only [popDiscard, Op.pure_apply, Nat.mul_zero, BitVec.add_zero, BitVec.sub_zero,
      State.setReg_self]
    rfl
  | succ n ih =>
    simp only [popAddresses, List.mem_cons, forall_eq_or_imp] at h
    obtain ⟨v, hv⟩ := Option.isSome_iff_exists.mp h.1
    unfold popDiscard
    rw [Op.bind_of_ok (pop_of_peekShort hv), ih _ (by rw [State.reg_setFs, State.reg_setReg_same]; exact h.2)]
    have e1 : s.reg .sp + 2 + BitVec.ofNat 16 (2 * n) = s.reg .sp + BitVec.ofNat 16 (2 * (n + 1)) := by
      rw [Nat.mul_add, BitVec.ofNat_add]; bv_omega
    have e2 : s.fs - 2 - BitVec.ofNat 16 (2 * n) = s.fs - BitVec.ofNat 16 (2 * (n + 1)) := by
      rw [Nat.mul_add, BitVec.ofNat_add]; bv_omega
    simp only [State.reg_setFs, State.reg_setReg_same, State.fs_setFs, e1, e2]
    simp only [State.setReg, State.setFs, RegFile.set_set_same]

/-- What a run of pops into registers leaves: `ws` in the registers `rs`, Sp and FS moved by the words popped, nothing else
changed. -/
structure PoppedInto (rs : List Reg) (ws : List Word) (s t : State) : Prop where
  sp : t.reg .sp = s.reg .sp + BitVec.ofNat 16 (2 * rs.length)
  fs : t.fs = s.fs - BitVec.ofNat 16 (2 * rs.length)
  got : rs.map t.reg = ws
  others : ∀ q, q ∉ rs → q ≠ .sp → t.reg q = s.reg q
  runState : t.runState = s.runState
  mapper : t.mapper = s.mapper
  peripheralLog : t.peripheralLog = s.peripheralLog
  params : t.params = s.params

/-- Popping into different registers other than Sp, where the words stand in memory (R244). -/
theorem popRegs_of_peekShort (rs : List Reg) (ws : List Word) (s : State) (hn : rs.Nodup) (hsp : Reg.sp ∉ rs)
    (h : (popAddresses (s.reg .sp) rs.length).map s.peekShort = ws.map some) :
    ∃ t, popRegs rs s = .ok () t ∧ PoppedInto rs ws s t := by
  induction rs generalizing s ws with
  | nil =>
    cases ws with
    | nil => exact ⟨s, rfl, by simp, by simp, rfl, fun _ _ _ => rfl, rfl, rfl, rfl, rfl⟩
    | cons => simp [popAddresses] at h
  | cons r rs ih =>
    cases ws with
    | nil => simp [popAddresses] at h
    | cons w ws =>
      simp only [List.length_cons, popAddresses, List.map_cons, List.cons.injEq] at h
      simp only [List.nodup_cons, List.mem_cons, not_or] at hn hsp
      obtain ⟨t, ht, p⟩ := ih ws (((s.setReg .sp (s.reg .sp + 2)).setFs (s.fs - 2)).setReg r w) hn.2 hsp.2 (by
        rw [State.reg_setReg_other _ _ hsp.1, State.reg_setFs, State.reg_setReg_same]; exact h.2)
      refine ⟨t, ?_, ?_, ?_, ?_, ?_, p.runState, p.mapper, p.peripheralLog, p.params⟩
      · unfold popRegs
        rw [Op.bind_of_ok (pop_of_peekShort h.1)]
        exact ht
      · rw [p.sp, State.reg_setReg_other _ _ hsp.1, State.reg_setFs, State.reg_setReg_same, List.length_cons, Nat.mul_add,
          BitVec.ofNat_add]
        bv_omega
      · rw [p.fs, State.fs_setReg, State.fs_setFs, List.length_cons, Nat.mul_add, BitVec.ofNat_add]
        bv_omega
      · rw [List.map_cons, p.got, p.others r hn.1 (Ne.symm hsp.1), State.reg_setReg_same]
      · intro q hq hq'
        simp only [List.mem_cons, not_or] at hq
        rw [p.others q hq.2 hq', State.reg_setReg_other _ _ hq.1, State.reg_setFs, State.reg_setReg_other _ _ hq']

/-- The state after one push (R220). -/
def pushedState (v : Word) (s : State) : State :=
  ((s.after (.writeShort v) (s.reg .sp)).setReg .sp (s.reg .sp - 2)).setFs (s.fs + 2)

/-- What a run of pushes of `vs` leaves: the words below Sp, Sp and FS moved by them, nothing else changed. -/
structure PushedWords (vs : List Word) (s t : State) : Prop where
  sp : t.reg .sp = s.reg .sp - BitVec.ofNat 16 (2 * vs.length)
  fs : t.fs = s.fs + BitVec.ofNat 16 (2 * vs.length)
  others : ∀ q, q ≠ .sp → t.reg q = s.reg q
  words : (pushAddresses (s.reg .sp) vs.length).map t.peekShort = vs.map some
  bytes : ∀ b : Word, (∀ a ∈ pushAddresses (s.reg .sp) vs.length, b.toNat ≠ a.toNat ∧ b.toNat ≠ a.toNat + 1) →
    t.peekByte b = s.peekByte b
  shorts : ∀ b : Word, (∀ a ∈ pushAddresses (s.reg .sp) vs.length, b.toNat + 1 < a.toNat ∨ a.toNat + 1 < b.toNat) →
    t.peekShort b = s.peekShort b
  hasShort : ∀ b, t.hasShort b ↔ s.hasShort b
  inv : t.Inv
  shape : t.mapper.shape = s.mapper.shape
  runState : t.runState = s.runState
  peripheralLog : t.peripheralLog = s.peripheralLog
  params : t.params = s.params

theorem PushedWords.nil {s : State} (h : s.Inv) : PushedWords [] s s where
  sp := by simp
  fs := by simp
  others _ _ := rfl
  words := rfl
  bytes _ _ := rfl
  shorts _ _ := rfl
  hasShort _ := Iff.rfl
  inv := h
  shape := rfl
  runState := rfl
  peripheralLog := rfl
  params := rfl

/-- One push and then a run of pushes. -/
theorem PushedWords.cons {v : Word} {vs : List Word} {s t : State} (hl : 2 * (vs.length + 1) ≤ 65536) (hi : s.Inv)
    (h : s.hasShort (s.reg .sp)) (p : PushedWords vs (pushedState v s) t) : PushedWords (v :: vs) s t where
  sp := by
    rw [p.sp, pushedState, State.reg_setFs, State.reg_setReg_same, List.length_cons, Nat.mul_add, BitVec.ofNat_add]
    bv_omega
  fs := by
    rw [p.fs, pushedState, State.fs_setFs, List.length_cons, Nat.mul_add, BitVec.ofNat_add]
    bv_omega
  others q hq := by
    rw [p.others q hq, pushedState, State.reg_setFs, State.reg_setReg_other _ _ hq]
    rfl
  words := by
    have hw := p.words
    have hs := p.shorts
    rw [pushedState, State.reg_setFs, State.reg_setReg_same] at hw hs
    simp only [List.length_cons, pushAddresses, List.map_cons]
    rw [hw, hs]
    · exact congrArg (· :: vs.map some) (State.peekShort_after_same hi v h)
    · intro a ha
      obtain ⟨k, hk, rfl⟩ := mem_pushAddresses.mp ha
      have := pushAddresses_apart (a := s.reg .sp) (k := k + 1) (by omega) (by omega)
      rw [show s.reg .sp - 2 - BitVec.ofNat 16 (2 * k) = s.reg .sp - BitVec.ofNat 16 (2 * (k + 1)) by
        rw [Nat.mul_add, BitVec.ofNat_add]; bv_omega]
      omega
  bytes b hb := by
    simp only [List.length_cons, pushAddresses, List.mem_cons, forall_eq_or_imp] at hb
    rw [p.bytes b (by rw [pushedState, State.reg_setFs, State.reg_setReg_same]; exact hb.2)]
    exact State.peekByte_after_other s v hb.1.1 hb.1.2
  shorts b hb := by
    simp only [List.length_cons, pushAddresses, List.mem_cons, forall_eq_or_imp] at hb
    rw [p.shorts b (by rw [pushedState, State.reg_setFs, State.reg_setReg_same]; exact hb.2)]
    exact State.peekShort_after_other s v hb.1
  hasShort b := (p.hasShort b).trans (State.hasShort_after s _ _ b)
  inv := p.inv
  shape := p.shape.trans (Mapper.shape_after _ _ _ _)
  runState := p.runState
  peripheralLog := p.peripheralLog
  params := p.params

/-- Pushing registers other than Sp, where every word below Sp can be written (R240). -/
theorem pushRegs_of_hasShort (rs : List Reg) (s : State) (hi : s.Inv) (hl : 2 * rs.length ≤ 65536) (hsp : Reg.sp ∉ rs)
    (h : ∀ a ∈ pushAddresses (s.reg .sp) rs.length, s.hasShort a) :
    ∃ t, pushRegs rs s = .ok () t ∧ PushedWords (rs.map s.reg) s t := by
  induction rs generalizing s with
  | nil => exact ⟨s, rfl, .nil hi⟩
  | cons r rs ih =>
    simp only [List.length_cons, pushAddresses, List.mem_cons, forall_eq_or_imp, not_or] at h hl hsp
    obtain ⟨t, ht, p⟩ := ih (pushedState (s.reg r) s) (State.after_inv hi _ _) (by omega) hsp.2 fun a ha => by
      rw [pushedState, State.reg_setFs, State.reg_setReg_same] at ha
      exact (State.hasShort_after s _ _ a).mpr (h.2 a ha)
    have hregs : rs.map (pushedState (s.reg r) s).reg = rs.map s.reg := List.map_congr_left fun q hq => by
      rw [pushedState, State.reg_setFs, State.reg_setReg_other _ _ (by rintro rfl; exact hsp.2 hq)]
      rfl
    refine ⟨t, ?_, ?_⟩
    · unfold pushRegs
      simp only [getReg_bind]
      rw [Op.bind_of_ok (push_of_hasShort (s.reg r) h.1)]
      exact ht
    · rw [hregs] at p
      exact .cons (by rw [List.length_map]; omega) hi h.1 p

/-- Wherever a push completes, in memory or in a peripheral: Sp is 2 less, FS 2 more, every other register as before. -/
theorem push_ok_frame {v : Word} {s t : State} (h : push v s = .ok () t) :
    t.reg .sp = s.reg .sp - 2 ∧ t.fs = s.fs + 2 ∧ ∀ q, q ≠ .sp → t.reg q = s.reg q := by
  unfold push memWriteShort at h
  simp only [getReg_bind] at h
  rw [Op.bind_apply, Op.bind_apply] at h
  have hb : ∀ w u, busAccess (.writeShort v) (s.reg .sp) s = .ok w u → (∀ q, u.reg q = s.reg q) ∧ u.fs = s.fs := by
    intro w u hu
    rcases busAccess_cases (.writeShort v) (s.reg .sp) s with ⟨_, _, e⟩ | ⟨_, e⟩ | ⟨_, e⟩ | ⟨_, _, _, e⟩ <;> rw [e] at hu
    · cases hu; exact ⟨fun _ => rfl, rfl⟩
    · cases hu
    · cases hu
    · unfold askPeripheral at hu; split at hu <;> cases hu; exact ⟨fun _ => rfl, rfl⟩
  cases hx : busAccess (.writeShort v) (s.reg .sp) s with
  | ok w u =>
    rw [hx] at h
    obtain ⟨hregs, hfs⟩ := hb w u hx
    simp only [Op.pure_apply] at h
    cases h
    exact ⟨by simp [hregs], by simp [hfs], fun q hq => by simp [hq, hregs]⟩
  | error =>
    rw [hx] at h
    cases h

end Sys2Proof.Machine
end

