-- ==== Sys2Proof/Laws/Step.lean ====
section
/-! SUPPORT. What a step can do, said once: a reflexive and transitive relation that the primitive updates keep (a register
written, FS written, a fault entered, a bus access), every operation, every instruction and every step keeps. An
invariant or a frame of the whole machine is one such relation. -/

namespace Sys2Proof.Machine

/-- A bus access keeps a relation that its two effects keep: the device that answers is updated, or a peripheral receives the
request. -/
theorem busAccess_keeps {R : State → State → Prop} (hrefl : ∀ s, R s s) {op : BusOp} (hafter : ∀ s a, R s (s.after op a))
    (hlog : ∀ s h l, R s (s.logRequest ⟨h, l, op⟩)) (a : Word) : (busAccess op a).Keeps R := by
  intro s
  unfold Op.final
  rcases busAccess_cases op a s with ⟨v, h, e⟩ | ⟨h, e⟩ | ⟨h, e⟩ | ⟨hd, l, h, e⟩ <;> rw [e]
  · exact hafter s a
  · exact hrefl s
  · exact hafter s a
  · unfold askPeripheral peripheralRequest
    split <;> rename_i heq <;> split at heq <;> cases heq <;> exact hlog s hd l

/-- An operation that keeps a relation, finished: so does its outcome, if entering a fault does. -/
theorem finish_keeps {R : State → State → Prop} (htrans : ∀ a b c, R a b → R b c → R a c)
    (hfault : ∀ s k, R s (s.enterFault k)) {op : Op Unit} (h : op.Keeps R) {s t : State} (he : finish op s = .next t) :
    R s t := by
  have h1 := h s
  unfold Op.final at h1
  rcases finish_cases op s with ⟨u, hu, e⟩ | ⟨k, u, hu, e⟩ | ⟨a, u, hu, e⟩ <;> rw [e] at he <;> rw [hu] at h1 <;> cases he
  · exact h1
  · exact htrans _ _ _ h1 (hfault _ _)

section

variable {R : State → State → Prop} (hrefl : ∀ s, R s s) (htrans : ∀ a b c, R a b → R b c → R a c)
  (hreg : ∀ s r v, R s (s.setReg r v)) (hfs : ∀ s v, R s (s.setFs v)) (hfault : ∀ s k, R s (s.enterFault k))
  (hrb : ∀ a, (busAccess .readByte a).Keeps R) (hrs : ∀ a, (busAccess .readShort a).Keeps R)
  (hws : ∀ a v, (busAccess (.writeShort v) a).Keeps R)

include hreg in
theorem Op.Keeps.setReg (r : Reg) (v : Word) : (Machine.setReg r v).Keeps R := fun s => hreg s r v

include hfs in
theorem Op.Keeps.setFs (v : Word) : (Machine.setFs v).Keeps R := fun s => hfs s v

include hrefl htrans

include hrb in
theorem Op.Keeps.memReadByte (a : Word) : (Machine.memReadByte a).Keeps R :=
  .bind htrans (hrb a) fun _ => .pure hrefl _

include hws in
theorem Op.Keeps.memWriteShort (a v : Word) : (Machine.memWriteShort a v).Keeps R :=
  .bind htrans (hws a v) fun _ => .pure hrefl _

include hreg hrb in
theorem Op.Keeps.fetchByte : Machine.fetchByte.Keeps R :=
  .bind htrans (.getReg hrefl _) fun _ => .bind htrans (.memReadByte hrefl htrans hrb _) fun _ =>
    .bind htrans (.getReg hrefl _) fun _ => .bind htrans (.setReg hreg _ _) fun _ => .pure hrefl _

include hreg hrs in
theorem Op.Keeps.fetchShort : Machine.fetchShort.Keeps R :=
  .bind htrans (.getReg hrefl _) fun _ => .bind htrans (hrs _) fun _ =>
    .bind htrans (.getReg hrefl _) fun _ => .bind htrans (.setReg hreg _ _) fun _ => .pure hrefl _

include hreg hrb in
theorem Op.Keeps.fetchReg : Machine.fetchReg.Keeps R := by
  refine .bind htrans (.fetchByte hrefl htrans hreg hrb) fun b => ?_
  cases regOfByte b with
  | some r => exact .pure hrefl _
  | none => exact .bind htrans (.getReg hrefl _) fun _ => .raise hrefl _

include hreg hrb hrs in
theorem Op.Keeps.readOperands (v : Opcode) :
    (Sys2Proof.readOperands ⟨Machine.fetchReg, Machine.fetchShort⟩ v).Keeps R := by
  have hr : Machine.fetchReg.Keeps R := .fetchReg hrefl htrans hreg hrb
  have hs : Machine.fetchShort.Keeps R := .fetchShort hrefl htrans hreg hrs
  have hp : ∀ i : Instr, (Pure.pure i : Op Instr).Keeps R := fun i => .pure hrefl i
  have h1 : ∀ mk, (readReg ⟨Machine.fetchReg, Machine.fetchShort⟩ mk).Keeps R :=
    fun _ => .bind htrans hr fun _ => hp _
  have h2 : ∀ mk, (readShort ⟨Machine.fetchReg, Machine.fetchShort⟩ mk).Keeps R :=
    fun _ => .bind htrans hs fun _ => hp _
  have h3 : ∀ mk, (readShortReg ⟨Machine.fetchReg, Machine.fetchShort⟩ mk).Keeps R :=
    fun _ => .bind htrans hs fun _ => .bind htrans hr fun _ => hp _
  have h4 : ∀ mk, (readRegReg ⟨Machine.fetchReg, Machine.fetchShort⟩ mk).Keeps R :=
    fun _ => .bind htrans hr fun _ => .bind htrans hr fun _ => hp _
  have h5 : ∀ mk, (readRegShort ⟨Machine.fetchReg, Machine.fetchShort⟩ mk).Keeps R :=
    fun _ => .bind htrans hr fun _ => .bind htrans hs fun _ => hp _
  have h6 : ∀ mk, (readShortShort ⟨Machine.fetchReg, Machine.fetchShort⟩ mk).Keeps R :=
    fun _ => .bind htrans hs fun _ => .bind htrans hs fun _ => hp _
  have h7 : ∀ mk, (readShortRegReg ⟨Machine.fetchReg, Machine.fetchShort⟩ mk).Keeps R :=
    fun _ => .bind htrans hs fun _ => .bind htrans hr fun _ => .bind htrans hr fun _ => hp _
  cases v <;> first | exact h1 _ | exact h2 _ | exact h3 _ | exact h4 _ | exact h5 _ | exact h6 _ | exact h7 _ | exact hp _

include hreg hrb hrs in
theorem Op.Keeps.fetchInstr : Machine.fetchInstr.Keeps R := by
  refine .bind htrans (.getReg hrefl _) fun _ => .bind htrans (.fetchByte hrefl htrans hreg hrb) fun b =>
    .bind htrans (.getParams hrefl) fun p => ?_
  cases p.opcodeMap.variantOf b with
  | some v => exact .readOperands hrefl htrans hreg hrb hrs _
  | none => exact .raise hrefl _

include hreg hfs hws in
theorem Op.Keeps.push (v : Word) : (Machine.push v).Keeps R :=
  .bind htrans (.getReg hrefl _) fun _ => .bind htrans (.memWriteShort hrefl htrans hws _ _) fun _ =>
    .bind htrans (.getReg hrefl _) fun _ => .bind htrans (.setReg hreg _ _) fun _ =>
      .bind htrans (.getFs hrefl) fun _ => .setFs hfs _

include hreg hfs hrs in
theorem Op.Keeps.pop : Machine.pop.Keeps R :=
  .bind htrans (.getReg hrefl _) fun _ => .bind htrans (.setReg hreg _ _) fun _ => .bind htrans (.getFs hrefl) fun _ =>
    .bind htrans (.setFs hfs _) fun _ => .bind htrans (.getReg hrefl _) fun _ => hrs _

include hreg hfs hws in
theorem Op.Keeps.pushRegs (rs : List Reg) : (Machine.pushRegs rs).Keeps R := by
  induction rs with
  | nil => exact .pure hrefl _
  | cons r rs ih =>
    exact .bind htrans (.getReg hrefl _) fun _ => .bind htrans (.push hrefl htrans hreg hfs hws _) fun _ => ih

include hreg hfs hrs in
theorem Op.Keeps.popRegs (rs : List Reg) : (Machine.popRegs rs).Keeps R := by
  induction rs with
  | nil => exact .pure hrefl _
  | cons r rs ih =>
    exact .bind htrans (.pop hrefl htrans hreg hfs hrs) fun _ => .bind htrans (.setReg hreg _ _) fun _ => ih

include hreg hfs hrs in
theorem Op.Keeps.popDiscard (n : Nat) : (Machine.popDiscard n).Keeps R := by
  induction n with
  | zero => exact .pure hrefl _
  | succ n ih => exact .bind htrans (.pop hrefl htrans hreg hfs hrs) fun _ => ih

include hreg hfs hws in
theorem Op.Keeps.pushState : Machine.pushState.Keeps R :=
  .bind htrans (.pushRegs hrefl htrans hreg hfs hws _) fun _ => .bind htrans (.getReg hrefl _) fun _ =>
    .bind htrans (.push hrefl htrans hreg hfs hws _) fun _ => .bind htrans (.getFs hrefl) fun _ =>
      .bind htrans (.push hrefl htrans hreg hfs hws _) fun _ => .bind htrans (.getReg hrefl _) fun _ =>
        .bind htrans (.setReg hreg _ _) fun _ => .setFs hfs _

include hreg hfs hrs in
theorem Op.Keeps.popState : Machine.popState.Keeps R :=
  .bind htrans (.getReg hrefl _) fun _ => .bind htrans (.setReg hreg _ _) fun _ =>
    .bind htrans (.pop hrefl htrans hreg hfs hrs) fun _ => .bind htrans (.setFs hfs _) fun _ =>
      .bind htrans (.pop hrefl htrans hreg hfs hrs) fun _ => .bind htrans (.setReg hreg _ _) fun _ =>
        .bind htrans (.popRegs hrefl htrans hreg hfs hrs _) fun _ =>
          .bind htrans (.pop hrefl htrans hreg hfs hrs) fun _ =>
            .bind htrans (.popDiscard hrefl htrans hreg hfs hrs _) fun _ => .bind htrans (.getParams hrefl) fun _ =>
              .bind htrans (.getFs hrefl) fun _ => .setReg hreg _ _

end

/-- A jump either writes Ip or changes nothing (R191). -/
theorem jumpIf_apply (c : Cond) (v addr : Word) (s : State) :
    jumpIf c v addr s
      = .ok () (if jumpCond s.params.orientation c v (s.reg .acc) then s.setReg .ip addr else s) := by
  unfold jumpIf
  simp only [getParams_bind, getReg_bind]
  split <;> rfl

/-- Arithmetic, bitwise and jump instructions write one register or nothing (R150, R170, R191). -/
theorem exec_registers_keeps {R : State → State → Prop} (hrefl : ∀ s, R s s) (hreg : ∀ s r v, R s (s.setReg r v))
    {i : Instr} {s t : State}
    (hi : i.opcode ∈ Opcode.arithmeticOpcodes ++ Opcode.bitwiseOpcodes ++ Opcode.jumpOpcodes) (h : exec i s = .next t) :
    R s t := by
  have hj : ∀ c v addr, finish (jumpIf c v addr) s = .next t → R s t := by
    intro c v addr h
    rw [finish_of_ok (jumpIf_apply c v addr s)] at h
    cases h
    split
    · exact hreg _ _ _
    · exact hrefl _
  have hjr : ∀ c r addr, finish (jumpIfReg c r addr) s = .next t → R s t := fun c r addr h => hj c (s.reg r) addr h
  cases i <;> first
    | exact hj _ _ _ h
    | exact hjr _ _ _ h
    | exact absurd hi (by simp only [Instr.opcode]; decide)
    | (cases h; exact hreg _ _ _)

/-- What the execution of an instruction can do: its next state is reached by register writes, 2-byte reads, a fault, and, where
its variant is one that may, by writes of FS, 2-byte writes, or Halt. -/
theorem exec_keeps {R : State → State → Prop} (hrefl : ∀ s, R s s) (htrans : ∀ a b c, R a b → R b c → R a c)
    (hreg : ∀ s r v, R s (s.setReg r v)) (hfault : ∀ s k, R s (s.enterFault k))
    (hrs : ∀ a, (busAccess .readShort a).Keeps R) {i : Instr}
    (hfs : i.opcode ∈ Opcode.stackOpcodes ++ Opcode.callOpcodes → ∀ s v, R s (s.setFs v))
    (hws : i.opcode ∈ [Opcode.moveRegMem, .moveLitMem, .pushLit, .pushReg, .callLit, .callReg] →
      ∀ a v, (busAccess (.writeShort v) a).Keeps R)
    (hhalt : i = .halt → ∀ s, R s (s.setRun .halted)) {s t : State} (h : exec i s = .next t) : R s t := by
  cases i with
  | moveLitReg lit r =>
    exact finish_keeps htrans hfault (op := setReg r lit)
      (.setReg hreg _ _) h
  | moveRegReg ra rb =>
    exact finish_keeps htrans hfault (op := do setReg rb (← getReg ra))
      (.bind htrans (.getReg hrefl _) fun _ => .setReg hreg _ _) h
  | moveRegMem r addr =>
    have hw := hws (by rw [Instr.opcode]; decide)
    exact finish_keeps htrans hfault (op := do memWriteShort addr (← getReg r))
      (.bind htrans (.getReg hrefl _) fun _ => .memWriteShort hrefl htrans hw _ _) h
  | moveMemReg addr r =>
    exact finish_keeps htrans hfault (op := do setReg r (← memReadShort addr))
      (.bind htrans (hrs _) fun _ => .setReg hreg _ _) h
  | moveLitMem lit addr =>
    have hw := hws (by rw [Instr.opcode]; decide)
    exact finish_keeps htrans hfault (op := memWriteShort addr lit)
      (.memWriteShort hrefl htrans hw _ _) h
  | moveRegPtrReg rp rd =>
    exact finish_keeps htrans hfault (op := do setReg rd (← memReadShort (← pointerAddress rp)))
      (.bind htrans (.getReg hrefl _) fun _ => .bind htrans (hrs _) fun _ => .setReg hreg _ _) h
  | moveLitOffReg lit ro rd =>
    exact finish_keeps htrans hfault (op := do setReg rd (← memReadShort (← offsetAddress lit ro)))
      (.bind htrans (.bind htrans (.getReg hrefl _) fun _ => .pure hrefl _) fun _ => .bind htrans (hrs _) fun _ =>
        .setReg hreg _ _) h
  | addRegReg ra rb => exact exec_registers_keeps hrefl hreg (by rw [Instr.opcode]; decide) h
  | addLitReg lit r => exact exec_registers_keeps hrefl hreg (by rw [Instr.opcode]; decide) h
  | subLitReg lit r => exact exec_registers_keeps hrefl hreg (by rw [Instr.opcode]; decide) h
  | subRegLit r lit => exact exec_registers_keeps hrefl hreg (by rw [Instr.opcode]; decide) h
  | subRegReg ra rb => exact exec_registers_keeps hrefl hreg (by rw [Instr.opcode]; decide) h
  | mulLitReg lit r => exact exec_registers_keeps hrefl hreg (by rw [Instr.opcode]; decide) h
  | mulRegReg ra rb => exact exec_registers_keeps hrefl hreg (by rw [Instr.opcode]; decide) h
  | incReg r => exact exec_registers_keeps hrefl hreg (by rw [Instr.opcode]; decide) h
  | decReg r => exact exec_registers_keeps hrefl hreg (by rw [Instr.opcode]; decide) h
  | leftShiftRegLit r lit => exact exec_registers_keeps hrefl hreg (by rw [Instr.opcode]; decide) h
  | leftShiftRegReg ra rb => exact exec_registers_keeps hrefl hreg (by rw [Instr.opcode]; decide) h
  | rightShiftRegLit r lit => exact exec_registers_keeps hrefl hreg (by rw [Instr.opcode]; decide) h
  | rightShiftRegReg ra rb => exact exec_registers_keeps hrefl hreg (by rw [Instr.opcode]; decide) h
  | andRegLit r lit => exact exec_registers_keeps hrefl hreg (by rw [Instr.opcode]; decide) h
  | andRegReg ra rb => exact exec_registers_keeps hrefl hreg (by rw [Instr.opcode]; decide) h
  | orRegLit r lit => exact exec_registers_keeps hrefl hreg (by rw [Instr.opcode]; decide) h
  | orRegReg ra rb => exact exec_registers_keeps hrefl hreg (by rw [Instr.opcode]; decide) h
  | xorRegLit r lit => exact exec_registers_keeps hrefl hreg (by rw [Instr.opcode]; decide) h
  | xorRegReg ra rb => exact exec_registers_keeps hrefl hreg (by rw [Instr.opcode]; decide) h
  | not r => exact exec_registers_keeps hrefl hreg (by rw [Instr.opcode]; decide) h
  | jumpNotEqReg r addr => exact exec_registers_keeps hrefl hreg (by rw [Instr.opcode]; decide) h
  | jumpNotEqLit lit addr => exact exec_registers_keeps hrefl hreg (by rw [Instr.opcode]; decide) h
  | jumpEqReg r addr => exact exec_registers_keeps hrefl hreg (by rw [Instr.opcode]; decide) h
  | jumpEqLit lit addr => exact exec_registers_keeps hrefl hreg (by rw [Instr.opcode]; decide) h
  | jumpLtReg r addr => exact exec_registers_keeps hrefl hreg (by rw [Instr.opcode]; decide) h
  | jumpLtLit lit addr => exact exec_registers_keeps hrefl hreg (by rw [Instr.opcode]; decide) h
  | jumpGtReg r addr => exact exec_registers_keeps hrefl hreg (by rw [Instr.opcode]; decide) h
  | jumpGtLit lit addr => exact exec_registers_keeps hrefl hreg (by rw [Instr.opcode]; decide) h
  | jumpLteReg r addr => exact exec_registers_keeps hrefl hreg (by rw [Instr.opcode]; decide) h
  | jumpLteLit lit addr => exact exec_registers_keeps hrefl hreg (by rw [Instr.opcode]; decide) h
  | jumpGteReg r addr => exact exec_registers_keeps hrefl hreg (by rw [Instr.opcode]; decide) h
  | jumpGteLit lit addr => exact exec_registers_keeps hrefl hreg (by rw [Instr.opcode]; decide) h
  | pushLit lit =>
    have hw := hws (by rw [Instr.opcode]; decide)
    have hf := hfs (by rw [Instr.opcode]; decide)
    exact finish_keeps htrans hfault (op := push lit)
      (.push hrefl htrans hreg hf hw _) h
  | pushReg r =>
    have hw := hws (by rw [Instr.opcode]; decide)
    have hf := hfs (by rw [Instr.opcode]; decide)
    exact finish_keeps htrans hfault (op := do push (← getReg r))
      (.bind htrans (.getReg hrefl _) fun _ => .push hrefl htrans hreg hf hw _) h
  | pop r =>
    have hf := hfs (by rw [Instr.opcode]; decide)
    exact finish_keeps htrans hfault (op := do setReg r (← pop))
      (.bind htrans (.pop hrefl htrans hreg hf hrs) fun _ => .setReg hreg _ _) h
  | callLit addr =>
    have hw := hws (by rw [Instr.opcode]; decide)
    have hf := hfs (by rw [Instr.opcode]; decide)
    exact finish_keeps htrans hfault (op := do pushState; setReg .ip addr)
      (.bind htrans (.pushState hrefl htrans hreg hf hw) fun _ => .setReg hreg _ _) h
  | callReg r =>
    have hw := hws (by rw [Instr.opcode]; decide)
    have hf := hfs (by rw [Instr.opcode]; decide)
    exact finish_keeps htrans hfault (op := do let addr ← getReg r; pushState; setReg .ip addr)
      (.bind htrans (.getReg hrefl _) fun _ => .bind htrans (.pushState hrefl htrans hreg hf hw) fun _ => .setReg
        hreg _ _) h
  | ret =>
    have hf := hfs (by rw [Instr.opcode]; decide)
    exact finish_keeps htrans hfault (op := popState)
      (.popState hrefl htrans hreg hf hrs) h
  | halt => cases h; exact hhalt rfl s

/-- What a step can do: its next state is reached by register and FS writes, byte and 2-byte reads, 2-byte writes, a fault, and
Halt. -/
theorem step_keeps {R : State → State → Prop} (hrefl : ∀ s, R s s) (htrans : ∀ a b c, R a b → R b c → R a c)
    (hreg : ∀ s r v, R s (s.setReg r v)) (hfs : ∀ s v, R s (s.setFs v)) (hfault : ∀ s k, R s (s.enterFault k))
    (hhalt : ∀ s, R s (s.setRun .halted)) (hrb : ∀ a, (busAccess .readByte a).Keeps R)
    (hrs : ∀ a, (busAccess .readShort a).Keeps R) (hws : ∀ a v, (busAccess (.writeShort v) a).Keeps R) {s t : State}
    (h : step s = .next t) : R s t := by
  unfold step at h
  cases hr : s.runState <;> rw [hr] at h <;> simp only at h
  · have hk := Op.Keeps.fetchInstr hrefl htrans hreg hrb hrs s
    unfold Op.final at hk
    cases hf : fetchInstr s with
    | ok i u =>
      rw [hf] at h hk
      exact htrans _ _ _ hk (exec_keeps hrefl htrans hreg hfault hrs (fun _ => hfs) (fun _ => hws) (fun _ => hhalt) h)
    | error e u =>
      rw [hf] at h hk
      cases e with
      | fault k => cases h; exact htrans _ _ _ hk (hfault _ _)
      | hang a => cases h
  · cases h; exact hrefl _
  · cases h; exact hrefl _

end Sys2Proof.Machine
end

