-- ==== Sys2Proof/Tests/Slice0.lean ====
section
/-! SUPPORT. The model's own tests. Expected results are the spec's: words written out from the formats of 30_encoding.md R94
and R98, vectors of 95_test_vectors.md (named in each comment), and, after them, a state for every statement that has
hypotheses. -/

open Sys2Proof Sys2Proof.Machine

namespace Sys2Proof.Tests

set_option Elab.async false

/-! Well-formedness: each check refuses an ill-formed term. -/

/-- R100: a map that gives two variants one byte. -/
theorem test_wf_refuses_shared_opcode_byte :
    OpcodeMap.wf (Opcode.all.map (fun v => (v, (0x10 : Byte)))) = false := by decide +kernel

/-- R100: a map without a byte for Halt. -/
theorem test_wf_refuses_partial_opcode_map : OpcodeMap.wf (OpcodeMap.reference.take 45) = false := by decide +kernel

/-- R100: a map with a second byte for a variant. -/
theorem test_wf_refuses_second_byte : OpcodeMap.wf ((.halt, 0x00) :: OpcodeMap.reference) = false := by decide +kernel

/-- Without a byte for Halt, Halt cannot be encoded. -/
theorem test_wf_refuses_instruction_without_byte :
    Instr.wf (OpcodeMap.reference.take 45) .halt = false ∧ Instr.wf OpcodeMap.reference .halt = true := by
  decide +kernel

theorem test_wf_refuses_unsorted_memory : ¬ Memory.wf [(5, 0x01), (4, 0x01)] := by decide +kernel

theorem test_wf_refuses_zero_cell : ¬ Memory.wf [(5, 0x00)] := by decide +kernel

/-- R53: capacities 0 and 0x10001, and a byte at the capacity. -/
theorem test_wf_refuses_device :
    Device.wf (.memory 0 []) = false ∧ Device.wf (.memory 0x10001 []) = false ∧ Device.wf (.memory 4 [(4, 0x01)]) = false
      ∧ Device.wf (.register [(2, 0x01)]) = false ∧ Device.wf (.memory 1 []) = true
      ∧ Device.wf (.memory 0x10000 []) = true := by decide +kernel

/-- R59: an empty region, at the top level and in a composite. -/
theorem test_wf_refuses_empty_region :
    Mapper.wf (.device 1 0 (.register []) .nil) = false
      ∧ Mapper.wf (.composite 0 9 (.device 1 0 (.register []) .nil) .nil) = false
      ∧ Mapper.wf (.device 0 0 (.register []) .nil) = true := by decide +kernel

/-! Decoding and encoding: one word per constructor. -/

/-- The word decodes to the instruction, and the instruction encodes as the word. -/
abbrev isWordOf (bs : List Byte) (i : Instr) : Prop :=
  decode OpcodeMap.reference bs = .ok (i, []) ∧ encode OpcodeMap.reference i = some bs

theorem test_decode_moveLitReg : isWordOf [0x10, 0x12, 0x34, 0x02] (.moveLitReg 0x1234 .r1) := by decide +kernel
theorem test_decode_moveRegReg : isWordOf [0x11, 0x00, 0x02] (.moveRegReg .ip .r1) := by decide +kernel
theorem test_decode_moveRegMem : isWordOf [0x12, 0x02, 0x01, 0x00] (.moveRegMem .r1 0x0100) := by decide +kernel
theorem test_decode_moveMemReg : isWordOf [0x13, 0x01, 0x01, 0x02] (.moveMemReg 0x0101 .r1) := by decide +kernel
theorem test_decode_moveLitMem : isWordOf [0x1B, 0x12, 0x34, 0x00, 0x0B] (.moveLitMem 0x1234 0x000B) := by
  decide +kernel
theorem test_decode_moveRegPtrReg : isWordOf [0x1C, 0x0A, 0x02] (.moveRegPtrReg .sp .r1) := by decide +kernel
theorem test_decode_moveLitOffReg : isWordOf [0x1D, 0xFF, 0xFF, 0x02, 0x03] (.moveLitOffReg 0xFFFF .r1 .r2) := by
  decide +kernel
theorem test_decode_addRegReg : isWordOf [0x14, 0x02, 0x03] (.addRegReg .r1 .r2) := by decide +kernel
theorem test_decode_addLitReg : isWordOf [0x3F, 0xFF, 0xFE, 0x02] (.addLitReg 0xFFFE .r1) := by decide +kernel
theorem test_decode_subLitReg : isWordOf [0x16, 0x00, 0x01, 0x02] (.subLitReg 0x0001 .r1) := by decide +kernel
theorem test_decode_subRegLit : isWordOf [0x1E, 0x02, 0x0F, 0x01] (.subRegLit .r1 0x0F01) := by decide +kernel
theorem test_decode_subRegReg : isWordOf [0x1F, 0x02, 0x03] (.subRegReg .r1 .r2) := by decide +kernel
theorem test_decode_mulLitReg : isWordOf [0x20, 0x01, 0x00, 0x02] (.mulLitReg 0x0100 .r1) := by decide +kernel
theorem test_decode_mulRegReg : isWordOf [0x21, 0x02, 0x03] (.mulRegReg .r1 .r2) := by decide +kernel
theorem test_decode_incReg : isWordOf [0x35, 0x0A] (.incReg .sp) := by decide +kernel
theorem test_decode_decReg : isWordOf [0x36, 0x0B] (.decReg .fp) := by decide +kernel
theorem test_decode_leftShiftRegLit : isWordOf [0x26, 0x02, 0x00, 0x0F] (.leftShiftRegLit .r1 0x000F) := by
  decide +kernel
theorem test_decode_leftShiftRegReg : isWordOf [0x27, 0x08, 0x07] (.leftShiftRegReg .r7 .r6) := by decide +kernel
theorem test_decode_rightShiftRegLit : isWordOf [0x2A, 0x03, 0x00, 0x08] (.rightShiftRegLit .r2 0x0008) := by
  decide +kernel
theorem test_decode_rightShiftRegReg : isWordOf [0x2B, 0x02, 0x03] (.rightShiftRegReg .r1 .r2) := by decide +kernel
theorem test_decode_andRegLit : isWordOf [0x2E, 0x02, 0x0F, 0x0E] (.andRegLit .r1 0x0F0E) := by decide +kernel
theorem test_decode_andRegReg : isWordOf [0x2F, 0x02, 0x03] (.andRegReg .r1 .r2) := by decide +kernel
theorem test_decode_orRegLit : isWordOf [0x30, 0x02, 0x00, 0x0F] (.orRegLit .r1 0x000F) := by decide +kernel
theorem test_decode_orRegReg : isWordOf [0x31, 0x05, 0x06] (.orRegReg .r4 .r5) := by decide +kernel
theorem test_decode_xorRegLit : isWordOf [0x32, 0x02, 0xFF, 0xFE] (.xorRegLit .r1 0xFFFE) := by decide +kernel
theorem test_decode_xorRegReg : isWordOf [0x33, 0x02, 0x03] (.xorRegReg .r1 .r2) := by decide +kernel
theorem test_decode_not : isWordOf [0x34, 0x01] (.not .acc) := by decide +kernel
theorem test_decode_jumpNotEqReg : isWordOf [0x40, 0x02, 0x03, 0x00] (.jumpNotEqReg .r1 0x0300) := by decide +kernel
theorem test_decode_jumpNotEqLit : isWordOf [0x15, 0x00, 0x03, 0x00, 0x08] (.jumpNotEqLit 0x0003 0x0008) := by
  decide +kernel
theorem test_decode_jumpEqReg : isWordOf [0x3E, 0x01, 0x03, 0x00] (.jumpEqReg .acc 0x0300) := by decide +kernel
theorem test_decode_jumpEqLit : isWordOf [0x41, 0x00, 0x01, 0x03, 0x00] (.jumpEqLit 0x0001 0x0300) := by decide +kernel
theorem test_decode_jumpLtReg : isWordOf [0x42, 0x02, 0x03, 0x00] (.jumpLtReg .r1 0x0300) := by decide +kernel
theorem test_decode_jumpLtLit : isWordOf [0x43, 0x00, 0x01, 0x03, 0x00] (.jumpLtLit 0x0001 0x0300) := by decide +kernel
theorem test_decode_jumpGtReg : isWordOf [0x44, 0x02, 0x03, 0x00] (.jumpGtReg .r1 0x0300) := by decide +kernel
theorem test_decode_jumpGtLit : isWordOf [0x45, 0x00, 0x01, 0x03, 0x00] (.jumpGtLit 0x0001 0x0300) := by decide +kernel
theorem test_decode_jumpLteReg : isWordOf [0x46, 0x02, 0x03, 0x00] (.jumpLteReg .r1 0x0300) := by decide +kernel
theorem test_decode_jumpLteLit : isWordOf [0x47, 0x00, 0x01, 0x03, 0x00] (.jumpLteLit 0x0001 0x0300) := by
  decide +kernel
theorem test_decode_jumpGteReg : isWordOf [0x48, 0x02, 0x03, 0x00] (.jumpGteReg .r1 0x0300) := by decide +kernel
theorem test_decode_jumpGteLit : isWordOf [0x49, 0x00, 0x01, 0x03, 0x00] (.jumpGteLit 0x0001 0x0300) := by
  decide +kernel
theorem test_decode_pushLit : isWordOf [0x17, 0x12, 0x34] (.pushLit 0x1234) := by decide +kernel
theorem test_decode_pushReg : isWordOf [0x18, 0x09] (.pushReg .r8) := by decide +kernel
theorem test_decode_pop : isWordOf [0x1A, 0x06] (.pop .r5) := by decide +kernel
theorem test_decode_callLit : isWordOf [0x5E, 0x01, 0x00] (.callLit 0x0100) := by decide +kernel
theorem test_decode_callReg : isWordOf [0x5F, 0x0A] (.callReg .sp) := by decide +kernel
theorem test_decode_ret : isWordOf [0x60] .ret := by decide +kernel
theorem test_decode_halt : isWordOf [0xFF] .halt := by decide +kernel

/-- R99, R102, R104: an unknown opcode, the smallest and largest bad register bytes, and a word cut short. -/
theorem test_decode_rejects :
    decode OpcodeMap.reference [0x00] = .error (.unknownOpcode 0x00)
      ∧ decode OpcodeMap.reference [0x11, 0x0C, 0x02] = .error (.badRegister 0x0C)
      ∧ decode OpcodeMap.reference [0x11, 0x02, 0xFF] = .error (.badRegister 0xFF)
      ∧ decode OpcodeMap.reference [0x10, 0x12] = .error .truncated := by decide +kernel

/-- The table's numbering: byte k is bits 8k+7..8k, and bits above `nbits` are 0. -/
theorem test_table_word :
    decodeTableWord 32 0x02341210 = some (.moveLitReg 0x1234 .r1)
      ∧ decodeTableWord 8 0x02341210 = some (.moveLitReg 0x0000 .ip) ∧ decodeTableWord 8 0xFF = some .halt
      ∧ decodeTableWord 8 0x00 = none := by decide +kernel

/-- Every opcode byte of R98, with operand bytes 0, is decoded and run by the first step after reset. -/
theorem test_table_rows_run :
    OpcodeMap.reference.all (fun row =>
      (decodeTableWord 8 row.2.toNat).map Instr.opcode == some row.1
        && (match step (State.reset.withFetchWord 8 row.2.toNat) with
          | .next t => t.runState == (if row.1 = .halt then .halted else .running)
          | _ => false)) = true := by decide +kernel

/-! One step. -/

/-- The reset state of a platform with Ip at `at`, some registers set and some bytes placed. -/
def start (m : Mapper) (ip : Word) (regs : List (Reg × Word)) (bytes : List (Word × List Byte)) : State :=
  bytes.foldl (fun s p => s.placeBytes p.1 p.2)
    (regs.foldl (fun s p => s.setReg p.1 p.2) ((State.create referenceParams m).setReg .ip ip))

/-- The same on the reference platform, with one instruction at Ip. -/
def at' (ip : Word) (word : List Byte) (regs : List (Reg × Word)) : State :=
  start referencePlatform ip regs [(ip, word)]

/-- The state after an outcome, if there is one. -/
def stateAfter : Host.Outcome State Fault Refusal → Option State
  | .next t => some t
  | _ => none

/-- The registers of a list after a step. -/
def regsAfter (s : State) (rs : List Reg) : Option (List Word) := (stateAfter (step s)).map (fun t => rs.map t.reg)

/-- The run state and Ip after a step. -/
def runAfter (s : State) : Option (RunState × Word) := (stateAfter (step s)).map (fun t => (t.runState, t.reg .ip))

/-- A word of memory after a step. -/
def wordAfter (s : State) (a : Word) : Option Word := (stateAfter (step s)).bind (fun t => t.peekShort a)

/-- FS after a step. -/
def fsAfter (s : State) : Option Word := (stateAfter (step s)).map State.fs

/-- Vector M1. -/
theorem test_moveLitReg_to_ip :
    regsAfter (at' 0x0000 [0x10, 0x00, 0x40, 0x00] []) [.ip] = some [0x0040] := by decide +kernel

/-- Vector M2. -/
theorem test_moveRegReg_reads_next_ip :
    regsAfter (at' 0x0000 [0x11, 0x00, 0x02] []) [.r1, .ip] = some [0x0003, 0x0003] := by decide +kernel

/-- Vector M3. -/
theorem test_moveRegReg_self :
    regsAfter (at' 0x0000 [0x11, 0x01, 0x01] [(.acc, 0x5555)]) [.acc, .ip] = some [0x5555, 0x0003] := by decide +kernel

/-- Vector M4. -/
theorem test_moveRegMem_overwrites_itself :
    wordAfter (at' 0x0000 [0x12, 0x02, 0x00, 0x00] [(.r1, 0xBEEF)]) 0x0000 = some 0xBEEF ∧ runAfter (at' 0x0000 [0x12, 0x02, 0x00, 0x00] [(.r1, 0xBEEF)]) = some (.running, 0x0004) := by
  decide +kernel

/-- Vector M5. -/
theorem test_moveRegMem_bounds :
    runAfter (at' 0x0000 [0x12, 0x01, 0xFF, 0xFF] [(.acc, 0x1234)]) = some (.faulted (.bounds 0xFFFF), 0x0004) := by
  decide +kernel

/-- Vector M6. -/
theorem test_moveMemReg_odd_address :
    regsAfter (start referencePlatform 0x0000 [] [(0x0000, [0x13, 0x01, 0x01, 0x02]), (0x0101, [0x12, 0x34])]) [.r1, .ip]
      = some [0x1234, 0x0004] := by decide +kernel

/-- Vector M7. -/
theorem test_moveLitMem_high_byte_first :
    wordAfter (at' 0x0100 [0x1B, 0x12, 0x34, 0x00, 0x0B] []) 0x000B = some 0x1234 := by decide +kernel

/-- Vector M8. -/
theorem test_moveRegPtrReg_from_sp :
    regsAfter (start referencePlatform 0x0000 [] [(0x0000, [0x1C, 0x0A, 0x02]), (0xFFFE, [0xAB, 0xCD])]) [.r1, .ip]
      = some [0xABCD, 0x0003] := by decide +kernel

/-- Vector M9. -/
theorem test_moveLitOffReg_wraps :
    regsAfter (start referencePlatform 0x0010 [(.r1, 0x0002)] [(0x0010, [0x1D, 0xFF, 0xFF, 0x02, 0x03]), (0x0001, [0xAB, 0xCD])])
        [.r2, .ip] = some [0xABCD, 0x0015] := by decide +kernel

/-- Vector A1. -/
theorem test_addRegReg_wraps :
    regsAfter (at' 0x0000 [0x14, 0x02, 0x03] [(.r1, 0xFFFF), (.r2, 0x0002)]) [.acc, .r1, .r2] = some [0x0001, 0xFFFF, 0x0002] := by
  decide +kernel

/-- Vector A3. -/
theorem test_addRegReg_from_acc :
    regsAfter (at' 0x0000 [0x14, 0x01, 0x01] [(.acc, 0x0003)]) [.acc] = some [0x0006] := by decide +kernel

/-- Vector A4. -/
theorem test_addLitReg_wraps :
    regsAfter (at' 0x0000 [0x3F, 0xFF, 0xFF, 0x02] [(.r1, 0x0001)]) [.acc] = some [0x0000] := by decide +kernel

/-- Vector A5. -/
theorem test_subLitReg_register_less_literal :
    regsAfter (at' 0x0000 [0x16, 0x00, 0x01, 0x02] []) [.acc] = some [0xFFFF] := by decide +kernel

/-- Vector A6. -/
theorem test_subRegLit_literal_less_register :
    regsAfter (at' 0x0000 [0x1E, 0x02, 0x00, 0x00] [(.r1, 0x0001)]) [.acc] = some [0xFFFF] := by decide +kernel

/-- Vector A8. -/
theorem test_subRegReg_first_less_second :
    regsAfter (at' 0x0000 [0x1F, 0x02, 0x03] [(.r1, 0x0005), (.r2, 0x0007)]) [.acc] = some [0xFFFE] := by decide +kernel

/-- Vector A9. -/
theorem test_mulLitReg_wraps :
    regsAfter (at' 0x0000 [0x20, 0x01, 0x00, 0x02] [(.r1, 0x0100), (.acc, 0x4444)]) [.acc] = some [0x0000] := by
  decide +kernel

/-- Vector A10. -/
theorem test_mulRegReg_wraps :
    regsAfter (at' 0x0000 [0x21, 0x02, 0x03] [(.r1, 0xFFFF), (.r2, 0xFFFF)]) [.acc] = some [0x0001] := by decide +kernel

/-- Vector A11. -/
theorem test_incReg_wraps :
    regsAfter (at' 0x0000 [0x35, 0x02] [(.r1, 0xFFFF), (.acc, 0x0007)]) [.r1, .acc] = some [0x0000, 0x0007] := by
  decide +kernel

/-- Vector A14. -/
theorem test_incReg_ip :
    regsAfter (at' 0x0000 [0x35, 0x00] []) [.ip] = some [0x0003] := by decide +kernel

/-- Vector A12. -/
theorem test_decReg_wraps :
    regsAfter (at' 0x0000 [0x36, 0x02] []) [.r1] = some [0xFFFF] := by decide +kernel

/-- Vector B1. -/
theorem test_leftShiftRegLit_15 :
    regsAfter (at' 0x0000 [0x26, 0x02, 0x00, 0x0F] [(.r1, 0x0001)]) [.r1] = some [0x8000] := by decide +kernel

/-- Vector B3. -/
theorem test_leftShiftRegLit_17 :
    regsAfter (at' 0x0000 [0x26, 0x02, 0x00, 0x11] [(.r1, 0x00FF)]) [.r1] = some [0x01FE] := by decide +kernel

/-- Vector B4. -/
theorem test_leftShiftRegReg_discards_bit_15 :
    regsAfter (at' 0x0000 [0x27, 0x02, 0x03] [(.r1, 0x8001), (.r2, 0x0001)]) [.r1] = some [0x0002] := by decide +kernel

/-- Vector B6. -/
theorem test_rightShiftRegLit_zero_fill :
    regsAfter (at' 0x0000 [0x2A, 0x02, 0x00, 0x0F] [(.r1, 0x8000)]) [.r1] = some [0x0001] := by decide +kernel

/-- Vector B7. -/
theorem test_rightShiftRegReg_16 :
    regsAfter (at' 0x0000 [0x2B, 0x02, 0x03] [(.r1, 0x8000), (.r2, 0x0010)]) [.r1] = some [0x8000] := by decide +kernel

/-- Vector B8. -/
theorem test_rightShiftRegReg_by_itself :
    regsAfter (at' 0x0000 [0x2B, 0x02, 0x02] [(.r1, 0x0003)]) [.r1] = some [0x0000] := by decide +kernel

/-- Vector B9. -/
theorem test_andRegLit :
    regsAfter (at' 0x0000 [0x2E, 0x02, 0x0F, 0x0F] [(.r1, 0x1234)]) [.acc, .r1] = some [0x0204, 0x1234] := by
  decide +kernel

/-- Vector B10. -/
theorem test_andRegReg :
    regsAfter (at' 0x0000 [0x2F, 0x02, 0x03] [(.r1, 0xFF00), (.r2, 0x0FF0)]) [.acc] = some [0x0F00] := by decide +kernel

/-- Vector B11. -/
theorem test_orRegLit :
    regsAfter (at' 0x0000 [0x30, 0x02, 0x00, 0x0F] [(.r1, 0x1230)]) [.acc] = some [0x123F] := by decide +kernel

/-- Vector B12. -/
theorem test_orRegReg :
    regsAfter (at' 0x0000 [0x31, 0x02, 0x03] [(.r1, 0xF000), (.r2, 0x000F)]) [.acc] = some [0xF00F] := by decide +kernel

/-- Vector B13. -/
theorem test_xorRegLit :
    regsAfter (at' 0x0000 [0x32, 0x02, 0xFF, 0xFF] [(.r1, 0x1234)]) [.acc] = some [0xEDCB] := by decide +kernel

/-- Vector B14. -/
theorem test_xorRegReg :
    regsAfter (at' 0x0000 [0x33, 0x02, 0x02] [(.r1, 0x1234), (.acc, 0x7777)]) [.acc, .r1] = some [0x0000, 0x1234] := by
  decide +kernel

/-- Vector B16. -/
theorem test_not :
    regsAfter (at' 0x0000 [0x34, 0x01] [(.acc, 0x00FF)]) [.acc] = some [0xFF00] := by decide +kernel

/-- Vectors B3, B7 and program P5 under SHIFT_AMOUNT = zero. -/
theorem test_shift_zero_mode :
    shiftLeft .zero 0x00FF 0x0011 = 0x0000 ∧ shiftRight .zero 0x8000 0x0010 = 0x0000
      ∧ shiftLeft .zero 0x0001 0x000F = 0x8000 := by decide +kernel

/-- The jump table of 2.4, register form, comparands 1, 2, 3 against 2. -/
theorem test_jumpNotEqReg :
    [1, 2, 3].map (fun v => regsAfter (at' 0x0020 [0x40, 0x02, 0x03, 0x00] [(.r1, v), (.acc, 0x0002)]) [.ip])
      = [some [0x0300], some [0x0024], some [0x0300]] := by decide +kernel

/-- The jump table of 2.4, register form, comparands 1, 2, 3 against 2. -/
theorem test_jumpEqReg :
    [1, 2, 3].map (fun v => regsAfter (at' 0x0020 [0x3E, 0x02, 0x03, 0x00] [(.r1, v), (.acc, 0x0002)]) [.ip])
      = [some [0x0024], some [0x0300], some [0x0024]] := by decide +kernel

/-- The jump table of 2.4, register form, comparands 1, 2, 3 against 2. -/
theorem test_jumpLtReg :
    [1, 2, 3].map (fun v => regsAfter (at' 0x0020 [0x42, 0x02, 0x03, 0x00] [(.r1, v), (.acc, 0x0002)]) [.ip])
      = [some [0x0300], some [0x0024], some [0x0024]] := by decide +kernel

/-- The jump table of 2.4, register form, comparands 1, 2, 3 against 2. -/
theorem test_jumpGtReg :
    [1, 2, 3].map (fun v => regsAfter (at' 0x0020 [0x44, 0x02, 0x03, 0x00] [(.r1, v), (.acc, 0x0002)]) [.ip])
      = [some [0x0024], some [0x0024], some [0x0300]] := by decide +kernel

/-- The jump table of 2.4, register form, comparands 1, 2, 3 against 2. -/
theorem test_jumpLteReg :
    [1, 2, 3].map (fun v => regsAfter (at' 0x0020 [0x46, 0x02, 0x03, 0x00] [(.r1, v), (.acc, 0x0002)]) [.ip])
      = [some [0x0300], some [0x0300], some [0x0024]] := by decide +kernel

/-- The jump table of 2.4, register form, comparands 1, 2, 3 against 2. -/
theorem test_jumpGteReg :
    [1, 2, 3].map (fun v => regsAfter (at' 0x0020 [0x48, 0x02, 0x03, 0x00] [(.r1, v), (.acc, 0x0002)]) [.ip])
      = [some [0x0024], some [0x0300], some [0x0300]] := by decide +kernel

/-- The jump table of 2.4, literal form, comparand 1 against 2. -/
theorem test_jumpNotEqLit :
    regsAfter (at' 0x0020 [0x15, 0x00, 0x01, 0x03, 0x00] [(.acc, 0x0002)]) [.ip] = some [0x0300] := by decide +kernel

/-- The jump table of 2.4, literal form, comparand 1 against 2. -/
theorem test_jumpEqLit :
    regsAfter (at' 0x0020 [0x41, 0x00, 0x01, 0x03, 0x00] [(.acc, 0x0002)]) [.ip] = some [0x0025] := by decide +kernel

/-- The jump table of 2.4, literal form, comparand 1 against 2. -/
theorem test_jumpLtLit :
    regsAfter (at' 0x0020 [0x43, 0x00, 0x01, 0x03, 0x00] [(.acc, 0x0002)]) [.ip] = some [0x0300] := by decide +kernel

/-- The jump table of 2.4, literal form, comparand 1 against 2. -/
theorem test_jumpGtLit :
    regsAfter (at' 0x0020 [0x45, 0x00, 0x01, 0x03, 0x00] [(.acc, 0x0002)]) [.ip] = some [0x0025] := by decide +kernel

/-- The jump table of 2.4, literal form, comparand 1 against 2. -/
theorem test_jumpLteLit :
    regsAfter (at' 0x0020 [0x47, 0x00, 0x01, 0x03, 0x00] [(.acc, 0x0002)]) [.ip] = some [0x0300] := by decide +kernel

/-- The jump table of 2.4, literal form, comparand 1 against 2. -/
theorem test_jumpGteLit :
    regsAfter (at' 0x0020 [0x49, 0x00, 0x01, 0x03, 0x00] [(.acc, 0x0002)]) [.ip] = some [0x0025] := by decide +kernel

/-- Vector J1. -/
theorem test_jumpLtLit_unsigned :
    regsAfter (at' 0x0020 [0x43, 0xFF, 0xFF, 0x03, 0x00] [(.acc, 0x0001)]) [.ip] = some [0x0025] := by decide +kernel

/-- Vector J2. -/
theorem test_jumpEqReg_acc_always :
    regsAfter (at' 0x0020 [0x3E, 0x01, 0x03, 0x00] [(.acc, 0x7777)]) [.ip] = some [0x0300] := by decide +kernel

/-- Vector S1. -/
theorem test_pushLit :
    wordAfter (at' 0x0000 [0x17, 0x12, 0x34] []) 0xFFFE = some 0x1234 ∧ regsAfter (at' 0x0000 [0x17, 0x12, 0x34] []) [.sp] = some [0xFFFC] ∧ fsAfter (at' 0x0000 [0x17, 0x12, 0x34] []) = some 0x0002 := by
  decide +kernel

/-- Vector S8: Sp and FS unchanged. -/
theorem test_pushLit_bounds :
    runAfter (at' 0x0000 [0x17, 0x00, 0x01] [(.sp, 0xFFFF)]) = some (.faulted (.bounds 0xFFFF), 0x0003)
      ∧ regsAfter (at' 0x0000 [0x17, 0x00, 0x01] [(.sp, 0xFFFF)]) [.sp] = some [0xFFFF] := by decide +kernel

/-- Vector S2. -/
theorem test_pushReg_sp :
    wordAfter (at' 0x0000 [0x18, 0x0A] []) 0xFFFE = some 0xFFFE := by decide +kernel

/-- Vector S3. -/
theorem test_pushReg_ip :
    wordAfter (at' 0x0040 [0x18, 0x00] []) 0xFFFE = some 0x0042 := by decide +kernel

/-- Vector S5. -/
theorem test_pop_sp :
    regsAfter ((start referencePlatform 0x0000 [(.sp, 0xFFFC)] [(0x0000, [0x1A, 0x0A]), (0xFFFE, [0x12, 0x34])]).setFs 2)
        [.sp] = some [0x1234] := by decide +kernel

/-- Vector S7: `1A 02` pops into R1 (register id 02; the vector's assembly column says R2). -/
theorem test_pop_wraps :
    regsAfter (at' 0x0010 [0x1A, 0x02] []) [.sp, .r1] = some [0x0000, 0x0000]
      ∧ fsAfter (at' 0x0010 [0x1A, 0x02] []) = some 0xFFFE := by decide +kernel

/-- The start state of vector C1, with the argument count of C4 at 0xFFFC. -/
def callStart : State :=
  (start referencePlatform 0x000E [(.sp, 0xFFFA), (.r1, 0x1234), (.r4, 0x5678)]
    [(0x000E, [0x5E, 0x01, 0x00]), (0xFFFC, [0x00, 0x01])]).setFs 0x0004

/-- Vector C1: registers and FS. -/
theorem test_callLit :
    regsAfter callStart [.ip, .sp, .fp] = some [0x0100, 0xFFE6, 0xFFE6] ∧ fsAfter callStart = some 0x0000 := by
  decide +kernel

/-- Vector C1: the frame. -/
theorem test_callLit_frame :
    [0xFFFA, 0xFFF8, 0xFFF4, 0xFFEC, 0xFFEA, 0xFFE8].map (fun a => wordAfter callStart a)
      = [some 0x1234, some 0x0000, some 0x5678, some 0x0000, some 0x0011, some 0x0018] := by decide +kernel

/-- Vector C2: the target is the old Sp. -/
theorem test_callReg_sp :
    regsAfter (at' 0x0010 [0x5F, 0x0A] []) [.ip, .sp, .fp] = some [0xFFFE, 0xFFEA, 0xFFEA]
      ∧ wordAfter (at' 0x0010 [0x5F, 0x0A] []) 0xFFEE = some 0x0012
      ∧ wordAfter (at' 0x0010 [0x5F, 0x0A] []) 0xFFEC = some 0x0014 := by decide +kernel

/-- The state of vector C4: the frame of C1, a callee push, R1 and R8 overwritten, a Ret at Ip. -/
def retStart : State :=
  (start referencePlatform 0x0108 [(.sp, 0xFFE4), (.fp, 0xFFE6), (.r1, 0xAAAA), (.r8, 0xBBBB)]
    [(0x0108, [0x60]), (0xFFFA, [0x12, 0x34]), (0xFFF4, [0x56, 0x78]), (0xFFEA, [0x00, 0x11]), (0xFFE8, [0x00, 0x18]),
     (0xFFFC, [0x00, 0x01])]).setFs 0x0002

/-- Vector C4. -/
theorem test_ret :
    regsAfter retStart [.sp, .ip, .r1, .r4, .r8, .fp] = some [0xFFFE, 0x0011, 0x1234, 0x5678, 0x0000, 0xFFFE]
      ∧ fsAfter retStart = some 0x0002 := by decide +kernel

/-- Vector C5: a Ret without a call. -/
theorem test_ret_unmatched :
    regsAfter (at' 0x0000 [0x60] []) [.ip, .sp, .fp] = some [0x0000, 0x0014, 0x5FFE]
      ∧ fsAfter (at' 0x0000 [0x60] []) = some 0x5FEC := by decide +kernel

/-- Program P6, step 3, under FP_RESTORE = current: Fp is 0xFFEA, under popped it is 0xFFFE. -/
theorem test_ret_fp_restore :
    restoredFrameSize .popped 0x0016 0x0002 = 0x0016 ∧ restoredFrameSize .current 0x0016 0x0002 = 0x0002 := by
  decide +kernel

/-- Vectors H1, H2. -/
theorem test_halt :
    runAfter (at' 0x0000 [0xFF] []) = some (.halted, 0x0001) ∧ runAfter (at' 0xFFFF [0xFF] []) = some (.halted, 0x0000) := by
  decide

/-! Decode, fetch and mapper faults. -/

/-- A Memory of a capacity auto-wrapped into one region, with bytes placed (R64). -/
def small (capacity : Nat) (ip : Word) (regs : List (Reg × Word)) (bytes : List (Word × List Byte)) : State :=
  start (Mapper.autoWrap capacity []) ip regs bytes

/-- A Memory of capacity 0x10 under the region [0x0000, 0xFFFF]. -/
def shortDevice (ip : Word) (bytes : List (Word × List Byte)) : State :=
  start (.device 0 0xFFFF (.memory 0x10 []) .nil) ip [] bytes

/-- A Register device at [0x8000, 0x8001] before the reference Memory, under a REGION_ADDRESSING. -/
def registerFirst (mode : RegionAddressing) (word : List Byte) : State :=
  { start (.device 0x8000 0x8001 (.register []) referencePlatform) 0x0000 [] [(0x0000, word)] with
    params := { referenceParams with addressing := mode } }

/-- A platform whose only device is a peripheral. -/
def peripheralOnly : State := start (.device 0 0xFFFF (.peripheral 7) .nil) 0x0000 [] []

/-- A Memory of capacity 0x100 at [0x0000, 0x00FF] and a peripheral at every address above. -/
def memoryThenPeripheral (ip : Word) (regs : List (Reg × Word)) (bytes : List (Word × List Byte)) : State :=
  start (.device 0 0xFF (.memory 0x100 []) (.device 0x100 0xFFFF (.peripheral 7) .nil)) ip regs bytes

/-- Vector F1. -/
theorem test_fault_unknown_opcode : runAfter State.reset = some (.faulted (.decodeOpcode 0x00 0x0000), 0x0001) := by
  decide +kernel

/-- Vectors F2 and M10. -/
theorem test_fault_bad_register :
    runAfter (at' 0x0000 [0x11, 0x0C, 0x02] []) = some (.faulted (.decodeRegister 0x0C 0x0001), 0x0002) := by
  decide +kernel

/-- Vector F3: the first failure wins. -/
theorem test_fault_first_wins :
    runAfter (small 0x100 0x0000 [] [(0x0000, [0x12, 0x0C, 0x80, 0x00])])
      = some (.faulted (.decodeRegister 0x0C 0x0001), 0x0002) := by decide +kernel

/-- Vector F4. -/
theorem test_fault_unmapped :
    runAfter (small 0x100 0x0000 [] [(0x0000, [0x13, 0x02, 0x00, 0x02])]) = some (.faulted (.unmapped 0x0200), 0x0004) := by
  decide

/-- Vector F5. -/
theorem test_fault_bounds_at_literal :
    runAfter (shortDevice 0x000F [(0x000F, [0x10])]) = some (.faulted (.bounds 0x0010), 0x0010) := by decide +kernel

/-- Vector F6. -/
theorem test_fault_unmapped_at_literal :
    runAfter (small 0x10 0x000F [] [(0x000F, [0x10])]) = some (.faulted (.unmapped 0x0010), 0x0010) := by decide +kernel

/-- Vector F7. -/
theorem test_fault_second_byte_bounds :
    runAfter (small 0x10 0x0000 [] [(0x0000, [0x13, 0x00, 0x0F, 0x02])]) = some (.faulted (.bounds 0x000F), 0x0004) := by
  decide

/-- Vector F8: the reset Sp is not mapped. -/
theorem test_fault_push_unmapped :
    runAfter (small 0x100 0x0000 [] [(0x0000, [0x17, 0x00, 0x01])]) = some (.faulted (.unmapped 0xFFFE), 0x0003) := by
  decide +kernel

/-- Vector F9. -/
theorem test_fault_literal_straddles_top :
    runAfter (at' 0xFFFE [0x10] []) = some (.faulted (.bounds 0xFFFF), 0xFFFF) := by decide +kernel

/-- Vector F11: Ip wraps after the last operand byte. -/
theorem test_fetch_wraps : runAfter (at' 0xFFFD [0x11, 0x02, 0x03] []) = some (.running, 0x0000) := by decide +kernel

/-- Vector F12 under both addressings. -/
theorem test_register_device_addressing :
    runAfter (registerFirst .absolute [0x13, 0x80, 0x00, 0x02]) = some (.faulted (.bounds 0x8000), 0x0004)
      ∧ regsAfter (registerFirst .relative [0x13, 0x80, 0x00, 0x02]) [.r1, .ip] = some [0x0000, 0x0004] := by
  decide +kernel

/-- Example E3: in an overlap the region added first answers. -/
theorem test_first_region_wins :
    (stateAfter (step (start (.device 0 0x7FFF (.memory 0x10000 []) (.device 0x4000 0xFFFF (.memory 0x10000 []) .nil)) 0x0000 []
        [(0x0000, [0x1B, 0x11, 0x11, 0x50, 0x00])]))).map (fun t => t.mapper.devices.map (fun d => d.hostByte 0x5000))
      = some [some 0x11, some 0x00] := by decide +kernel

/-! A state for every statement that has hypotheses. -/

/-- Every word of a list of addresses is held. -/
theorem allShorts {s : State} {l : List Word} (h : l.all (fun a => (s.peekShort a).isSome) = true) : ∀ a ∈ l, s.hasShort a :=
  List.all_eq_true.mp h

/-- The state that a construction gives, if any. -/
def stateOf? : Except ConstructionError State → Option State
  | .ok s => some s
  | .error _ => none

/-- A well-formed map, and a byte that selects a variant. -/
theorem test_witness_OpcodeMapIsBijective :
    OpcodeMap.reference.wf = true ∧ OpcodeMap.reference.variantOf 0x10 = some .moveLitReg
      ∧ OpcodeMap.reference.byteOf .halt = OpcodeMap.reference.byteOf .halt := by decide +kernel

/-- The round trip has a well-formed map; the same serves `EncodeOfDecodeIsBytes` with the word decoded here. -/
theorem test_witness_DecodeOfEncodeIsInstruction :
    OpcodeMap.reference.wf = true
      ∧ decode OpcodeMap.reference [0x15, 0x00, 0x03, 0x00, 0x00, 0xEE] = .ok (.jumpNotEqLit 0x0003 0x0000, [0xEE]) := by
  decide +kernel

/-- An instruction of five bytes that stands at Ip. -/
theorem test_witness_StepRunsDecodedInstruction :
    (at' 0x0010 [0x1D, 0xFF, 0xFF, 0x02, 0x03] []).runState = .running
      ∧ (at' 0x0010 [0x1D, 0xFF, 0xFF, 0x02, 0x03] []).params.opcodeMap.wf = true
      ∧ (at' 0x0010 [0x1D, 0xFF, 0xFF, 0x02, 0x03] []).holdsInstr 0x0010 (.moveLitOffReg 0xFFFF .r1 .r2) := 
  ⟨by decide +kernel, by decide +kernel, ⟨0x1D, by decide +kernel, by decide +kernel⟩, by decide +kernel, by decide +kernel, by decide +kernel, trivial⟩

/-- An instruction whose last byte is at 0xFFFF, Ip wrapping to 0. -/
theorem test_witness_StepRunsDecodedInstruction_wraps :
    (at' 0xFFFD [0x11, 0x02, 0x03] []).holdsInstr 0xFFFD (.moveRegReg .r1 .r2) := 
  ⟨⟨0x11, by decide +kernel, by decide +kernel⟩, by decide +kernel, by decide +kernel, trivial⟩

/-- Halt in the last byte of memory: its length just fits. -/
theorem test_witness_FlatMemoryStepRunsDecodedBytes :
    decode referenceParams.opcodeMap ((List.range 5).map (fun k => Memory.read [(0xFFFF, 0xFF)] (0xFFFF + k)))
        = .ok (.halt, [0x00, 0x00, 0x00, 0x00])
      ∧ 0xFFFF + Instr.halt.length ≤ 0x10000
      ∧ (State.create referenceParams (Mapper.autoWrap 0x10000 [(0xFFFF, 0xFF)])).runState = .running := by
  decide +kernel

/-- The reset state: byte 0x00 at 0x0000 selects no variant. -/
theorem test_witness_UnknownOpcodeFaults :
    State.reset.runState = .running ∧ State.reset.peekByte (State.reset.reg .ip) = some 0x00
      ∧ State.reset.params.opcodeMap.variantOf 0x00 = none := by decide +kernel

/-- A bad byte in the first field, and in the register field after a literal. -/
theorem test_witness_BadRegisterByteFaults :
    (at' 0x0000 [0x12, 0x0C, 0x80, 0x00] []).fetches .moveRegMem [] []
      ∧ Opcode.moveRegMem.shape.fieldKinds = ([] : List Field).map Field.kind ++ .reg :: [.short]
      ∧ (at' 0x0000 [0x12, 0x0C, 0x80, 0x00] []).access [] .readByte (0x0000 + 1) = .ok (0x000C, [])
      ∧ (at' 0x0000 [0x10, 0x00, 0x01, 0xFF] []).fetches .moveLitReg [.short 0x0001] []
      ∧ Opcode.moveLitReg.shape.fieldKinds = [Field.short 0x0001].map Field.kind ++ .reg :: []
      ∧ (at' 0x0000 [0x10, 0x00, 0x01, 0xFF] []).access [] .readByte (0x0000 + 1 + 2) = .ok (0x00FF, []) :=
  ⟨⟨0x0012, [], by decide +kernel, by decide +kernel, rfl⟩, by decide +kernel, by decide +kernel,
   ⟨0x0010, [], by decide +kernel, by decide +kernel, [], by decide +kernel, rfl⟩, by decide +kernel, by decide +kernel⟩

/-- An opcode address in no region, one past the device, one of a peripheral, and a byte that selects no variant. -/
theorem test_witness_OpcodeFetchFaults :
    (State.create referenceParams .nil).reply .readByte 0x0000 = .unmapped
      ∧ (shortDevice 0x0010 []).reply .readByte 0x0010 = .bounds
      ∧ peripheralOnly.reply .readByte 0x0000 = .external 7 0x0000
      ∧ State.reset.access [] .readByte 0x0000 = .ok (0x0000, [])
      ∧ referenceParams.opcodeMap.variantOf 0x00 = none := by decide +kernel

/-- What a read of a peripheral gives is its answer, whichever that is. -/
theorem test_peripheral_access :
    peripheralOnly.access [] .readByte 0x0000 = match Config.peripheralFate [] ⟨7, 0x0000, .readByte⟩ with
      | .respond => .ok (Config.peripheralData [] ⟨7, 0x0000, .readByte⟩, [⟨7, 0x0000, .readByte⟩])
      | .fail => .error (.fault (.peripheral 0x0000))
      | .hang => .error (.hang 0x0000) := by
  unfold State.access
  have hr : peripheralOnly.reply .readByte 0x0000 = .external 7 0x0000 := by decide +kernel
  cases hf : Config.peripheralFate [] ⟨7, 0x0000, .readByte⟩ <;> simp only [hr, hf]

/-- A literal field in no region and past the device (F6, F5), a register field in no region and past the device, and both in a
peripheral. -/
theorem test_witness_OperandFetchFaults :
    (small 0x10 0x000F [] [(0x000F, [0x10])]).reply .readShort 0x0010 = .unmapped
      ∧ (shortDevice 0x000F [(0x000F, [0x10])]).reply .readShort 0x0010 = .bounds
      ∧ (small 0x10 0x000F [] [(0x000F, [0x35])]).reply .readByte 0x0010 = .unmapped
      ∧ (shortDevice 0x000F [(0x000F, [0x35])]).reply .readByte 0x0010 = .bounds
      ∧ (memoryThenPeripheral 0x00FF [] [(0x00FF, [0x35])]).reply .readByte 0x0100 = .external 7 0x0100
      ∧ (memoryThenPeripheral 0x00FF [] [(0x00FF, [0x10])]).reply .readShort 0x0100 = .external 7 0x0100
      ∧ (memoryThenPeripheral 0x00FF [] [(0x00FF, [0x35])]).fetches .incReg [] []
      ∧ Opcode.incReg.shape.fieldKinds = ([] : List Field).map Field.kind ++ .reg :: [] :=
  ⟨by decide +kernel, by decide +kernel, by decide +kernel, by decide +kernel, by decide +kernel, by decide +kernel,
   ⟨0x0035, [], by decide +kernel, by decide +kernel, rfl⟩, by decide +kernel⟩

/-- An instruction of a literal and two register fields that is fetched; one in memory leaves no request. -/
theorem test_witness_FetchFromAnyDeviceRunsInstruction :
    (at' 0x0010 [0x1D, 0xFF, 0xFF, 0x02, 0x03] []).runState = .running
      ∧ (at' 0x0010 [0x1D, 0xFF, 0xFF, 0x02, 0x03] []).fetches .moveLitOffReg [.short 0xFFFF, .reg .r1, .reg .r2] [] :=
  ⟨by decide +kernel, 0x001D, [], by decide +kernel, by decide +kernel, [], by decide +kernel,
   0x0002, [], by decide +kernel, by decide +kernel, 0x0003, [], by decide +kernel, by decide +kernel, rfl⟩

/-- A halted and a faulted state. -/
theorem test_witness_TerminalStatesStay :
    (State.reset.setRun .halted).runState ≠ .running
      ∧ (State.reset.setRun (.faulted (.bounds 0x0000))).runState ≠ .running := by decide +kernel

/-- Halt stands at Ip. -/
theorem test_witness_HaltStops :
    (at' 0x0000 [0xFF] []).runState = .running ∧ (at' 0x0000 [0xFF] []).holdsInstr 0x0000 .halt := 
  ⟨by decide +kernel, ⟨0xFF, by decide +kernel, by decide +kernel⟩, trivial⟩

/-- Halt executed from a running state. -/
theorem test_witness_OnlyHaltHalts :
    exec .halt State.reset = .next (State.reset.setRun .halted) ∧ State.reset.runState = .running
      ∧ (State.reset.setRun .halted).runState = .halted := ⟨rfl, by decide +kernel, by decide +kernel⟩

/-- A step of a state that meets the invariant; it serves `StepKeepsRegionList` and `StepAddsNoByteWriteRequests` too. -/
theorem test_witness_StepKeepsInvariant :
    State.reset.Inv ∧ (stateAfter (step State.reset)).isSome = true := by decide +kernel

/-- A completed instruction that is neither a stack nor a call instruction, and one that writes no memory. -/
theorem test_witness_frames_of_exec :
    (Instr.incReg .r1).opcode ∉ Opcode.stackOpcodes ++ Opcode.callOpcodes
      ∧ (Instr.pop .r1).opcode ∉ [Opcode.moveRegMem, .moveLitMem, .pushLit, .pushReg, .callLit, .callReg]
      ∧ (stateAfter (exec (.incReg .r1) State.reset)).isSome = true
      ∧ (stateAfter (exec (.pop .r1) State.reset)).isSome = true := by decide +kernel

/-- An image as long as the smallest and a larger capacity, one byte too long, and capacities just outside the range. -/
theorem test_witness_LoadedImageIsRead :
    (stateOf? (State.ofMemory referenceParams 1 [0xFF])).isSome = true
      ∧ (stateOf? (State.ofMemory referenceParams 0x10000 [0x01, 0x02])).isSome = true
      ∧ State.ofMemory referenceParams 1 [0xFF, 0xFF] = .error .imageTooLong
      ∧ State.ofMemory referenceParams 0 [] = .error .badCapacity
      ∧ State.ofMemory referenceParams 0x10001 [] = .error .badCapacity := by decide +kernel

/-- A Memory of capacity 2: index 0 is the last that a 2-byte access fits, index 1 the first that it does not. -/
theorem test_witness_ShortAccessIsBigEndian :
    Device.wf (.memory 2 []) = true ∧ 0 + 1 < 2 ∧ 1 + 1 = 2
      ∧ (Device.memory 2 []).reply 0 .readByte = .done 0 ∧ (Device.memory 2 []).reply 1 .readByte = .done 0 := by
  decide +kernel

/-- A region of one address before the whole space: at its address and on both sides of it, the region that answers. -/
theorem test_witness_FirstMatchingRegionAnswers :
    (∀ r ∈ [(⟨0x8000, 0x8000, .single (.register [])⟩ : Region), ⟨0x0000, 0xFFFF, .composite referencePlatform⟩], r.start ≤ r.stop)
      ∧ [0x7FFF, 0x8000, 0x8001, 0x10000].map (fun x =>
          ([(⟨0x8000, 0x8000, .single (.register [])⟩ : Region), ⟨0x0000, 0xFFFF, .composite referencePlatform⟩].find?
            (fun r => decide (r.start ≤ x ∧ x ≤ r.stop))).map Region.start)
        = [some 0x0000, some 0x8000, some 0x0000, none] := by decide +kernel

/-- R60: a Register device at 0x8000 receives 0x8000 under absolute addressing and 0 under relative addressing. -/
theorem test_device_address :
    (match Mapper.addRegions .nil [⟨0x8000, 0x8001, .single (.register [(0, 0x12), (1, 0x34)])⟩] with
      | .ok m => [m.reply .absolute 0x8000 .readShort, m.reply .relative 0x8000 .readShort]
      | .error _ => []) = [.bounds, .done 0x1234] := by decide +kernel

/-- A word that can be stored, up to the last one; an address in no region, one past the device, one of a peripheral. -/
theorem test_witness_storesOnly :
    State.reset.Inv ∧ State.reset.hasShort 0x0000 ∧ State.reset.hasShort 0xFFFE
      ∧ (small 0x100 0 [] []).reply (.writeShort 0x1234) 0x0100 = .unmapped
      ∧ State.reset.reply (.writeShort 0x1234) 0xFFFF = .bounds
      ∧ peripheralOnly.reply (.writeShort 0x1234) 0x0042 = .external 7 0x0042 := by decide +kernel

/-- A word that can be loaded; an address in no region, one past the device, one of a peripheral. -/
theorem test_witness_loadsOnly :
    (start referencePlatform 0 [] [(0x0101, [0x12, 0x34])]).peekShort 0x0101 = some 0x1234
      ∧ (small 0x100 0 [] []).reply .readShort 0x0100 = .unmapped ∧ State.reset.reply .readShort 0xFFFF = .bounds
      ∧ peripheralOnly.reply .readShort 0xFFFF = .external 7 0xFFFF := by decide +kernel

/-- A sum that wraps (vector M9). -/
theorem test_witness_OffsetMoveLoads :
    (0x0001 : Word).toNat = ((0xFFFF : Word).toNat + ((State.reset.setReg .r1 0x0002).reg .r1).toNat) % 65536 := by
  decide +kernel

/-- Counts 15, 16 and 17 of both modes meet the premise with these values. -/
theorem test_witness_ShiftResults :
    (0x00FF : Word).toNat * 2 ^ ((0x0011 : Word).toNat % 16) % 65536 = 0x01FE
      ∧ (0x00FF : Word).toNat * 2 ^ (0x0010 : Word).toNat % 65536 = 0x0000
      ∧ (0x8000 : Word).toNat / 2 ^ (0x000F : Word).toNat = 1 ∧ State.reset.params.shiftAmount = .mod16
      ∧ ((State.reset.setReg .r1 0x00FF).setReg .r2 0x0011).reg .r1 = 0x00FF
      ∧ ((State.reset.setReg .r1 0x00FF).setReg .r2 0x0011).reg .r2 = 0x0011 := by decide +kernel

/-- Both orientations meet the premise. -/
theorem test_witness_OrderingJumps :
    (match State.reset.params.orientation with
      | .comparandFirst => 0 = (State.reset.reg .r1).toNat ∧ 0 = (State.reset.reg .acc).toNat ∧ 1 = (1 : Word).toNat
          ∧ 0 = (State.reset.reg .acc).toNat
      | .accFirst => False)
      ∧ { State.reset with params := { referenceParams with orientation := .accFirst } }.params.orientation = .accFirst := ⟨⟨rfl, rfl, rfl, rfl⟩, rfl⟩

/-- The word at Sp can be written at reset; it is in no region, past the device, of a peripheral. -/
theorem test_witness_pushesOnly :
    State.reset.Inv ∧ State.reset.hasShort (State.reset.reg .sp)
      ∧ (small 0x100 0 [] []).reply (.writeShort 0x0001) 0xFFFE = .unmapped
      ∧ (State.reset.setReg .sp 0xFFFF).reply (.writeShort 0x0001) 0xFFFF = .bounds
      ∧ peripheralOnly.reply (.writeShort 0x0001) 0xFFFE = .external 7 0xFFFE := by decide +kernel

/-- The word above Sp can be read (Sp wraps at reset); it is in no region, past the device, of a peripheral. -/
theorem test_witness_PopPops :
    State.reset.peekShort (State.reset.reg .sp + 2) = some 0x0000
      ∧ (small 0x100 0 [(.sp, 0x00FE)] []).reply .readShort (0x00FE + 2) = .unmapped
      ∧ (State.reset.setReg .sp 0xFFFD).reply .readShort (0xFFFD + 2) = .bounds
      ∧ peripheralOnly.reply .readShort (0xFFFE + 2) = .external 7 0x0000 := by decide +kernel

/-- Two words into two registers (example E5). -/
theorem test_witness_PushesThenPopsRestore :
    State.reset.Inv ∧ [Reg.r1, .r2].length = [0x1111, (0x2222 : Word)].length ∧ [Reg.r1, .r2].Nodup ∧ Reg.sp ∉ [Reg.r1, .r2]
      ∧ ∀ a ∈ pushAddresses (State.reset.reg .sp) 2, State.reset.hasShort a :=
  ⟨by decide +kernel, by decide +kernel, by decide +kernel, by decide +kernel, allShorts (by decide +kernel)⟩

/-- A push, a pop and a call that complete, from a state with `Sp = Fp -w FS`. -/
theorem test_witness_FrameInvariantKept :
    callStart.runState = .running ∧ callStart.reg .sp = callStart.reg .fp - callStart.fs
      ∧ ([Instr.pushLit 0x0001, .pushReg .r1, .pop .r5, .callLit 0x0100, .callReg .r1].all (fun i =>
        (stateAfter (exec i callStart)).map State.runState == some .running)) = true := by decide +kernel

/-- Ten words below Sp can be written, also when Sp wraps (vector C3). -/
theorem test_witness_CallLitCalls :
    State.reset.Inv ∧ (∀ a ∈ pushAddresses (State.reset.reg .sp) 10, State.reset.hasShort a)
      ∧ ∀ a ∈ pushAddresses 0x0010 10, (State.reset.setReg .sp 0x0010).hasShort a :=
  ⟨by decide +kernel, allShorts (by decide +kernel), allShorts (by decide +kernel)⟩

/-- The first and the last of the ten writes in no region, past the device, and in a peripheral. -/
theorem test_witness_CallsFaultAtFirstBadPush :
    (small 0x100 0 [] []).accessAll [] ((callWrites (small 0x100 0 [] [])).take 0) = .ok ([], [])
      ∧ (small 0x100 0 [] []).reply (.writeShort 0) (0xFFFE - BitVec.ofNat 16 (2 * 0)) = .unmapped
      ∧ (small 0x100 0 [(.sp, 0x0010)] []).accessAll [] ((callWrites (small 0x100 0 [(.sp, 0x0010)] [])).take 9)
        = .ok (List.replicate 9 0, [])
      ∧ (callWords (small 0x100 0 [(.sp, 0x0010)] []))[9]? = some 0x0014
      ∧ (small 0x100 0 [(.sp, 0x0010)] []).reply (.writeShort 0x0014) (0x0010 - BitVec.ofNat 16 (2 * 9)) = .unmapped
      ∧ (State.reset.setReg .sp 0xFFFF).reply (.writeShort 0) (0xFFFF - BitVec.ofNat 16 (2 * 0)) = .bounds
      ∧ (State.reset.setReg .sp 0x0011).accessAll [] ((callWrites (State.reset.setReg .sp 0x0011)).take 9)
        = .ok (List.replicate 9 0, [])
      ∧ (State.reset.setReg .sp 0x0011).reply (.writeShort 0x0014) (0x0011 - BitVec.ofNat 16 (2 * 9)) = .bounds
      ∧ (memoryThenPeripheral 0 [] []).reply (.writeShort 0) (0xFFFE - BitVec.ofNat 16 (2 * 0)) = .external 7 0xFFFE
      ∧ (memoryThenPeripheral 0 [(.sp, 0x0010)] []).accessAll [] ((callWrites (memoryThenPeripheral 0 [(.sp, 0x0010)] [])).take 9)
        = .ok (List.replicate 9 0, [])
      ∧ (memoryThenPeripheral 0 [(.sp, 0x0010)] []).reply (.writeShort 0x0014) (0x0010 - BitVec.ofNat 16 (2 * 9))
        = .external 7 0xFFFE := by decide +kernel

/-- The ten writes of vector C1, and ten that wrap. -/
theorem test_witness_CallsCompleteOnAnyDevices :
    callStart.Inv ∧ callStart.accessAll callStart.peripheralLog (callWrites callStart) = .ok (List.replicate 10 0, [])
      ∧ (State.reset.setReg .sp 0x0010).accessAll [] (callWrites (State.reset.setReg .sp 0x0010))
        = .ok (List.replicate 10 0, []) := by decide +kernel

/-- The eleven words of vector C4 and its one argument; at reset, eleven zeros and no argument. -/
theorem test_witness_RetRestores :
    (popAddresses (retStart.reg .fp) 11).map retStart.peekShort
        = [0x0018, 0x0011, 0x0000, 0x0000, 0x0000, 0x0000, 0x5678, 0x0000, 0x0000, 0x1234, 0x0001].map some
      ∧ (∀ a ∈ popAddresses (retStart.reg .fp + 22) (0x0001 : Word).toNat, retStart.hasShort a)
      ∧ (popAddresses (State.reset.reg .fp) 11).map State.reset.peekShort = (List.replicate 11 (0x0000 : Word)).map some :=
  ⟨by decide +kernel, allShorts (by decide +kernel), by decide +kernel⟩

/-- The first, the eleventh and the first argument pop in no region, past the device, and in a peripheral. -/
theorem test_witness_RetFaultsAtFirstBadPop :
    (small 0x100 0 [(.fp, 0x00FE)] []).accessAll [] (popReads 0x00FE 0) = .ok ([], [])
      ∧ (small 0x100 0 [(.fp, 0x00FE)] []).reply .readShort (0x00FE + 2 + BitVec.ofNat 16 (2 * 0)) = .unmapped
      ∧ (small 0x100 0 [(.fp, 0x00EA)] []).accessAll [] (popReads 0x00EA 10) = .ok (List.replicate 10 0, [])
      ∧ (small 0x100 0 [(.fp, 0x00EA)] []).reply .readShort (0x00EA + 2 + BitVec.ofNat 16 (2 * 10)) = .unmapped
      ∧ (small 0x100 0 [(.fp, 0x00E8)] [(0x00FE, [0x00, 0x01])]).accessAll [] (popReads 0x00E8 11)
        = .ok (List.replicate 10 0 ++ [0x0001], [])
      ∧ (List.replicate 10 (0 : Word) ++ [0x0001])[10]? = some 0x0001 ∧ 11 < 11 + (0x0001 : Word).toNat
      ∧ (small 0x100 0 [(.fp, 0x00E8)] []).reply .readShort (0x00E8 + 2 + BitVec.ofNat 16 (2 * 11)) = .unmapped
      ∧ (small 0x100 0 [(.fp, 0x00FD)] []).reply .readShort (0x00FD + 2 + BitVec.ofNat 16 (2 * 0)) = .bounds
      ∧ (small 0x100 0 [(.fp, 0x00E9)] []).reply .readShort (0x00E9 + 2 + BitVec.ofNat 16 (2 * 10)) = .bounds
      ∧ (memoryThenPeripheral 0 [(.fp, 0x00FE)] []).reply .readShort (0x00FE + 2 + BitVec.ofNat 16 (2 * 0))
        = .external 7 0x0100
      ∧ (memoryThenPeripheral 0 [(.fp, 0x00EA)] []).accessAll [] (popReads 0x00EA 10) = .ok (List.replicate 10 0, [])
      ∧ (memoryThenPeripheral 0 [(.fp, 0x00EA)] []).reply .readShort (0x00EA + 2 + BitVec.ofNat 16 (2 * 10))
        = .external 7 0x0100
      ∧ (memoryThenPeripheral 0 [(.fp, 0x00E8)] []).reply .readShort (0x00E8 + 2 + BitVec.ofNat 16 (2 * 11))
        = .external 7 0x0100 := by decide +kernel

/-- The reads of vector C4, with its one argument. -/
theorem test_witness_RetCompletesOnAnyDevices :
    retStart.accessAll retStart.peripheralLog (popReads (retStart.reg .fp) 11)
        = .ok ([0x0018, 0x0011, 0x0000, 0x0000, 0x0000, 0x0000, 0x5678, 0x0000, 0x0000, 0x1234, 0x0001], [])
      ∧ retStart.accessAll [] (popReads (retStart.reg .fp + 22) (0x0001 : Word).toNat) = .ok ([0x0000], []) := by
  decide +kernel

/-- The state that an outcome leads to, or the given one. -/
def nextOr (s : State) : Host.Outcome State Fault Refusal → State
  | .next t => t
  | _ => s

theorem eq_nextOr {o : Host.Outcome State Fault Refusal} {s : State} (h : (stateAfter o).isSome = true) : o = .next (nextOr s o) := by
  cases o with
  | next t => rfl
  | fault f => cases h
  | refused r => cases h

/-- The state after the call of vector C1. -/
def called : State := nextOr callStart (exec (.callLit 0x0100) callStart)

/-- A callee has pushed a word and overwritten R1 and R8. -/
def beforeRet : State :=
  (nextOr called (exec (.pushLit 0xAAAA) called)).setReg .r1 0xAAAA |>.setReg .r8 0xBBBB

/-- Call and return with one argument (program P3). -/
theorem test_witness_CallThenRetRestoresCaller :
    callStart.Inv ∧ (∀ a ∈ pushAddresses (callStart.reg .sp) 10, callStart.hasShort a)
      ∧ exec (.callLit 0x0100) callStart = .next called ∧ beforeRet.params.fpRestore = .popped
      ∧ beforeRet.reg .fp = called.reg .fp
      ∧ (∀ a ∈ popAddresses (called.reg .fp) 10, beforeRet.peekShort a = called.peekShort a)
      ∧ beforeRet.peekShort (callStart.reg .sp + 2) = some 0x0001
      ∧ (∀ a ∈ popAddresses (callStart.reg .sp + 2) (0x0001 : Word).toNat, beforeRet.hasShort a)
      ∧ callStart.reg .sp = callStart.reg .fp - callStart.fs :=
  ⟨by decide +kernel, allShorts (by decide +kernel), eq_nextOr (by decide +kernel), by decide +kernel, by decide +kernel,
   List.map_inj_left.mp (by decide +kernel), by decide +kernel, allShorts (by decide +kernel), by decide +kernel⟩

/-- An empty region, a region of one address without a device, and a well-formed device and list. -/
theorem test_witness_RegionsAreCheckedWhenBuilt :
    (0 : Nat) < 1 ∧ (5 : Nat) ≤ 5 ∧ Mapper.wf referencePlatform = true ∧ Device.wf (.register []) = true := by
  decide +kernel

/-- Runs that end with each report: halt, a fault, and still running. -/
theorem test_witness_RunRepeatsStep :
    (runFor 1 (at' 0x0000 [0xFF] [])).map Prod.fst = some .halt
      ∧ (runFor 1 State.reset).map Prod.fst = some (.fault (.decodeOpcode 0x00 0x0000))
      ∧ (runFor 0 State.reset).map Prod.fst = some .continue := by decide +kernel

/-- Where the first access reaches a peripheral that never responds, the run hangs. -/
theorem test_witness_RunRepeatsStep_hang (h : Config.peripheralFate [] ⟨7, 0x0000, .readByte⟩ = .hang) :
    runFor 1 peripheralOnly = none := by
  have hb : busAccess .readByte 0x0000 peripheralOnly = .error (.hang 0x0000) (peripheralOnly.logRequest ⟨7, 0x0000, .readByte⟩) := by
    rw [busAccess_of_external (show peripheralOnly.reply .readByte 0x0000 = .external 7 0x0000 by decide +kernel)]
    unfold askPeripheral
    simp only [show peripheralOnly.peripheralLog = [] from rfl, h]
  have hf : fetchByte peripheralOnly = .error (.hang 0x0000) (peripheralOnly.logRequest ⟨7, 0x0000, .readByte⟩) :=
    Op.bind_of_error (x := memReadByte 0x0000) (Op.bind_of_error hb)
  have hi : fetchInstr peripheralOnly = .error (.hang 0x0000) (peripheralOnly.logRequest ⟨7, 0x0000, .readByte⟩) :=
    Op.bind_of_error (x := fetchByte) hf
  simp only [runFor, hostStep, step, hi, show peripheralOnly.runState = .running by decide +kernel, stopOutcome]

/-- The reset state on the reference platform, and one whose host has set Ip. -/
theorem test_witness_LaunchPremises :
    ResetState 0x0000 State.reset ∧ ImageLoaded [] State.reset ∧ PlatformIs referencePlatform State.reset ∧ NoFault State.reset
      ∧ ResetState 0x0100 (State.reset.hostSet .ip 0x0100) :=
  ⟨⟨by decide +kernel, by decide +kernel, by decide +kernel, by decide +kernel, rfl, rfl, rfl,
      fun _ h => by simp [State.reset, State.create, referencePlatform, Mapper.autoWrap, Mapper.devices] at h⟩,
   ⟨[], [], 0x10000, [], rfl, by decide +kernel, fun _ _ => rfl, by simp⟩, rfl, rfl,
   ⟨by decide +kernel, by decide +kernel, by decide +kernel, by decide +kernel, rfl, rfl, rfl,
      fun _ h => by simp [State.hostSet, State.mapper_setReg, State.reset, State.create, referencePlatform, Mapper.autoWrap, Mapper.devices] at h⟩⟩

/-- An image of the length of the smallest capacity. -/
theorem test_witness_LaunchPremisesFixTheState : (1 : Nat) ≤ 1 ∧ 1 ≤ 0x10000 ∧ [(0xFF : Byte)].length ≤ 1 := by
  decide +kernel

/-- Two registers set, Sp among them. -/
theorem test_witness_PreSeededRegistersHold :
    ([(Reg.sp, (0x1000 : Word)), (.r1, 0x0001)].map Prod.fst).Nodup
      ∧ PreSeeded [(.sp, 0x1000), (.r1, 0x0001)] 0x0000 ((State.reset.hostSet .sp 0x1000).hostSet .r1 0x0001) :=
  ⟨by decide +kernel, State.reset, test_witness_LaunchPremises.1, rfl⟩

end Sys2Proof.Tests
end

/-! PROOFS. The statements about the architectural state (10_state.md): what a step and an instruction leave of it, and what
reset leaves in it. The two frames are relations that the primitive updates keep, so that `step_keeps` and `exec_keeps`
carry them to a step and to an instruction. -/

namespace Sys2Proof

/-- The reference opcode map gives the 46 variants 46 distinct bytes (R100). -/
theorem OpcodeMap.reference_wf : OpcodeMap.reference.wf = true := by decide +kernel

namespace Machine

/-! The region list and the parameters. -/

/-- The region list, the kind and capacity of every device (R32) and the parameters (R8) are the same. -/
def SameRegionsAndParams (s t : State) : Prop := t.mapper.shape = s.mapper.shape ∧ t.params = s.params

theorem SameRegionsAndParams.refl (s : State) : SameRegionsAndParams s s := ⟨rfl, rfl⟩

theorem SameRegionsAndParams.trans (s t u : State) (hst : SameRegionsAndParams s t) (htu : SameRegionsAndParams t u) :
    SameRegionsAndParams s u :=
  ⟨htu.1.trans hst.1, htu.2.trans hst.2⟩

/-- Of the effects of a bus access only the update of the device that answers touches the mapper, and it keeps its shape. -/
theorem busAccess_keeps_sameRegionsAndParams (op : BusOp) (a : Word) : (busAccess op a).Keeps SameRegionsAndParams :=
  busAccess_keeps .refl (fun _ _ => ⟨Mapper.shape_after _ _ _ _, rfl⟩) (fun _ _ _ => ⟨rfl, rfl⟩) a

/-- Settles O18: no update that a step is made of changes the shape of the mapper or the parameters. -/
theorem stepKeepsRegionList : Obligations.StepKeepsRegionList := by
  intro s t h
  have hbus := busAccess_keeps_sameRegionsAndParams
  exact step_keeps .refl .trans (hreg := fun _ _ _ => ⟨rfl, rfl⟩) (hfs := fun _ _ => ⟨rfl, rfl⟩)
    (hfault := fun _ _ => ⟨rfl, rfl⟩) (hhalt := fun _ => ⟨rfl, rfl⟩)
    (hrb := hbus _) (hrs := hbus _) (hws := fun a v => hbus (.writeShort v) a) h

/-! The frame-size register. -/

/-- FS is the same. -/
def SameFs (s t : State) : Prop := t.fs = s.fs

/-- A bus access leaves FS alone, whichever device answers. -/
theorem busAccess_keeps_sameFs (op : BusOp) (a : Word) : (busAccess op a).Keeps SameFs :=
  busAccess_keeps (R := SameFs) (fun _ => rfl) (fun s a => s.fs_after op a) (fun s _ _ => s.fs_logRequest _) a

/-- Settles O20: of the updates that instructions are made of, only the write of FS changes FS, and only stack and call
instructions make one. -/
theorem onlyStackAndCallsWriteFs : Obligations.OnlyStackAndCallsWriteFs := by
  intro i s t hi h
  exact exec_keeps (R := SameFs) (fun _ => rfl) (fun _ _ _ hst htu => htu.trans hst)
    (hreg := State.fs_setReg) (hfault := State.fs_enterFault) (hrs := busAccess_keeps_sameFs .readShort)
    (hfs := fun hmem => absurd hmem hi) (hws := fun _ a v => busAccess_keeps_sameFs (.writeShort v) a)
    (hhalt := fun _ s => s.fs_setRun .halted) h

/-! A platform of one Memory, and reset. -/

/-- A region that starts at 0 passes every address on as it is, under both addressings (R60). -/
@[simp] theorem deviceAddress_zero (mode : RegionAddressing) (a : Nat) : deviceAddress mode 0 a = a := by
  cases mode <;> simp [deviceAddress]

/-- A single auto-wrapped Memory of a legal capacity is well formed where its bytes are (R53, R64). -/
theorem Mapper.autoWrap_wf {capacity : Nat} {bytes : Memory} (hpos : 1 ≤ capacity) (hmax : capacity ≤ 0x10000)
    (hb : bytes.wf) (hin : bytes.within capacity) : (Mapper.autoWrap capacity bytes).wf = true := by
  simp only [Mapper.autoWrap, Mapper.wf, Device.wf, Bool.and_eq_true, decide_eq_true_eq]
  exact ⟨⟨Nat.zero_le _, ⟨⟨hpos, hmax⟩, hb⟩, hin⟩, trivial⟩

/-- On a platform of one auto-wrapped Memory, an address within the capacity reads the byte at that index (R53, R64). -/
theorem State.peekByte_of_autoWrap {s : State} {capacity : Nat} {bytes : Memory}
    (h : s.mapper = Mapper.autoWrap capacity bytes) {a : Word} (ha : a.toNat < capacity) :
    s.peekByte a = some (bytes.read a.toNat) := by
  have hin : 0 ≤ a.toNat ∧ a.toNat ≤ capacity - 1 := by omega
  have hr : s.reply .readByte a = .done ((bytes.read a.toNat).setWidth 16) := by
    simp only [State.reply, h, Mapper.autoWrap, Mapper.reply, if_pos hin, deviceAddress_zero, Device.reply, ramReply, if_pos ha]
  simp only [State.peekByte, hr, lowByte_setWidth]

/-- Settles O15: the reference platform is one empty Memory of the largest capacity, and the reference map is well formed. -/
theorem resetMeetsInvariant : Obligations.ResetMeetsInvariant :=
  ⟨Mapper.autoWrap_wf (by decide) (Nat.le_refl _) Memory.wf_nil (fun _ hc => absurd hc List.not_mem_nil),
    OpcodeMap.reference_wf⟩

/-- Settles O16: the registers, FS and the run state are as `State.create` sets them, and every address lies within the one
Memory, of which nothing has been written. -/
theorem resetLeaves : Obligations.ResetLeaves := by
  have hmem : ∀ a : Word, State.reset.peekByte a = some 0x00 := fun a =>
    State.peekByte_of_autoWrap (bytes := []) rfl a.isLt
  have hzero : ∀ r ∈ [Reg.acc, .r1, .r2, .r3, .r4, .r5, .r6, .r7, .r8], State.reset.reg r = 0x0000 := by decide
  exact ⟨rfl, rfl, rfl, rfl, hmem, hzero, rfl⟩

end Machine

end Sys2Proof

/-! PROOFS. The statements about memory and the mapper (20_memory.md): what every step keeps of the devices and of the
peripherals' log, what a Memory answers, and how a list of regions is built and answers. -/

namespace Sys2Proof

namespace Machine

/-! The invariant. -/

/-- The second state meets the invariant if the first does. -/
def KeepsInv (s t : State) : Prop := s.Inv → t.Inv

/-- A bus access keeps the invariant, completed or not: the device that answers stays well formed (R53 to R56). -/
theorem busAccess_keeps_inv (op : BusOp) (a : Word) : (busAccess op a).Keeps KeepsInv :=
  busAccess_keeps (R := KeepsInv) (fun _ => id) (fun _ a hs => State.after_inv hs op a) (fun _ _ _ => id) a

/-- Settles O14: of the updates that a step is made of, only a bus access touches the mapper. -/
theorem stepKeepsInvariant : Obligations.StepKeepsInvariant := by
  intro s t hs h
  have hbus := busAccess_keeps_inv
  exact step_keeps (R := KeepsInv) (fun _ => id) (fun _ _ _ hst htu => htu ∘ hst) (hreg := fun _ _ _ => id)
    (hfs := fun _ _ => id) (hfault := fun _ _ => id) (hhalt := fun _ => id)
    (hrb := hbus _) (hrs := hbus _) (hws := fun a v => hbus (.writeShort v) a) h hs

/-! The peripherals' log. -/

/-- The peripherals' log has new requests before the old ones, none of them a 1-byte write. -/
def AddsNoByteWrites (s t : State) : Prop :=
  ∃ new, t.peripheralLog = new ++ s.peripheralLog ∧ ∀ e ∈ new, ∀ v, e.op ≠ .writeByte v

/-- Where the log is the same, no request is added. -/
theorem AddsNoByteWrites.of_sameLog {s t : State} (h : t.peripheralLog = s.peripheralLog) : AddsNoByteWrites s t :=
  ⟨[], h, fun _ he => absurd he List.not_mem_nil⟩

theorem AddsNoByteWrites.trans (s t u : State) (hst : AddsNoByteWrites s t) (htu : AddsNoByteWrites t u) :
    AddsNoByteWrites s u := by
  obtain ⟨new₁, h₁, hop₁⟩ := hst
  obtain ⟨new₂, h₂, hop₂⟩ := htu
  refine ⟨new₂ ++ new₁, by rw [h₂, h₁, List.append_assoc], fun e he => ?_⟩
  exact (List.mem_append.mp he).elim (hop₂ e) (hop₁ e)

/-- A bus access that is no 1-byte write adds at most its own request to the log (R57, R69). -/
theorem busAccess_keeps_addsNoByteWrites {op : BusOp} (hop : ∀ v, op ≠ .writeByte v) (a : Word) :
    (busAccess op a).Keeps AddsNoByteWrites := by
  refine busAccess_keeps (fun _ => .of_sameLog rfl) (fun _ _ => .of_sameLog rfl) (fun s h l => ?_) a
  exact ⟨[⟨h, l, op⟩], rfl, fun e he => List.mem_singleton.mp he ▸ hop⟩

/-- Settles O19: the accesses a step is made of are byte reads, 2-byte reads and 2-byte writes, and nothing else in it touches
the log. -/
theorem stepAddsNoByteWriteRequests : Obligations.StepAddsNoByteWriteRequests := by
  intro s t h
  exact step_keeps (R := AddsNoByteWrites) (fun _ => .of_sameLog rfl) .trans (hreg := fun _ _ _ => .of_sameLog rfl)
    (hfs := fun _ _ => .of_sameLog rfl) (hfault := fun _ _ => .of_sameLog rfl) (hhalt := fun _ => .of_sameLog rfl)
    (hrb := busAccess_keeps_addsNoByteWrites nofun) (hrs := busAccess_keeps_addsNoByteWrites nofun)
    (hws := fun a v => busAccess_keeps_addsNoByteWrites (op := .writeShort v) nofun a) h

/-! The bytes of a Memory. -/

/-- High byte first: a word is its first byte shifted left by 8, or-ed with its second (R55). -/
theorem wordOfBytes_eq_shiftLeft_or (h l : Byte) : wordOfBytes h l = (h.setWidth 16 <<< 8) ||| l.setWidth 16 := by
  apply BitVec.eq_of_getLsbD_eq
  intro i hi
  simp only [wordOfBytes, BitVec.getLsbD_append, BitVec.getLsbD_or, BitVec.getLsbD_shiftLeft, BitVec.getLsbD_setWidth]
  by_cases h8 : i < 8
  · simp [h8, hi]
  · have hl : l.getLsbD i = false := BitVec.getLsbD_of_ge _ _ (by omega)
    simp [h8, hi, hl, show i - 8 < 16 by omega]

/-- A byte read within the capacity answers with the byte at its index (R54). -/
theorem Device.reply_memory_readByte {capacity : Nat} {bytes : Memory} {a : Nat} (h : a < capacity) :
    (Device.memory capacity bytes).reply a .readByte = .done ((bytes.read a).setWidth 16) := if_pos h

/-- A 2-byte read within the capacity answers with the bytes at its two indices, high byte first (R55). -/
theorem Device.reply_memory_readShort {capacity : Nat} {bytes : Memory} {a : Nat} (h : a + 1 < capacity) :
    (Device.memory capacity bytes).reply a .readShort = .done (wordOfBytes (bytes.read a) (bytes.read (a + 1))) := if_pos h

/-- The bytes of a well-formed Memory are in canonical form. -/
theorem Device.bytes_wf_of_memory_wf {capacity : Nat} {bytes : Memory} (h : (Device.memory capacity bytes).wf = true) :
    bytes.wf := by
  simp only [Device.wf, Bool.and_eq_true, decide_eq_true_eq] at h
  exact h.1.2

/-- Settles O22: a 2-byte write that fits leaves `highByte v` and `lowByte v` at its two indices, and a 2-byte read joins
whatever bytes are at its two indices. -/
theorem shortAccessIsBigEndian : Obligations.ShortAccessIsBigEndian := by
  intro capacity bytes a v hwf
  constructor
  · intro hfit
    have hfirst : a < capacity := Nat.lt_of_succ_lt hfit
    obtain ⟨hhigh, hlow⟩ := ramAfter_writeShort_same (Device.bytes_wf_of_memory_wf hwf) v hfit
    refine ⟨if_pos hfit, ?_, ?_, ?_, ?_⟩
    · rw [Device.after, Device.reply_memory_readByte hfirst, hhigh, setWidth_highByte]
    · rw [Device.after, Device.reply_memory_readByte hfit, hlow, setWidth_lowByte]
    · rw [Device.after, Device.reply_memory_readShort hfit, hhigh, hlow, wordOfBytes_highByte_lowByte]
    · intro x y hx hy
      rw [Device.reply_memory_readByte hfirst] at hx
      rw [Device.reply_memory_readByte hfit] at hy
      cases hx
      cases hy
      rw [Device.reply_memory_readShort hfit, wordOfBytes_eq_shiftLeft_or]
  · intro hlast
    have hout : ¬ a + 1 < capacity := by omega
    exact ⟨if_neg hout, if_neg hout⟩

/-! The image. -/

/-- On a platform of one auto-wrapped Memory, an address at or past the capacity reads nothing: its one region ends at the
last byte (R58, R64). -/
theorem State.peekByte_of_autoWrap_of_ge {s : State} {capacity : Nat} {bytes : Memory}
    (h : s.mapper = Mapper.autoWrap capacity bytes) (hpos : 1 ≤ capacity) {a : Word} (ha : capacity ≤ a.toNat) :
    s.peekByte a = none := by
  have hout : ¬ (0 ≤ a.toNat ∧ a.toNat ≤ capacity - 1) := by omega
  have hr : s.reply .readByte a = .unmapped := by
    simp only [State.reply, h, Mapper.autoWrap, Mapper.reply, if_neg hout]
  simp only [State.peekByte, hr]

/-- A new Memory holds the image from index 0 and 0x00 at every other index (R53, R79). -/
theorem Memory.read_load_image (image : List Byte) (i : Nat) : (Memory.load [] 0 image).read i = image.getD i 0x00 := by
  rw [Memory.read_load Memory.wf_nil]
  by_cases hi : i < image.length
  · rw [if_pos (by omega), Nat.sub_zero]
  · rw [if_neg (by omega), List.getD_eq_default _ _ (by omega)]
    rfl

/-- Creation from an image that fits a legal capacity (R64, R79, R300). -/
theorem State.ofMemory_of_fits (p : Params) {capacity : Nat} {image : List Byte} (hpos : 1 ≤ capacity)
    (hmax : capacity ≤ 0x10000) (hfit : image.length ≤ capacity) :
    State.ofMemory p capacity image = .ok (State.create p (Mapper.autoWrap capacity (Memory.load [] 0 image))) := by
  simp only [State.ofMemory, Device.newMemory, if_pos (And.intro hpos hmax), if_pos hfit]

/-- Creation from an image that does not fit a legal capacity (R79, R301). -/
theorem State.ofMemory_of_tooLong (p : Params) {capacity : Nat} {image : List Byte} (hpos : 1 ≤ capacity)
    (hmax : capacity ≤ 0x10000) (hlong : capacity < image.length) :
    State.ofMemory p capacity image = .error .imageTooLong := by
  simp only [State.ofMemory, Device.newMemory, if_pos (And.intro hpos hmax), if_neg (Nat.not_le.mpr hlong)]

/-- Creation with a capacity outside 1 to 0x10000 (R53, R301). -/
theorem State.ofMemory_of_badCapacity (p : Params) {capacity : Nat} (image : List Byte)
    (h : capacity = 0 ∨ 0x10000 < capacity) : State.ofMemory p capacity image = .error .badCapacity := by
  have hbad : ¬ (1 ≤ capacity ∧ capacity ≤ 0x10000) := by omega
  simp only [State.ofMemory, Device.newMemory, if_neg hbad]

/-- Settles O17: the created platform is one auto-wrapped Memory with the image loaded from index 0. -/
theorem loadedImageIsRead : Obligations.LoadedImageIsRead := by
  refine fun p capacity image => ⟨fun hpos hmax hfit => ?_, State.ofMemory_of_tooLong p, State.ofMemory_of_badCapacity p image⟩
  have hin : (Memory.load [] 0 image).within capacity :=
    Memory.load_within (fun _ hc => absurd hc List.not_mem_nil) (by omega)
  refine ⟨_, State.ofMemory_of_fits p hpos hmax hfit, ?_, fun a => ?_⟩
  · exact Mapper.autoWrap_wf hpos hmax (Memory.load_wf Memory.wf_nil 0 image) hin
  · by_cases ha : a.toNat < capacity
    · rw [if_pos ha, State.peekByte_of_autoWrap rfl ha, Memory.read_load_image]
    · rw [if_neg ha, State.peekByte_of_autoWrap_of_ge rfl hpos (Nat.not_lt.mp ha)]

/-! Region lists. Adding a region is appending a list of one region, so what is built is the regions in the order added. -/

/-- Two region lists, one after the other. -/
def Mapper.append : Mapper → Mapper → Mapper
  | .nil, n => n
  | .device start stop dev rest, n => .device start stop dev (Mapper.append rest n)
  | .composite start stop inner rest, n => .composite start stop inner (Mapper.append rest n)

theorem Mapper.append_nil (m : Mapper) : m.append .nil = m := by
  induction m with
  | nil => rfl
  | device _ _ _ _ ih => rw [Mapper.append, ih]
  | composite _ _ _ _ _ ih => rw [Mapper.append, ih]

theorem Mapper.append_assoc (m n k : Mapper) : (m.append n).append k = m.append (n.append k) := by
  induction m with
  | nil => rfl
  | device _ _ _ _ ih => simp only [Mapper.append, ih]
  | composite _ _ _ _ _ ih => simp only [Mapper.append, ih]

/-- Two region lists are well formed together where each is. -/
theorem Mapper.append_wf {m n : Mapper} (hm : m.wf = true) (hn : n.wf = true) : (m.append n).wf = true := by
  induction m with
  | nil => exact hn
  | device _ _ _ _ ih =>
    simp only [Mapper.append, Mapper.wf, Bool.and_eq_true] at hm ⊢
    exact ⟨hm.1, ih hm.2⟩
  | composite _ _ _ _ _ ih =>
    simp only [Mapper.append, Mapper.wf, Bool.and_eq_true] at hm ⊢
    exact ⟨hm.1, ih hm.2⟩

/-- A region with a device is checked on its own and comes after the regions already there (R59, R61). -/
theorem Mapper.addDevice_eq_append (m : Mapper) (start stop : Nat) (dev : Option Device) :
    m.addDevice start stop dev = (Mapper.addDevice .nil start stop dev).map m.append := by
  induction m with
  | nil => cases Mapper.addDevice .nil start stop dev <;> rfl
  | device a b d rest ih =>
    rw [Mapper.addDevice, ih]
    cases Mapper.addDevice .nil start stop dev <;> rfl
  | composite a b inner rest _ ih =>
    rw [Mapper.addDevice, ih]
    cases Mapper.addDevice .nil start stop dev <;> rfl

/-- A region with a composite is checked on its own and comes after the regions already there (R59, R61, R63). -/
theorem Mapper.addComposite_eq_append (m : Mapper) (start stop : Nat) (inner : Mapper) :
    m.addComposite start stop inner = (Mapper.addComposite .nil start stop inner).map m.append := by
  induction m with
  | nil => cases Mapper.addComposite .nil start stop inner <;> rfl
  | device a b d rest ih =>
    change (rest.addComposite start stop inner).map _ = _
    rw [ih]
    cases Mapper.addComposite .nil start stop inner <;> rfl
  | composite a b i rest _ ih =>
    change (rest.addComposite start stop inner).map _ = _
    rw [ih]
    cases Mapper.addComposite .nil start stop inner <;> rfl

/-- The region list of one region. -/
def Region.toMapper (r : Region) : Mapper :=
  match r.device with
  | .single dev => .device r.start r.stop dev .nil
  | .composite inner => .composite r.start r.stop inner .nil

/-- The region list of regions in the order given. -/
def Mapper.ofRegions : List Region → Mapper
  | [] => .nil
  | r :: rs => r.toMapper.append (Mapper.ofRegions rs)

/-- A region that is not empty is added at the end. -/
theorem Mapper.addRegion_of_le (m : Mapper) {r : Region} (h : r.start ≤ r.stop) :
    m.addRegion r = .ok (m.append r.toMapper) := by
  unfold Mapper.addRegion Region.toMapper
  cases r.device with
  | single dev => simp only [m.addDevice_eq_append, Mapper.addDevice, if_pos h, Except.map]
  | composite inner => simp only [m.addComposite_eq_append, Mapper.addComposite, if_pos h, Except.map]

/-- Regions that are not empty are added at the end, in the order given. -/
theorem Mapper.addRegions_of_le (m : Mapper) {regions : List Region} (h : ∀ r ∈ regions, r.start ≤ r.stop) :
    m.addRegions regions = .ok (m.append (Mapper.ofRegions regions)) := by
  induction regions generalizing m with
  | nil => rw [Mapper.addRegions, Mapper.ofRegions, Mapper.append_nil]
  | cons r rs ih =>
    obtain ⟨hr, hrs⟩ := List.forall_mem_cons.mp h
    simp only [Mapper.addRegions, m.addRegion_of_le hr, Mapper.ofRegions, ih _ hrs, Mapper.append_assoc]

/-- How what a region is bound to answers the address it receives (R63). -/
def RegionDevice.reply (mode : RegionAddressing) (d : RegionDevice) (a : Nat) (op : BusOp) : Reply :=
  match d with
  | .single dev => dev.reply a op
  | .composite inner => inner.reply mode a op

/-- The first region of a list answers for the addresses in its range, the rest of the list for the others (R61). -/
theorem Region.reply_toMapper_append (mode : RegionAddressing) (r : Region) (m : Mapper) (a : Nat) (op : BusOp) :
    (r.toMapper.append m).reply mode a op =
      if r.start ≤ a ∧ a ≤ r.stop then r.device.reply mode (deviceAddress mode r.start a) op else m.reply mode a op := by
  unfold Region.toMapper
  cases r.device <;> rfl

/-- The first region whose range contains the address answers, and none if no range does (R58, R61). -/
theorem Mapper.reply_ofRegions (mode : RegionAddressing) (regions : List Region) (a : Nat) (op : BusOp) :
    (Mapper.ofRegions regions).reply mode a op =
      ((regions.find? fun r => decide (r.start ≤ a ∧ a ≤ r.stop)).map
        fun r => r.device.reply mode (deviceAddress mode r.start a) op).getD .unmapped := by
  induction regions with
  | nil => rfl
  | cons r rs ih =>
    rw [Mapper.ofRegions, Region.reply_toMapper_append]
    by_cases hin : r.start ≤ a ∧ a ≤ r.stop
    · simp only [if_pos hin, List.find?_cons, decide_eq_true hin, Option.map_some, Option.getD_some]
    · simp only [if_neg hin, List.find?_cons, decide_eq_false hin, ih]

/-- Settles O23: the regions stand in the order added, and the first that contains the address answers. -/
theorem firstMatchingRegionAnswers : Obligations.FirstMatchingRegionAnswers := by
  intro mode regions op x hne
  refine ⟨Mapper.ofRegions regions, Mapper.addRegions_of_le .nil hne, ?_⟩
  rw [Mapper.reply_ofRegions]
  cases regions.find? fun r => decide (r.start ≤ x ∧ x ≤ r.stop) with
  | none => rfl
  | some r =>
    obtain ⟨start, stop, d⟩ := r
    cases mode <;> cases d <;> rfl

/-- An opcode fetch that no region answers faults at Ip, with nothing else changed (R90, R273). -/
theorem step_of_unmapped_fetch {s : State} (hrun : s.runState = .running)
    (h : s.reply .readByte (s.reg .ip) = .unmapped) : step s = .next (s.enterFault (.unmapped (s.reg .ip))) := by
  have hread : memReadByte (s.reg .ip) s = .error (.fault (.unmapped (s.reg .ip))) s :=
    Op.bind_of_error (busAccess_of_unmapped h)
  have hbyte : fetchByte s = .error (.fault (.unmapped (s.reg .ip))) s := by
    unfold fetchByte
    rw [getReg_bind, Op.bind_of_error hread]
  have hfetch : fetchInstr s = .error (.fault (.unmapped (s.reg .ip))) s := by
    unfold fetchInstr
    rw [getReg_bind, Op.bind_of_error hbyte]
  simp only [step, hrun, hfetch, stopOutcome]

/-- Settles O47: a region is checked on its own whatever regions are there, so overlaps do not matter; no region answers the
first fetch of an empty list. -/
theorem regionsAreCheckedWhenBuilt : Obligations.RegionsAreCheckedWhenBuilt := by
  refine ⟨fun m start stop d hempty => ?_, fun m start stop hle => ?_, fun m start stop d hle hm hd => ?_, fun p => ?_⟩
  · have hnew : Mapper.addDevice .nil start stop d = .error .emptyRegion := if_neg (Nat.not_le.mpr hempty)
    rw [m.addDevice_eq_append, hnew]
    rfl
  · have hnew : Mapper.addDevice .nil start stop none = .error .missingDevice := if_pos hle
    rw [m.addDevice_eq_append, hnew]
    rfl
  · have hnew : Mapper.addDevice .nil start stop (some d) = .ok (.device start stop d .nil) := if_pos hle
    refine ⟨m.append (.device start stop d .nil), ?_, Mapper.append_wf hm ?_⟩
    · rw [m.addDevice_eq_append, hnew]
      rfl
    · simp only [Mapper.wf, Bool.and_eq_true, decide_eq_true_eq]
      exact ⟨⟨hle, hd⟩, trivial⟩
  · exact ⟨_, step_of_unmapped_fetch rfl rfl, rfl⟩

end Machine

end Sys2Proof

/-! PROOFS. The statements about the encoding (30_encoding.md), the opcode map and the byte decoder: what a search of a
well-formed map finds, and one lemma, `decode_eq_ok_iff`, that says which bytes the decoder accepts. -/

namespace Sys2Proof

/-! The opcode map. -/

/-- R98 lists every variant. -/
theorem Opcode.mem_all (v : Opcode) : v ∈ Opcode.all := by cases v <;> decide

/-- A search by a key that no two elements of the list share finds exactly the element with that key. -/
theorem find?_key_eq_some_iff {α β : Type} [BEq β] [LawfulBEq β] {f : α → β} {l : List α} (hn : (l.map f).Nodup) (a : β)
    (x : α) : l.find? (fun y => f y == a) = some x ↔ x ∈ l ∧ f x = a := by
  constructor
  · intro h
    exact ⟨List.mem_of_find?_eq_some h, by simpa using List.find?_some h⟩
  · rintro ⟨hx, rfl⟩
    obtain ⟨y, hy⟩ := Option.isSome_iff_exists.mp (List.find?_isSome (p := fun y => f y == f x).mpr ⟨x, hx, by simp⟩)
    have hyx : f y = f x := by simpa using List.find?_some hy
    rw [hy, List.inj_on_of_nodup_map hn (List.mem_of_find?_eq_some hy) hx hyx]

section

variable {m : OpcodeMap} (hm : m.wf = true)

include hm

/-- What `OpcodeMap.wf` checks (R100). -/
theorem OpcodeMap.wf_spec : (∀ v, ∃ b, (v, b) ∈ m) ∧ (m.map Prod.fst).Nodup ∧ (m.map Prod.snd).Nodup := by
  simp only [OpcodeMap.wf, Bool.and_eq_true, decide_eq_true_eq, List.all_eq_true, List.any_eq_true, beq_iff_eq] at hm
  obtain ⟨⟨htotal, hfst⟩, hsnd⟩ := hm
  refine ⟨fun v => ?_, hfst, hsnd⟩
  obtain ⟨⟨_, b⟩, hrow, rfl⟩ := htotal v v.mem_all
  exact ⟨b, hrow⟩

theorem OpcodeMap.byteOf_eq_some_iff {v : Opcode} {b : Byte} : m.byteOf v = some b ↔ (v, b) ∈ m := by
  obtain ⟨-, hfst, -⟩ := OpcodeMap.wf_spec hm
  simp [OpcodeMap.byteOf, find?_key_eq_some_iff hfst]

theorem OpcodeMap.variantOf_eq_some_iff {v : Opcode} {b : Byte} : m.variantOf b = some v ↔ (v, b) ∈ m := by
  obtain ⟨-, -, hsnd⟩ := OpcodeMap.wf_spec hm
  simp [OpcodeMap.variantOf, find?_key_eq_some_iff hsnd]

/-- The two directions of the map are each other's inverse. -/
theorem OpcodeMap.variantOf_iff_byteOf {v : Opcode} {b : Byte} : m.variantOf b = some v ↔ m.byteOf v = some b :=
  (OpcodeMap.variantOf_eq_some_iff hm).trans (OpcodeMap.byteOf_eq_some_iff hm).symm

theorem OpcodeMap.exists_byteOf (v : Opcode) : ∃ b, m.byteOf v = some b := by
  obtain ⟨htotal, -, -⟩ := OpcodeMap.wf_spec hm
  obtain ⟨b, hb⟩ := htotal v
  exact ⟨b, (OpcodeMap.byteOf_eq_some_iff hm).mpr hb⟩

end

/-- Settles O1: a search of a well-formed map, by variant or by byte, finds the one row there is. -/
theorem opcodeMapIsBijective : Obligations.OpcodeMapIsBijective := by
  refine ⟨OpcodeMap.reference_wf, fun m hm => ⟨fun v => ?_, fun b v => (OpcodeMap.variantOf_iff_byteOf hm).mp,
    fun v w heq => ?_⟩⟩
  · obtain ⟨b, hb⟩ := OpcodeMap.exists_byteOf hm v
    exact ⟨b, hb, (OpcodeMap.variantOf_iff_byteOf hm).mpr hb⟩
  · obtain ⟨b, hb⟩ := OpcodeMap.exists_byteOf hm v
    have hv : m.variantOf b = some v := (OpcodeMap.variantOf_iff_byteOf hm).mpr hb
    have hw : m.variantOf b = some w := (OpcodeMap.variantOf_iff_byteOf hm).mpr (heq ▸ hb)
    exact Option.some.inj (hv.symm.trans hw)

/-! Operand fields. `readOperands` is one field after another, from any source, and then the instruction made of them. -/

section

variable {m : Type → Type} [Monad m]

/-- The next field, of a given kind. -/
def FieldSource.field (src : FieldSource m) : FieldKind → m Field
  | .reg => do return .reg (← src.reg)
  | .short => do return .short (← src.short)

/-- The next fields, of given kinds. -/
def FieldSource.fields (src : FieldSource m) : List FieldKind → m (List Field)
  | [] => return []
  | k :: ks => do
    let f ← src.field k
    let fs ← src.fields ks
    return f :: fs

end

/-- Fields of a list of kinds and then of another. -/
theorem FieldSource.fields_append {m : Type → Type} [Monad m] [LawfulMonad m] (src : FieldSource m) (ks ls : List FieldKind) :
    src.fields (ks ++ ls) = do
      let fs ← src.fields ks
      let gs ← src.fields ls
      return fs ++ gs := by
  induction ks with
  | nil => simp [FieldSource.fields]
  | cons k ks ih => simp [FieldSource.fields, ih]

/-- Supplies the fields of a list. -/
def listSource : FieldSource (StateT (List Field) Option) where
  reg
    | .reg r :: fs => some (r, fs)
    | _ => none
  short
    | .short v :: fs => some (v, fs)
    | _ => none

/-- The instruction of a variant with given operand fields; where they do not fit its shape, no matter which. -/
def Opcode.assemble (v : Opcode) (fs : List Field) : Instr :=
  match readOperands listSource v fs with
  | some (i, _) => i
  | none => .halt

/-- Operand fetch of every variant, said once: the fields of its shape in order, then the instruction (R91). -/
theorem readOperands_eq_fields {m : Type → Type} [Monad m] [LawfulMonad m] (src : FieldSource m) (v : Opcode) :
    readOperands src v = v.assemble <$> src.fields v.shape.fieldKinds := by
  cases v <;>
    simp only [readOperands, readReg, readShort, readShortReg, readRegReg, readRegShort, readShortShort, readShortRegReg,
      Opcode.shape, Shape.fieldKinds, FieldSource.fields, FieldSource.field, map_eq_pure_bind, bind_assoc, pure_bind] <;>
    rfl

/-- The operand fields of an instruction are of the kinds of its shape (R92, R94). -/
theorem Instr.kinds_fields (i : Instr) : i.fields.map Field.kind = i.opcode.shape.fieldKinds := by cases i <;> rfl

theorem Opcode.assemble_fields (i : Instr) : i.opcode.assemble i.fields = i := by cases i <;> rfl

theorem map_kind_eq_reg_cons {fs : List Field} {ks : List FieldKind} :
    fs.map Field.kind = .reg :: ks ↔ ∃ r gs, fs = .reg r :: gs ∧ gs.map Field.kind = ks := by
  rcases fs with _ | ⟨_ | _, gs⟩ <;> simp [Field.kind]

theorem map_kind_eq_short_cons {fs : List Field} {ks : List FieldKind} :
    fs.map Field.kind = .short :: ks ↔ ∃ v gs, fs = .short v :: gs ∧ gs.map Field.kind = ks := by
  rcases fs with _ | ⟨_ | _, gs⟩ <;> simp [Field.kind]

/-- Fields of the kinds of a variant's shape are the fields of an instruction of that variant. -/
theorem Opcode.opcode_fields_assemble (v : Opcode) (fs : List Field) :
    fs.map Field.kind = v.shape.fieldKinds → (v.assemble fs).opcode = v ∧ (v.assemble fs).fields = fs := by
  cases v <;>
    simp only [Opcode.shape, Shape.fieldKinds, map_kind_eq_reg_cons, map_kind_eq_short_cons, List.map_eq_nil_iff,
      forall_exists_index, and_imp] <;>
    intros <;> subst_vars <;> exact ⟨rfl, rfl⟩

/-! The byte decoder. -/

/-- A sequence of two readings accepts what the second accepts of what the first leaves. -/
theorem ByteReader.bind_eq_ok_iff {α β : Type} {x : ByteReader α} {f : α → ByteReader β} {bs rest : List Byte} {b : β} :
    (x >>= f) bs = .ok b rest ↔ ∃ a cs, x bs = .ok a cs ∧ f a cs = .ok b rest := by
  simp only [bind, EStateM.bind]
  cases x bs <;> simp

theorem ByteReader.pure_eq_ok_iff {α : Type} {a b : α} {bs rest : List Byte} :
    (pure a : ByteReader α) bs = .ok b rest ↔ a = b ∧ bs = rest := by
  simp [pure, EStateM.pure]

theorem ByteReader.byte_eq_ok_iff {bs rest : List Byte} {b : Byte} : ByteReader.byte bs = .ok b rest ↔ bs = b :: rest := by
  cases bs <;> simp [ByteReader.byte]

/-- The register ids are the bytes that name a register (R102). -/
theorem regOfByte_eq_some_iff {b : Byte} {r : Reg} : regOfByte b = some r ↔ b = r.id := by
  constructor
  · intro h
    have hid : r.id = b := by simpa using List.find?_some h
    exact hid.symm
  · rintro rfl
    exact Machine.regOfByte_id r

/-- Only the twelve ids name a register (R102). -/
theorem regOfByte_of_ge {b : Byte} (h : 0x0C ≤ b.toNat) : regOfByte b = none := by
  rw [Option.eq_none_iff_forall_ne_some]
  rintro r hr
  rw [regOfByte_eq_some_iff.mp hr] at h
  revert h
  cases r <;> decide

theorem ByteReader.reg_eq_ok_iff {bs rest : List Byte} {r : Reg} : ByteReader.reg bs = .ok r rest ↔ bs = r.id :: rest := by
  unfold ByteReader.reg
  simp only [ByteReader.bind_eq_ok_iff, ByteReader.byte_eq_ok_iff]
  constructor
  · rintro ⟨b, cs, rfl, h⟩
    cases hb : regOfByte b with
    | some q =>
      rw [hb] at h
      obtain ⟨rfl, rfl⟩ := ByteReader.pure_eq_ok_iff.mp h
      rw [regOfByte_eq_some_iff.mp hb]
    | none =>
      rw [hb] at h
      cases h
  · rintro rfl
    refine ⟨r.id, rest, rfl, ?_⟩
    rw [regOfByte_eq_some_iff.mpr rfl]
    rfl

theorem ByteReader.short_eq_ok_iff {bs rest : List Byte} {v : Word} :
    ByteReader.short bs = .ok v rest ↔ bs = highByte v :: lowByte v :: rest := by
  unfold ByteReader.short
  simp only [ByteReader.bind_eq_ok_iff, ByteReader.byte_eq_ok_iff, ByteReader.pure_eq_ok_iff]
  constructor
  · rintro ⟨high, _, rfl, low, cs, rfl, rfl, rfl⟩
    simp
  · rintro rfl
    exact ⟨_, _, rfl, _, _, rfl, Machine.wordOfBytes_highByte_lowByte v, rfl⟩

/-- What supplies the decoder with operand fields. -/
abbrev ByteReader.source : FieldSource ByteReader := ⟨ByteReader.reg, ByteReader.short⟩

/-- A field is read from exactly its own bytes (R95). -/
theorem ByteReader.field_eq_ok_iff {k : FieldKind} {bs rest : List Byte} {f : Field} :
    ByteReader.source.field k bs = .ok f rest ↔ f.kind = k ∧ bs = f.bytes ++ rest := by
  cases k <;>
    simp only [FieldSource.field, ByteReader.bind_eq_ok_iff, ByteReader.pure_eq_ok_iff, ByteReader.reg_eq_ok_iff,
      ByteReader.short_eq_ok_iff] <;>
    cases f <;> simp [Field.kind, Field.bytes]

/-- Fields of given kinds are read from exactly their bytes, in order (R94). -/
theorem ByteReader.fields_eq_ok_iff {ks : List FieldKind} {bs rest : List Byte} {fs : List Field} :
    ByteReader.source.fields ks bs = .ok fs rest ↔ fs.map Field.kind = ks ∧ bs = fs.flatMap Field.bytes ++ rest := by
  induction ks generalizing bs rest fs with
  | nil =>
    simp only [FieldSource.fields, ByteReader.pure_eq_ok_iff, List.map_eq_nil_iff]
    constructor
    · rintro ⟨rfl, rfl⟩
      exact ⟨rfl, rfl⟩
    · rintro ⟨rfl, rfl⟩
      exact ⟨rfl, rfl⟩
  | cons k ks ih =>
    simp only [FieldSource.fields, ByteReader.bind_eq_ok_iff, ByteReader.pure_eq_ok_iff, ByteReader.field_eq_ok_iff, ih]
    constructor
    · rintro ⟨f, _, ⟨rfl, rfl⟩, gs, _, ⟨rfl, rfl⟩, rfl, rfl⟩
      simp
    · rintro ⟨h, rfl⟩
      obtain ⟨f, gs, rfl, rfl, rfl⟩ := List.map_eq_cons_iff.mp h
      exact ⟨f, _, ⟨rfl, by simp⟩, gs, _, ⟨rfl, rfl⟩, rfl, rfl⟩

/-- The operand fields of a variant are read from exactly the bytes of the fields of the instruction. -/
theorem ByteReader.readOperands_eq_ok_iff {v : Opcode} {bs rest : List Byte} {i : Instr} :
    readOperands ByteReader.source v bs = .ok i rest ↔ i.opcode = v ∧ bs = i.fields.flatMap Field.bytes ++ rest := by
  simp only [readOperands_eq_fields, map_eq_pure_bind, ByteReader.bind_eq_ok_iff, ByteReader.pure_eq_ok_iff,
    ByteReader.fields_eq_ok_iff]
  constructor
  · rintro ⟨fs, _, ⟨hkinds, rfl⟩, rfl, rfl⟩
    obtain ⟨hop, hfields⟩ := v.opcode_fields_assemble fs hkinds
    exact ⟨hop, by rw [hfields]⟩
  · rintro ⟨rfl, rfl⟩
    exact ⟨i.fields, rest, ⟨i.kinds_fields, rfl⟩, Opcode.assemble_fields i, rfl⟩

/-- The decoder, said once: it accepts a byte that selects the variant of an instruction followed by the bytes of its fields,
and nothing else (R94, R99, R102). -/
theorem decode_eq_ok_iff {m : OpcodeMap} {bs rest : List Byte} {i : Instr} :
    decode m bs = .ok (i, rest) ↔
      ∃ b, m.variantOf b = some i.opcode ∧ bs = b :: (i.fields.flatMap Field.bytes ++ rest) := by
  have hread : decode m bs = .ok (i, rest) ↔ ByteReader.instr m bs = .ok i rest := by
    unfold decode
    cases ByteReader.instr m bs <;> simp
  rw [hread]
  unfold ByteReader.instr
  simp only [ByteReader.bind_eq_ok_iff, ByteReader.byte_eq_ok_iff]
  constructor
  · rintro ⟨b, cs, rfl, h⟩
    cases hb : m.variantOf b with
    | some v =>
      rw [hb] at h
      obtain ⟨rfl, rfl⟩ := ByteReader.readOperands_eq_ok_iff.mp h
      exact ⟨b, hb, rfl⟩
    | none =>
      rw [hb] at h
      cases h
  · rintro ⟨b, hb, rfl⟩
    refine ⟨b, _, rfl, ?_⟩
    rw [hb]
    exact ByteReader.readOperands_eq_ok_iff.mpr ⟨rfl, rfl⟩

/-- The encoder under a map that gives the variant a byte (R94). -/
theorem encode_of_byteOf {m : OpcodeMap} {i : Instr} {b : Byte} (h : m.byteOf i.opcode = some b) :
    encode m i = some (b :: i.fields.flatMap Field.bytes) := by
  simp only [encode, h, Option.map_some]

/-- A field takes as many bytes as its kind says (R92, R95). -/
theorem Field.length_bytes (f : Field) : f.bytes.length = f.kind.width := by cases f <;> rfl

/-- The opcode byte and the bytes of the fields are as many as the shape says (R92). -/
theorem Instr.length_eq (i : Instr) : i.length = 1 + (i.fields.flatMap Field.bytes).length := by
  rw [Instr.length, Shape.length, ← i.kinds_fields, List.map_map, List.length_flatMap]
  simp only [Field.length_bytes, Function.comp_def]

/-- Settles O2: the encoding begins with the byte that selects the variant, and the decoder accepts it. -/
theorem decodeOfEncodeIsInstruction : Obligations.DecodeOfEncodeIsInstruction := by
  intro m i rest hm
  obtain ⟨b, hb⟩ := OpcodeMap.exists_byteOf hm i.opcode
  refine ⟨_, encode_of_byteOf hb, ?_, decode_eq_ok_iff.mpr ⟨b, (OpcodeMap.variantOf_iff_byteOf hm).mpr hb, rfl⟩⟩
  rw [List.length_cons, i.length_eq, Nat.add_comm]

/-- Settles O3: the byte that selected the variant is the byte the encoder begins with. -/
theorem encodeOfDecodeIsBytes : Obligations.EncodeOfDecodeIsBytes := by
  intro m bs i rest hm h
  obtain ⟨b, hb, rfl⟩ := decode_eq_ok_iff.mp h
  exact ⟨_, encode_of_byteOf ((OpcodeMap.variantOf_iff_byteOf hm).mp hb), rfl⟩

/-- Settles O4: each word is the opcode byte of its variant and then the bytes of its fields. -/
theorem exampleWordsDecode : Obligations.ExampleWordsDecode := by
  refine ⟨?_, ?_, ?_, ?_, ?_, ?_, ?_, ?_⟩ <;> exact decode_eq_ok_iff.mpr ⟨_, by decide, rfl⟩

end Sys2Proof

/-! PROOFS. The statements about the encoding (30_encoding.md), the step and the run: an instruction is fetched field by field
from whatever devices answer, or the fetch stops at the first field that it cannot have; a run is one host step after another. -/

namespace Sys2Proof

namespace Machine

/-! Fetching. -/

/-- The state in which Ip has advanced by `n` and the peripherals have received the requests of `log`: what a completed fetch
leaves (R13, R25). -/
def State.fetched (s : State) (n : Nat) (log : List PeripheralRequest) : State :=
  (s.setReg .ip (s.reg .ip + BitVec.ofNat 16 n)).setLog log

theorem State.reg_ip_fetched (s : State) (n : Nat) (log : List PeripheralRequest) :
    (s.fetched n log).reg .ip = s.reg .ip + BitVec.ofNat 16 n := by
  rw [State.fetched, State.reg_setLog, State.reg_setReg_same]

theorem State.fetched_fetched (s : State) (n n' : Nat) (log log' : List PeripheralRequest) :
    (s.fetched n log).fetched n' log' = s.fetched (n + n') log' := by
  rw [State.fetched, State.reg_ip_fetched, State.fetched, State.setLog_setReg, State.setReg_setReg_same, State.setLog_setLog,
    BitVec.add_assoc, ← BitVec.ofNat_add]
  rfl

/-- The access that the next fetch makes. -/
theorem State.access_fetched (s : State) (n : Nat) (log : List PeripheralRequest) (op : BusOp) :
    (s.fetched n log).access (s.fetched n log).peripheralLog op ((s.fetched n log).reg .ip)
      = s.access log op (s.reg .ip + BitVec.ofNat 16 n) := by
  rw [State.reg_ip_fetched]
  exact State.access_of_mapper rfl rfl _ _ _

/-- What fetches the operand fields at Ip. -/
abbrev fetchSource : FieldSource Op := ⟨fetchReg, fetchShort⟩

/-- A byte fetch that completes, whichever device serves it (R13). -/
theorem fetchByte_of_access {s : State} {v : Word} {log : List PeripheralRequest}
    (h : s.access s.peripheralLog .readByte (s.reg .ip) = .ok (v, log)) : fetchByte s = .ok (lowByte v) (s.fetched 1 log) := by
  have hread : memReadByte (s.reg .ip) s = .ok (lowByte v) (s.setLog log) := by
    unfold memReadByte
    rw [Op.bind_of_ok (busAccess_of_access h), State.after_readByte]
    rfl
  unfold fetchByte
  rw [getReg_bind, Op.bind_of_ok hread]
  rfl

/-- A 2-byte fetch that completes, whichever device serves it (R13). -/
theorem fetchShort_of_access {s : State} {v : Word} {log : List PeripheralRequest}
    (h : s.access s.peripheralLog .readShort (s.reg .ip) = .ok (v, log)) : fetchShort s = .ok v (s.fetched 2 log) := by
  have hread : memReadShort (s.reg .ip) s = .ok v (s.setLog log) := by
    unfold memReadShort
    rw [busAccess_of_access h, State.after_readShort]
  unfold fetchShort
  rw [getReg_bind, Op.bind_of_ok hread]
  rfl

/-- A fetch of a register field that holds a register's id (R13). -/
theorem fetchReg_of_access {s : State} {v : Word} {r : Reg} {log : List PeripheralRequest}
    (h : s.access s.peripheralLog .readByte (s.reg .ip) = .ok (v, log)) (hv : lowByte v = r.id) :
    fetchReg s = .ok r (s.fetched 1 log) := by
  unfold fetchReg
  rw [Op.bind_of_ok (fetchByte_of_access h), hv, regOfByte_id]
  rfl

/-- A fetch of a register field that holds no register's id: the fault names the byte and its own address (R13, R102). -/
theorem fetchReg_of_bad_byte {s : State} {v : Word} {log : List PeripheralRequest}
    (h : s.access s.peripheralLog .readByte (s.reg .ip) = .ok (v, log)) (hv : 0x0C ≤ (lowByte v).toNat) :
    fetchReg s = .error (.fault (.decodeRegister (lowByte v) (s.reg .ip))) (s.fetched 1 log) := by
  unfold fetchReg
  rw [Op.bind_of_ok (fetchByte_of_access h), regOfByte_of_ge hv]
  simp only [getReg_bind, raise_apply, State.reg_ip_fetched]
  rw [BitVec.ofNat_eq_ofNat, BitVec.add_sub_cancel]

/-- A fetch of a field whose access stops, stops so (R13). -/
theorem fetchField_of_busAccess_error {k : FieldKind} {s t : State} {e : Stop}
    (h : busAccess k.readOp (s.reg .ip) s = .error e t) : fetchSource.field k s = .error e t := by
  cases k with
  | reg =>
    have hbyte : fetchByte s = .error e t := by
      unfold fetchByte
      rw [getReg_bind]
      exact Op.bind_of_error (Op.bind_of_error h)
    exact Op.bind_of_error (Op.bind_of_error hbyte)
  | short =>
    have hshort : fetchShort s = .error e t := by
      unfold fetchShort
      rw [getReg_bind]
      exact Op.bind_of_error h
    exact Op.bind_of_error hshort

/-- One field fetched and then the others. -/
theorem fetchFields_cons {f : Field} {fs : List Field} {s t u : State} (hf : fetchSource.field f.kind s = .ok f t)
    (hfs : fetchSource.fields (fs.map Field.kind) t = .ok fs u) :
    fetchSource.fields ((f :: fs).map Field.kind) s = .ok (f :: fs) u := by
  rw [List.map_cons, FieldSource.fields, Op.bind_of_ok hf, Op.bind_of_ok hfs]
  rfl

/-- The fields that are there are fetched: Ip advances by their bytes, and the peripherals that answered have received one
request for each access (R13, R69). -/
theorem fetchFields_of_fetchesFields {s : State} {fs : List Field} {n : Nat} {log log' : List PeripheralRequest}
    (h : s.fetchesFields log (s.reg .ip + BitVec.ofNat 16 n) fs log') :
    fetchSource.fields (fs.map Field.kind) (s.fetched n log)
      = .ok fs (s.fetched (n + (fs.flatMap Field.bytes).length) log') := by
  induction fs generalizing n log with
  | nil =>
    cases h
    rfl
  | cons f fs ih =>
    have hrest : ∀ log₁, s.fetchesFields log₁ (s.reg .ip + BitVec.ofNat 16 n + BitVec.ofNat 16 f.bytes.length) fs log' →
        fetchSource.fields (fs.map Field.kind) ((s.fetched n log).fetched f.bytes.length log₁)
          = .ok fs (s.fetched (n + ((f :: fs).flatMap Field.bytes).length) log') := fun log₁ h₁ => by
      rw [BitVec.add_assoc, ← BitVec.ofNat_add] at h₁
      rw [State.fetched_fetched, ih h₁, List.flatMap_cons, List.length_append, Nat.add_assoc]
    cases f with
    | reg r =>
      obtain ⟨v, log₁, ha, hv, h₁⟩ := h
      rw [← State.access_fetched] at ha
      exact fetchFields_cons (Op.bind_of_ok (fetchReg_of_access ha hv)) (hrest log₁ h₁)
    | short v =>
      obtain ⟨log₁, ha, h₁⟩ := h
      rw [← State.access_fetched] at ha
      exact fetchFields_cons (Op.bind_of_ok (fetchShort_of_access ha)) (hrest log₁ h₁)

/-- A field that cannot be fetched, after fields that can, stops the operand fetch. -/
theorem fetchFields_of_field_error {before : List Field} {k : FieldKind} {after : List FieldKind} {s t u : State} {e : Stop}
    (hbefore : fetchSource.fields (before.map Field.kind) s = .ok before t) (hk : fetchSource.field k t = .error e u) :
    fetchSource.fields (before.map Field.kind ++ k :: after) s = .error e u := by
  rw [FieldSource.fields_append, Op.bind_of_ok hbefore]
  exact Op.bind_of_error (Op.bind_of_error hk)

/-- A fetched opcode byte that selects a variant: the fields of its shape are fetched after it (R90, R91). -/
theorem fetchInstr_of_access {s : State} {b : Word} {v : Opcode} {log : List PeripheralRequest}
    (h : s.access s.peripheralLog .readByte (s.reg .ip) = .ok (b, log))
    (hv : s.params.opcodeMap.variantOf (lowByte b) = some v) :
    fetchInstr s = (v.assemble <$> fetchSource.fields v.shape.fieldKinds) (s.fetched 1 log) := by
  unfold fetchInstr
  rw [getReg_bind, Op.bind_of_ok (fetchByte_of_access h), getParams_bind,
    show (s.fetched 1 log).params = s.params from rfl, hv, ← readOperands_eq_fields]

/-- Everything up to a field: the fields before it have been fetched where the operand fetch began, and Ip stands at it. -/
theorem State.fetches_spec {s : State} {v : Opcode} {before : List Field} {log : List PeripheralRequest}
    (h : s.fetches v before log) :
    ∃ t, fetchInstr s = (v.assemble <$> fetchSource.fields v.shape.fieldKinds) t
      ∧ fetchSource.fields (before.map Field.kind) t
        = .ok before (s.fetched (1 + (before.flatMap Field.bytes).length) log) := by
  obtain ⟨b, log₁, ha, hv, hfields⟩ := h
  exact ⟨s.fetched 1 log₁, fetchInstr_of_access ha hv, fetchFields_of_fetchesFields hfields⟩

/-- An instruction that is there is fetched (R90, R91). -/
theorem fetchInstr_of_fetches {s : State} {i : Instr} {log : List PeripheralRequest}
    (h : s.fetches i.opcode i.fields log) : fetchInstr s = .ok i ((s.afterFetch i).setLog log) := by
  obtain ⟨t, hinstr, hfields⟩ := State.fetches_spec h
  rw [i.kinds_fields] at hfields
  rw [hinstr, map_eq_pure_bind, Op.bind_of_ok hfields, Op.pure_apply, Opcode.assemble_fields, ← i.length_eq]
  rfl

/-- The step of a running machine where a field cannot be fetched, after the opcode and the fields before it have been. -/
theorem step_of_field_error {s u : State} {v : Opcode} {before : List Field} {k : FieldKind} {after : List FieldKind}
    {log : List PeripheralRequest} {e : Stop} (hrun : s.runState = .running)
    (hshape : v.shape.fieldKinds = before.map Field.kind ++ k :: after) (h : s.fetches v before log)
    (hk : fetchSource.field k (s.fetched (1 + (before.flatMap Field.bytes).length) log) = .error e u) :
    step s = stopOutcome e u := by
  obtain ⟨t, hinstr, hbefore⟩ := State.fetches_spec h
  have hfetch : fetchInstr s = .error e u := by
    rw [hinstr, hshape, map_eq_pure_bind]
    exact Op.bind_of_error (fetchFields_of_field_error hbefore hk)
  simp only [step, hrun, hfetch]

/-- Settles O49: what is there is fetched, and a running step executes what it fetches. -/
theorem fetchFromAnyDeviceRunsInstruction : Obligations.FetchFromAnyDeviceRunsInstruction := by
  intro s i log hrun h
  simp only [step, hrun, fetchInstr_of_fetches h]

/-- The address of a field, as the statements write it, is where Ip stands when it is fetched. -/
theorem State.reg_ip_fetched_one_add (s : State) (n : Nat) (log : List PeripheralRequest) :
    (s.fetched (1 + n) log).reg .ip = s.reg .ip + 1 + BitVec.ofNat 16 n := by
  rw [State.reg_ip_fetched, BitVec.ofNat_add, ← BitVec.add_assoc]
  rfl

/-- Settles O8: Ip stands at the field, whose byte is fetched, and its id is checked before anything after it is fetched. -/
theorem badRegisterByteFaults : Obligations.BadRegisterByteFaults := by
  intro s v before after a c log log' hrun hshape h ha hc hbad
  rw [← State.reg_ip_fetched_one_add s _ log] at ha
  subst ha
  have hk : fetchSource.field .reg (s.fetched _ log) = .error _ _ := Op.bind_of_error (fetchReg_of_bad_byte hc hbad)
  exact ⟨_, step_of_field_error hrun hshape h hk, rfl⟩

/-- Settles O10: Ip stands at the field, and its access is the next the step makes. -/
theorem operandFetchFaults : Obligations.OperandFetchFaults := by
  intro s v before k after a log hrun hshape h ha
  rw [← State.reg_ip_fetched_one_add s _ log] at ha
  subst ha
  exact stopsAsAccess_of_error (s := s.fetched _ log) fun e t he =>
    ⟨t, step_of_field_error hrun hshape h (fetchField_of_busAccess_error he)⟩

/-! Instructions that stand in memory. -/

/-- A byte that a Memory or Register device holds is read without a request to a peripheral. -/
theorem State.access_of_peekByte {s : State} {a : Word} {b : Byte} (h : s.peekByte a = some b)
    (log : List PeripheralRequest) : ∃ v, s.access log .readByte a = .ok (v, log) ∧ lowByte v = b := by
  unfold State.peekByte at h
  unfold State.access
  cases hr : s.reply .readByte a with
  | done v =>
    rw [hr] at h
    exact ⟨v, rfl, Option.some.inj h⟩
  | unmapped => rw [hr] at h; cases h
  | bounds => rw [hr] at h; cases h
  | external handle addr => rw [hr] at h; cases h

/-- A word that a Memory or Register device holds is read without a request to a peripheral. -/
theorem State.access_of_peekShort {s : State} {a v : Word} (h : s.peekShort a = some v) (log : List PeripheralRequest) :
    s.access log .readShort a = .ok (v, log) := by
  unfold State.access
  rw [State.peekShort_eq_some.mp h]

/-- Fields that stand in memory are fetched without a request to a peripheral. -/
theorem State.fetchesFields_of_holdsFields {s : State} {a : Word} {fs : List Field} (h : s.holdsFields a fs)
    (log : List PeripheralRequest) : s.fetchesFields log a fs log := by
  induction fs generalizing a with
  | nil => rfl
  | cons f fs ih =>
    cases f with
    | reg r =>
      obtain ⟨hbyte, hrest⟩ := h
      obtain ⟨v, ha, hv⟩ := State.access_of_peekByte hbyte log
      exact ⟨v, log, ha, hv, ih hrest⟩
    | short v =>
      obtain ⟨hshort, hrest⟩ := h
      exact ⟨log, State.access_of_peekShort hshort log, ih hrest⟩

/-- A running step executes the instruction that stands in memory at Ip: its opcode byte, selecting its variant, and then its
fields (R90). -/
theorem step_of_holdsFields {s : State} {i : Instr} {b : Byte} (hrun : s.runState = .running)
    (hb : s.peekByte (s.reg .ip) = some b) (hv : s.params.opcodeMap.variantOf b = some i.opcode)
    (hfields : s.holdsFields (s.reg .ip + 1) i.fields) : step s = exec i (s.afterFetch i) := by
  obtain ⟨w, ha, rfl⟩ := State.access_of_peekByte hb s.peripheralLog
  exact fetchFromAnyDeviceRunsInstruction s i s.peripheralLog hrun
    ⟨w, _, ha, hv, State.fetchesFields_of_holdsFields hfields _⟩

/-- Settles O5: under a well-formed map the byte of the variant selects it. -/
theorem stepRunsDecodedInstruction : Obligations.StepRunsDecodedInstruction := by
  rintro s i hrun hm ⟨⟨b, hbyte, hb⟩, hfields⟩
  exact step_of_holdsFields hrun hb ((OpcodeMap.variantOf_iff_byteOf hm).mpr hbyte) hfields

/-- On a platform of one auto-wrapped Memory, a word within the capacity reads the bytes at its two indices (R53, R64). -/
theorem State.peekShort_of_autoWrap {s : State} {capacity : Nat} {bytes : Memory}
    (h : s.mapper = Mapper.autoWrap capacity bytes) {a : Word} (ha : a.toNat + 1 < capacity) :
    s.peekShort a = some (wordOfBytes (bytes.read a.toNat) (bytes.read (a.toNat + 1))) := by
  have hin : 0 ≤ a.toNat ∧ a.toNat ≤ capacity - 1 := by omega
  rw [State.peekShort_eq_some]
  simp only [State.reply, h, Mapper.autoWrap, Mapper.reply, if_pos hin, deviceAddress_zero, Device.reply, ramReply, if_pos ha]

/-- The bytes of a Memory from an index on: the byte there, and the bytes from the next index on. -/
theorem Memory.map_read_range'_eq_cons {bytes : Memory} {n k : Nat} {b : Byte} {bs : List Byte}
    (h : (List.range' n k).map bytes.read = b :: bs) :
    bytes.read n = b ∧ (List.range' (n + 1) (k - 1)).map bytes.read = bs := by
  obtain ⟨_, _, hrange, hb, hbs⟩ := List.map_eq_cons_iff.mp h
  obtain ⟨rfl, -, rfl⟩ := List.range'_eq_cons_iff.mp hrange
  exact ⟨hb, hbs⟩

/-- On one Memory over the whole space, fields whose bytes are the bytes of the Memory from index `n` on, and do not run past
0xFFFF, stand at address `n`. -/
theorem State.holdsFields_of_bytes {s : State} {bytes : Memory} (hm : s.mapper = Mapper.autoWrap 0x10000 bytes)
    {fs : List Field} {rest : List Byte} {n k : Nat}
    (hb : (List.range' n k).map bytes.read = fs.flatMap Field.bytes ++ rest)
    (hend : n + (fs.flatMap Field.bytes).length ≤ 0x10000) : s.holdsFields (BitVec.ofNat 16 n) fs := by
  induction fs generalizing n k with
  | nil => trivial
  | cons f fs ih =>
    rw [List.flatMap_cons, List.append_assoc] at hb
    rw [List.flatMap_cons, List.length_append] at hend
    cases f with
    | reg r =>
      rw [Field.length_bytes, Field.kind, FieldKind.width] at hend
      obtain ⟨hr, hrest⟩ := Memory.map_read_range'_eq_cons hb
      have hn : (BitVec.ofNat 16 n).toNat = n := Nat.mod_eq_of_lt (by omega)
      refine ⟨?_, ?_⟩
      · rw [State.peekByte_of_autoWrap hm (BitVec.isLt _), hn, hr]
      · rw [show BitVec.ofNat 16 n + 1 = BitVec.ofNat 16 (n + 1) from (BitVec.ofNat_add n 1).symm]
        exact ih hrest (by omega)
    | short v =>
      rw [Field.length_bytes, Field.kind, FieldKind.width] at hend
      obtain ⟨hhigh, hrest⟩ := Memory.map_read_range'_eq_cons hb
      obtain ⟨hlow, hrest⟩ := Memory.map_read_range'_eq_cons hrest
      have hn : (BitVec.ofNat 16 n).toNat = n := Nat.mod_eq_of_lt (by omega)
      refine ⟨?_, ?_⟩
      · rw [State.peekShort_of_autoWrap hm (by omega), hn, hhigh, hlow, wordOfBytes_highByte_lowByte]
      · rw [show BitVec.ofNat 16 n + 2 = BitVec.ofNat 16 (n + 1 + 1) from (BitVec.ofNat_add n 2).symm]
        exact ih hrest (by omega)

/-- Settles O6: the bytes the decoder accepts are the opcode byte and the bytes of the fields, which stand at Ip. -/
theorem flatMemoryStepRunsDecodedBytes : Obligations.FlatMemoryStepRunsDecodedBytes := by
  intro s bytes i rest hrun hm hdec hend
  obtain ⟨b, hv, hbytes⟩ := decode_eq_ok_iff.mp hdec
  have hrange : (List.range' (s.reg .ip).toNat 5).map bytes.read = b :: (i.fields.flatMap Field.bytes ++ rest) := by
    rw [List.range'_eq_map_range, List.map_map]
    exact hbytes
  obtain ⟨hb, hrest⟩ := Memory.map_read_range'_eq_cons hrange
  rw [i.length_eq, ← Nat.add_assoc] at hend
  have hfields : s.holdsFields (BitVec.ofNat 16 ((s.reg .ip).toNat + 1)) i.fields := State.holdsFields_of_bytes hm hrest hend
  rw [BitVec.ofNat_add, BitVec.ofNat_toNat, BitVec.setWidth_eq] at hfields
  refine step_of_holdsFields hrun ?_ hv hfields
  rw [State.peekByte_of_autoWrap hm (BitVec.isLt _), hb]

/-! Halting. -/

/-- The second state is Halted only if the first is. -/
def KeepsUnhalted (s t : State) : Prop := t.runState = .halted → s.runState = .halted

/-- A bus access leaves the run state alone, whichever device answers. -/
theorem busAccess_keeps_unhalted (op : BusOp) (a : Word) : (busAccess op a).Keeps KeepsUnhalted :=
  busAccess_keeps (R := KeepsUnhalted) (fun _ => id) (fun _ _ => id) (fun _ _ _ => id) a

/-- Settles O13: of the updates that instructions are made of, only Halt's makes the run state Halted; a fault makes it
Faulted. -/
theorem onlyHaltHalts : Obligations.OnlyHaltHalts := by
  intro i s t h hrun hhalted
  by_contra hi
  have hkeeps : KeepsUnhalted s t :=
    exec_keeps (R := KeepsUnhalted) (fun _ => id) (fun _ _ _ hst htu => hst ∘ htu) (hreg := fun _ _ _ => id)
      (hfault := fun _ _ hf => by cases hf) (hrs := busAccess_keeps_unhalted .readShort) (hfs := fun _ _ _ => id)
      (hws := fun _ a v => busAccess_keeps_unhalted (.writeShort v) a) (hhalt := fun hh => absurd hh hi) h
  rw [hkeeps hhalted] at hrun
  cases hrun

/-! The host's step and run (R308, R309). -/

/-- What a host step reports is the report of the run state it leaves (R308). -/
theorem hostStep_report {s t : State} {r : StepReport} (h : hostStep s = some (r, t)) : r = StepReport.of t.runState := by
  unfold hostStep at h
  cases hs : step s with
  | next u => rw [hs] at h; cases h; rfl
  | fault f => rw [hs] at h; cases h
  | refused f => rw [hs] at h; cases h

theorem StepReport.of_eq_continue_iff {r : RunState} : StepReport.of r = .continue ↔ r = .running := by
  cases r <;> simp [StepReport.of]

/-- A run in a terminal state reports it, however many steps are allowed (R309). -/
theorem runFor_of_not_running {s : State} (h : s.runState ≠ .running) (n : Nat) :
    runFor n s = some (StepReport.of s.runState, s) := by
  cases n with
  | zero => rfl
  | succ n =>
    unfold runFor
    cases hr : s.runState with
    | running => exact absurd hr h
    | halted => rfl
    | faulted k => rfl

/-- A run in the state Running whose first step completes goes on from the state it leaves (R309). -/
theorem runFor_succ_of_hostStep {s t : State} {r : StepReport} (hrun : s.runState = .running)
    (h : hostStep s = some (r, t)) (n : Nat) : runFor (n + 1) s = runFor n t := by
  simp only [runFor, hrun, h]

theorem runFor_succ_of_hang {s : State} (hrun : s.runState = .running) (h : hostStep s = none) (n : Nat) :
    runFor (n + 1) s = none := by
  simp only [runFor, hrun, h]

/-- A run of `j + k` steps is one of `k`, and then one of `j` from the state it leaves. -/
theorem runFor_add (j k : Nat) (s : State) : runFor (k + j) s = (runFor k s).bind fun p => runFor j p.2 := by
  induction k generalizing s with
  | zero => rw [Nat.zero_add]; rfl
  | succ k ih =>
    rw [Nat.add_right_comm]
    by_cases hrun : s.runState = .running
    · cases h : hostStep s with
      | some p => rw [runFor_succ_of_hostStep hrun h, runFor_succ_of_hostStep hrun h, ih]
      | none => rw [runFor_succ_of_hang hrun h, runFor_succ_of_hang hrun h, Option.bind_none]
    · rw [runFor_of_not_running hrun, runFor_of_not_running hrun, Option.bind_some, runFor_of_not_running hrun]

/-- What a run reports is the report of the run state it leaves (R309). -/
theorem runFor_report {n : Nat} {s t : State} {r : StepReport} (h : runFor n s = some (r, t)) :
    r = StepReport.of t.runState := by
  induction n generalizing s with
  | zero => cases h; rfl
  | succ n ih =>
    by_cases hrun : s.runState = .running
    · cases hs : hostStep s with
      | some p => rw [runFor_succ_of_hostStep hrun hs] at h; exact ih h
      | none => rw [runFor_succ_of_hang hrun hs] at h; cases h
    · rw [runFor_of_not_running hrun] at h
      cases h
      rfl

/-- A run of one step from the state Running is a host step. -/
theorem runFor_one {s : State} (hrun : s.runState = .running) : runFor 1 s = hostStep s := by
  cases hs : hostStep s with
  | some p =>
    obtain ⟨r, t⟩ := p
    rw [runFor_succ_of_hostStep hrun hs, hostStep_report hs]
    rfl
  | none => exact runFor_succ_of_hang hrun hs 0

/-- Settles O48: what a run does with more steps is a run from the state it leaves, and that state's run state is what it
reports. -/
theorem runRepeatsStep : Obligations.RunRepeatsStep := by
  intro s
  refine ⟨rfl, fun k t h => ?_, fun k r t h => runFor_report h, fun k j r t h hr => ?_, fun k j h => ?_⟩
  · rw [runFor_add, h, Option.bind_some]
    exact runFor_one (StepReport.of_eq_continue_iff.mp (runFor_report h).symm)
  · have hrep := runFor_report h
    have hrun : t.runState ≠ .running := fun e => hr (hrep.trans (StepReport.of_eq_continue_iff.mpr e))
    rw [runFor_add, h, Option.bind_some, runFor_of_not_running hrun, ← hrep]
  · rw [runFor_add, h, Option.bind_none]

end Machine

end Sys2Proof

/-! PROOFS. The statements about the move instructions (40_move.md), and which instructions write memory. A move is one register
write, or one 2-byte access at its address with at most a register write after it: how that access ends is how the move ends. -/

namespace Sys2Proof

namespace Machine

/-! Writes of one register. -/

/-- A register write changes that register alone (R23). -/
theorem changesOnly_setReg (s : State) (r : Reg) (v : Word) : changesOnly [r] s (s.setReg r v) :=
  ⟨fun _ hq => s.reg_setReg_other v (mt List.mem_singleton.mpr hq), s.fs_setReg r v, s.runState_setReg r v,
    s.mapper_setReg r v, s.peripheralLog_setReg r v, s.params_setReg r v, s.peekByte_setReg r v⟩

/-- An instruction whose execution is one register write puts its value there and changes nothing else. -/
theorem putsOnly_of_exec {i : Instr} {s : State} {r : Reg} {v : Word} (h : exec i s = .next (s.setReg r v)) :
    putsOnly i s r v.toNat :=
  ⟨_, h, congrArg BitVec.toNat (s.reg_setReg_same r v), changesOnly_setReg s r v⟩

/-- Settles O24: MoveLitReg is one register write. -/
theorem moveLitRegPutsLiteral : Obligations.MoveLitRegPutsLiteral :=
  fun lit r s => ⟨rfl, putsOnly_of_exec (s := s) (r := r) (v := lit) rfl⟩

/-- Settles O25: MoveRegReg is one register write, of the value that its first register has before it. -/
theorem moveRegRegCopies : Obligations.MoveRegRegCopies :=
  fun ra rb s => ⟨rfl, putsOnly_of_exec (s := s) (r := rb) (v := s.reg ra) rfl⟩

/-! Instructions that begin with a bus access. -/

/-- An access that an external peripheral responds to (R57). -/
theorem busAccess_of_respond {op : BusOp} {a : Word} {h l : Nat} {s : State} (hr : s.reply op a = .external h l)
    (hf : Config.peripheralFate s.peripheralLog ⟨h, l, op⟩ = .respond) :
    busAccess op a s = .ok (Config.peripheralData s.peripheralLog ⟨h, l, op⟩) (s.logRequest ⟨h, l, op⟩) := by
  rw [busAccess_of_external hr, askPeripheral, hf]

/-- An instruction that begins with a bus access ends as that access does where it does not complete. -/
theorem stopsAsAccess_of_exec {i : Instr} {s : State} {op : BusOp} {a : Word} {k : Word → Op Unit}
    (hexec : exec i s = finish (busAccess op a >>= k) s) : stopsAsAccess (exec i s) s s.peripheralLog op a :=
  stopsAsAccess_of_error fun e t herr => ⟨t, by rw [hexec, finish, Op.bind_of_error herr]⟩

/-- Where an instruction ends as its access does, it faults where no device that holds the address answers (R273, R274). -/
theorem accessFaults_of_stopsAsAccess {i : Instr} {s : State} {log : List PeripheralRequest} {op : BusOp} {a : Word}
    (hstops : stopsAsAccess (exec i s) s log op a) : accessFaults i s op a := by
  obtain ⟨hunmapped, hbounds, -⟩ := hstops
  exact ⟨hunmapped, hbounds⟩

/-- Where an instruction ends as its access does, what is left to say of an access at a peripheral is what holds if it
responds. -/
theorem peripheralServes_of_stopsAsAccess {i : Instr} {s : State} {op : BusOp} {a : Word} {h l : Nat} {done : State → Prop}
    (hstops : stopsAsAccess (exec i s) s s.peripheralLog op a) (hr : s.reply op a = .external h l)
    (hdone : Config.peripheralFate s.peripheralLog ⟨h, l, op⟩ = .respond →
      ∃ t, exec i s = .next t ∧ t.peripheralLog = ⟨h, l, op⟩ :: s.peripheralLog ∧ done t) :
    peripheralServes i s a ⟨h, l, op⟩ done := by
  obtain ⟨-, -, hext⟩ := hstops
  obtain ⟨hfail, hhang⟩ := hext h l hr
  unfold peripheralServes
  cases hf : Config.peripheralFate s.peripheralLog ⟨h, l, op⟩ with
  | respond => exact hdone hf
  | fail => exact hfail hf
  | hang => exact hhang hf

/-! Loads. -/

/-- An instruction that reads a word and puts it in a register loads that word and changes nothing else. -/
theorem loadsOnly_of_exec {i : Instr} {s : State} {a : Word} {r : Reg}
    (hexec : exec i s = finish (memReadShort a >>= setReg r) s) : loadsOnly i s a r := by
  have hstops := stopsAsAccess_of_exec hexec
  refine ⟨fun v hv => ?_, accessFaults_of_stopsAsAccess hstops,
    fun h l hr => peripheralServes_of_stopsAsAccess hstops hr fun hf => ?_⟩
  · exact putsOnly_of_exec (hexec.trans (finish_of_ok (Op.bind_of_ok (memReadShort_of_peekShort hv))))
  · refine ⟨_, hexec.trans (finish_of_ok (Op.bind_of_ok (busAccess_of_respond hr hf))), rfl, ?_⟩
    exact ⟨State.reg_setReg_same _ _ _, fun q hq => State.reg_setReg_other _ _ hq, rfl, rfl, rfl, rfl⟩

/-- Settles O27: both load moves are a word read and a register write. -/
theorem loadMovesLoad : Obligations.LoadMovesLoad :=
  fun _ _ _ _ => ⟨⟨rfl, loadsOnly_of_exec rfl⟩, ⟨rfl, loadsOnly_of_exec rfl⟩⟩

/-- Settles O28: the address that MoveLitOffReg reads is the sum of `Word`, which is modulo 2^16. -/
theorem offsetMoveLoads : Obligations.OffsetMoveLoads := by
  intro lit ro rd a s
  refine ⟨rfl, fun ha => ?_⟩
  have hsum : a = lit + s.reg ro := BitVec.eq_of_toNat_eq (ha.trans (BitVec.toNat_add lit (s.reg ro)).symm)
  subst hsum
  exact loadsOnly_of_exec rfl

/-! Stores. -/

/-- An instruction that writes a word stores that word and changes nothing else. -/
theorem storesOnly_of_exec {i : Instr} {s : State} {a v : Word} (hexec : exec i s = finish (memWriteShort a v) s) :
    storesOnly i s a v := by
  have hstops := stopsAsAccess_of_exec hexec
  refine ⟨fun hinv hheld => ?_, accessFaults_of_stopsAsAccess hstops,
    fun h l hr => peripheralServes_of_stopsAsAccess hstops hr fun hf => ?_⟩
  · have hword : (s.after (.writeShort v) a).peekShort a = some v := State.peekShort_after_same hinv v hheld
    refine ⟨_, hexec.trans (finish_of_ok (memWriteShort_of_hasShort v hheld)), hword, State.peekByte_of_peekShort hword, ?_⟩
    exact ⟨fun _ => s.peekByte_after_other v, Mapper.shape_after _ _ _ _, fun _ => rfl, rfl, rfl, rfl, rfl⟩
  · refine ⟨_, hexec.trans (finish_of_ok (Op.bind_of_ok (busAccess_of_respond hr hf))), rfl, ?_⟩
    exact ⟨fun _ => rfl, rfl, rfl, rfl, rfl⟩

/-- Settles O26: both store moves are a word write. -/
theorem storeMovesStore : Obligations.StoreMovesStore :=
  fun _ _ _ _ => ⟨⟨rfl, storesOnly_of_exec rfl⟩, ⟨rfl, storesOnly_of_exec rfl⟩⟩

/-! Which instructions write memory. -/

/-- The devices with their bytes are the same, and so are the parameters, on which the byte at an address depends too (R60). -/
def SameMapperAndParams (s t : State) : Prop := t.mapper = s.mapper ∧ t.params = s.params

theorem SameMapperAndParams.trans (s t u : State) (hst : SameMapperAndParams s t) (htu : SameMapperAndParams t u) :
    SameMapperAndParams s u :=
  ⟨htu.1.trans hst.1, htu.2.trans hst.2⟩

/-- A 2-byte read changes no device, whichever answers (R71). -/
theorem busAccess_readShort_keeps_sameMapperAndParams (a : Word) : (busAccess .readShort a).Keeps SameMapperAndParams :=
  busAccess_keeps (fun _ => ⟨rfl, rfl⟩) (fun _ _ => ⟨Mapper.after_readShort _ _ _, rfl⟩) (fun _ _ _ => ⟨rfl, rfl⟩) a

/-- Settles O21: of the updates that instructions are made of, only a 2-byte write touches a device, and only the store moves,
the pushes and the calls make one. -/
theorem onlyStoresPushesAndCallsWriteMemory : Obligations.OnlyStoresPushesAndCallsWriteMemory := by
  intro i s t hi h
  obtain ⟨hmapper, hparams⟩ : SameMapperAndParams s t :=
    exec_keeps (fun _ => ⟨rfl, rfl⟩) .trans (hreg := fun _ _ _ => ⟨rfl, rfl⟩) (hfault := fun _ _ => ⟨rfl, rfl⟩)
      (hrs := busAccess_readShort_keeps_sameMapperAndParams) (hfs := fun _ _ _ => ⟨rfl, rfl⟩)
      (hws := fun hmem => absurd hmem hi) (hhalt := fun _ _ => ⟨rfl, rfl⟩) h
  exact ⟨hmapper, State.peekByte_of_mapper hmapper hparams⟩

end Machine

end Sys2Proof

/-! PROOFS. The statements about the arithmetic instructions (41_arithmetic.md). Each instruction is one register write, and the
numbers follow from what the operators of `Word` are on the naturals (R10). -/

namespace Sys2Proof

namespace Machine

/-- An instruction whose execution is one register write puts there the number that the written word stands for. -/
theorem putsOnly_of_exec_of_toNat {i : Instr} {s : State} {r : Reg} {v : Word} {n : Nat}
    (hexec : exec i s = .next (s.setReg r v)) (hn : v.toNat = n) : putsOnly i s r n := by
  subst hn
  exact putsOnly_of_exec hexec

/-- Settles O29: AddRegReg, IncReg and DecReg are one register write; R160's `-w 1` adds 65535 modulo 2^16. -/
theorem addIncDecResults : Obligations.AddIncDecResults := by
  intro ra rb s
  refine ⟨⟨rfl, ?add⟩, ⟨rfl, ?inc⟩, ⟨rfl, ?dec⟩⟩
  case add => exact putsOnly_of_exec_of_toNat rfl (BitVec.toNat_add (s.reg ra) (s.reg rb))
  case inc => exact putsOnly_of_exec_of_toNat rfl (BitVec.toNat_add (s.reg ra) 1)
  case dec => exact putsOnly_of_exec_of_toNat rfl (BitVec.toNat_sub' (s.reg ra) 1)

/-- Settles O30: each of the three is one register write, of a sum or a product of `Word`. -/
theorem addLitAndMulResults : Obligations.AddLitAndMulResults := by
  intro lit r ra rb s
  refine ⟨?add, ?mulLit, ?mulReg⟩
  case add => exact putsOnly_of_exec_of_toNat rfl (BitVec.toNat_add lit (s.reg r))
  case mulLit => exact putsOnly_of_exec_of_toNat rfl (BitVec.toNat_mul lit (s.reg r))
  case mulReg => exact putsOnly_of_exec_of_toNat rfl (BitVec.toNat_mul (s.reg ra) (s.reg rb))

/-- With the first operand as the minuend (R153), the second is subtracted from it modulo 2^16. -/
theorem toNat_subtract_first (x y : Word) :
    (subtract .first x y).toNat = (x.toNat + (65536 - y.toNat)) % 65536 :=
  BitVec.toNat_sub' x y

/-- With the second operand as the minuend (R153), the first is subtracted from it modulo 2^16. -/
theorem toNat_subtract_second (x y : Word) :
    (subtract .second x y).toNat = (y.toNat + (65536 - x.toNat)) % 65536 :=
  BitVec.toNat_sub' y x

/-- Settles O31: each Sub form is one register write, of the `subtract` of its operands in the order they are encoded in; the
split is on the minuend that SUB_ORDER names for the form. -/
theorem subResults : Obligations.SubResults := by
  intro lit r ra rb s
  refine ⟨putsOnly_of_exec_of_toNat rfl ?litReg, putsOnly_of_exec_of_toNat rfl ?regLit,
    putsOnly_of_exec_of_toNat rfl ?regReg, rfl⟩
  case litReg =>
    cases s.params.subOrder.litReg with
    | first => exact toNat_subtract_first lit (s.reg r)
    | second => exact toNat_subtract_second lit (s.reg r)
  case regLit =>
    cases s.params.subOrder.regLit with
    | first => exact toNat_subtract_first (s.reg r) lit
    | second => exact toNat_subtract_second (s.reg r) lit
  case regReg =>
    cases s.params.subOrder.regReg with
    | first => exact toNat_subtract_first (s.reg ra) (s.reg rb)
    | second => exact toNat_subtract_second (s.reg ra) (s.reg rb)

end Machine

end Sys2Proof

/-! PROOFS. The statements about the shift and logic instructions (42_bitwise.md). Each instruction is one register write, and its
result is read off the operator of `Word` (R10): a number for the shifts and Not, bits for And, Or and Xor. -/

namespace Sys2Proof

namespace Machine

/-! Shifts. -/

/-- Under `zero` (R171, D4) the whole count applies: a `Word` shifted left by 16 or more is 0. -/
theorem shiftLeft_zero (x n : Word) : shiftLeft .zero x n = x <<< n.toNat :=
  ite_eq_left_iff.mpr fun hn => (BitVec.shiftLeft_eq_zero (Nat.le_of_not_lt hn)).symm

/-- Under `zero` (R171, D4) the whole count applies: a `Word` shifted right by 16 or more is 0. -/
theorem shiftRight_zero (x n : Word) : shiftRight .zero x n = x >>> n.toNat :=
  ite_eq_left_iff.mpr fun hn => (BitVec.ushiftRight_eq_zero (Nat.le_of_not_lt hn)).symm

/-- A left shift by `k` places multiplies by `2 ^ k` modulo 2^16. -/
theorem toNat_word_shiftLeft (x : Word) (k : Nat) : (x <<< k).toNat = x.toNat * 2 ^ k % 65536 := by
  rw [BitVec.toNat_shiftLeft, Nat.shiftLeft_eq]

/-- A right shift by `k` places divides by `2 ^ k`. -/
theorem toNat_word_shiftRight (x : Word) (k : Nat) : (x >>> k).toNat = x.toNat / 2 ^ k := by
  rw [BitVec.toNat_ushiftRight, Nat.shiftRight_eq_div_pow]

/-- Settles O33: each shift form is one write of its first register, of the shifted operand; the split is on SHIFT_AMOUNT, which
says what the count is. -/
theorem shiftResults : Obligations.ShiftResults := by
  intro x n r ra rb s
  refine ⟨fun left right hcount => ?_, rfl⟩
  have hshifted : (shiftLeft s.params.shiftAmount x n).toNat = left
      ∧ (shiftRight s.params.shiftAmount x n).toNat = right := by
    cases hmode : s.params.shiftAmount with
    | mod16 =>
      rw [hmode] at hcount
      obtain ⟨rfl, rfl⟩ := hcount
      exact ⟨toNat_word_shiftLeft x _, toNat_word_shiftRight x _⟩
    | zero =>
      rw [hmode] at hcount
      obtain ⟨rfl, rfl⟩ := hcount
      rw [shiftLeft_zero, shiftRight_zero]
      exact ⟨toNat_word_shiftLeft x _, toNat_word_shiftRight x _⟩
  obtain ⟨hleft, hright⟩ := hshifted
  constructor
  case left =>
    rintro rfl
    exact ⟨putsOnly_of_exec_of_toNat rfl hleft, putsOnly_of_exec_of_toNat rfl hright⟩
  case right =>
    rintro rfl rfl
    exact ⟨putsOnly_of_exec_of_toNat rfl hleft, putsOnly_of_exec_of_toNat rfl hright⟩

/-! Logic. -/

/-- An instruction whose execution is one register write puts there the bits of the written word and changes nothing else. -/
theorem putsBits_of_exec {i : Instr} {s : State} {r : Reg} {v : Word} {bit : Nat → Bool}
    (hexec : exec i s = .next (s.setReg r v)) (hbit : ∀ k, v.getLsbD k = bit k) :
    ∃ t, exec i s = .next t ∧ changesOnly [r] s t ∧ ∀ k, k < 16 → (t.reg r).getLsbD k = bit k :=
  ⟨_, hexec, changesOnly_setReg s r v, fun k _ => by rw [State.reg_setReg_same, hbit]⟩

/-- Settles O32: each form is one register write; the bits are those that the operator of `Word` gives, and Not's number is
0xFFFF less its register's (R182). -/
theorem logicResults : Obligations.LogicResults := by
  intro lit r ra rb s
  refine ⟨⟨rfl, rfl, rfl, rfl, rfl, rfl, rfl⟩, ?andLit, ?andReg, ?orLit, ?orReg, ?xorLit, ?xorReg, ?not⟩
  case andLit => exact putsBits_of_exec rfl fun _ => BitVec.getLsbD_and
  case andReg => exact putsBits_of_exec rfl fun _ => BitVec.getLsbD_and
  case orLit => exact putsBits_of_exec rfl fun _ => BitVec.getLsbD_or
  case orReg => exact putsBits_of_exec rfl fun _ => BitVec.getLsbD_or
  case xorLit => exact putsBits_of_exec rfl fun _ => BitVec.getLsbD_xor
  case xorReg => exact putsBits_of_exec rfl fun _ => BitVec.getLsbD_xor
  case not => exact putsOnly_of_exec_of_toNat rfl BitVec.toNat_not

end Machine

end Sys2Proof

/-! PROOFS. The statements about the jumps (43_jump.md). Each jump is one write of Ip, of the target or of the value that Ip
has, and its condition is a relation between the numbers of the comparand and Acc (R190). -/

namespace Sys2Proof

namespace Machine

/-! Conditions. -/

/-- The relation that a condition is between two naturals (R190). -/
def Cond.rel : Cond → Nat → Nat → Prop
  | .notEq, m, n => m ≠ n
  | .eq, m, n => m = n
  | .lt, m, n => m < n
  | .gt, m, n => m > n
  | .lte, m, n => m ≤ n
  | .gte, m, n => m ≥ n

/-- A condition holds between two words where its relation holds between their unsigned values (R190). -/
theorem condHolds_iff (c : Cond) (v w : Word) : condHolds c v w = true ↔ c.rel v.toNat w.toNat := by
  cases c with
  | notEq => exact bne_iff_ne
  | eq => exact beq_iff_eq
  | lt | gt | lte | gte => exact decide_eq_true_iff

/-- NotEq is symmetric: either orientation asks whether the comparand differs from Acc. -/
theorem jumpCond_notEq_iff (o : JumpOrientation) (v acc : Word) :
    jumpCond o .notEq v acc = true ↔ v.toNat ≠ acc.toNat := by
  cases o with
  | comparandFirst => exact condHolds_iff .notEq v acc
  | accFirst => exact (condHolds_iff .notEq acc v).trans ne_comm

/-- Eq is symmetric: either orientation asks whether the comparand equals Acc. -/
theorem jumpCond_eq_iff (o : JumpOrientation) (v acc : Word) :
    jumpCond o .eq v acc = true ↔ v.toNat = acc.toNat := by
  cases o with
  | comparandFirst => exact condHolds_iff .eq v acc
  | accFirst => exact (condHolds_iff .eq acc v).trans eq_comm

/-! Jumps. -/

/-- A jump that is not taken writes to Ip the value it has (R191). -/
theorem jumpIf_eq_setReg_ip (c : Cond) (v addr : Word) (s : State) :
    jumpIf c v addr s
      = .ok () (s.setReg .ip (if jumpCond s.params.orientation c v (s.reg .acc) then addr else s.reg .ip)) := by
  rw [jumpIf_apply, apply_ite (s.setReg .ip), s.setReg_self]

/-- An instruction that is a jump puts its target in Ip exactly where its condition holds, and changes nothing else (R191). -/
theorem putsOnly_ip_of_jumpIf {i : Instr} {s : State} {c : Cond} {v addr : Word} {p : Prop} [Decidable p]
    (hcond : jumpCond s.params.orientation c v (s.reg .acc) = true ↔ p) (hexec : exec i s = finish (jumpIf c v addr) s) :
    putsOnly i s .ip (if p then addr.toNat else (s.reg .ip).toNat) := by
  refine putsOnly_of_exec_of_toNat (hexec.trans (finish_of_ok (jumpIf_eq_setReg_ip c v addr s))) ?_
  rw [apply_ite BitVec.toNat, if_congr hcond rfl rfl]

/-- Settles O34: each form is a jump, on a condition that no orientation changes. -/
theorem equalityJumps : Obligations.EqualityJumps := by
  intro r lit addr s
  refine ⟨⟨rfl, rfl, rfl, rfl⟩, ?notEqReg, ?notEqLit, ?eqReg, ?eqLit⟩
  case notEqReg => exact putsOnly_ip_of_jumpIf (jumpCond_notEq_iff _ (s.reg r) _) rfl
  case notEqLit => exact putsOnly_ip_of_jumpIf (jumpCond_notEq_iff _ lit _) rfl
  case eqReg => exact putsOnly_ip_of_jumpIf (jumpCond_eq_iff _ (s.reg r) _) rfl
  case eqLit => exact putsOnly_ip_of_jumpIf (jumpCond_eq_iff _ lit _) rfl

/-- Settles O35: each form is a jump; the split is on the orientation, which says whose numbers stand on the two sides of every
condition. -/
theorem orderingJumps : Obligations.OrderingJumps := by
  intro r lit addr s regLeft regRight litLeft litRight hsides
  obtain ⟨hreg, hlit⟩ :
      (∀ c, jumpCond s.params.orientation c (s.reg r) (s.reg .acc) = true ↔ c.rel regLeft regRight)
        ∧ ∀ c, jumpCond s.params.orientation c lit (s.reg .acc) = true ↔ c.rel litLeft litRight := by
    generalize s.params.orientation = o at hsides ⊢
    cases o with
    | comparandFirst =>
      obtain ⟨rfl, rfl, rfl, rfl⟩ := hsides
      exact ⟨fun c => condHolds_iff c (s.reg r) _, fun c => condHolds_iff c lit _⟩
    | accFirst =>
      obtain ⟨rfl, rfl, rfl, rfl⟩ := hsides
      exact ⟨fun c => condHolds_iff c _ (s.reg r), fun c => condHolds_iff c _ lit⟩
  refine ⟨?ltReg, ?ltLit, ?gtReg, ?gtLit, ?lteReg, ?lteLit, ?gteReg, ?gteLit⟩
  case ltReg => exact putsOnly_ip_of_jumpIf (hreg .lt) rfl
  case ltLit => exact putsOnly_ip_of_jumpIf (hlit .lt) rfl
  case gtReg => exact putsOnly_ip_of_jumpIf (hreg .gt) rfl
  case gtLit => exact putsOnly_ip_of_jumpIf (hlit .gt) rfl
  case lteReg => exact putsOnly_ip_of_jumpIf (hreg .lte) rfl
  case lteLit => exact putsOnly_ip_of_jumpIf (hlit .lte) rfl
  case gteReg => exact putsOnly_ip_of_jumpIf (hreg .gte) rfl
  case gteLit => exact putsOnly_ip_of_jumpIf (hlit .gte) rfl

end Machine

end Sys2Proof

/-! PROOFS. The statements about the stack instructions (44_stack.md). A push is one 2-byte write and the updates of Sp and FS
after it, a pop the same updates and one 2-byte read after them: how that access ends is how the instruction ends. Runs of
pushes and pops are the runs of Laws/Stack.lean, and the pops read back from the lowest address the pushes wrote at. -/

namespace Sys2Proof

namespace Machine

/-! Pushes. -/

/-- What a push does after its write (R220). -/
def countPushed : Op Unit := do
  setReg .sp ((← getReg .sp) - 2)
  setFs ((← getFs) + 2)

/-- A push begins with a bus access, at the Sp before it (R220). -/
theorem push_eq_busAccess_bind (v : Word) (s : State) :
    push v s = (busAccess (.writeShort v) (s.reg .sp) >>= fun _ => countPushed) s := by
  simp only [push, memWriteShort, countPushed, getReg_bind, bind_assoc, pure_bind]

/-- An instruction that pushes a word moves Sp and FS by that word and changes nothing else. -/
theorem pushesOnly_of_exec {i : Instr} {s : State} {v : Word} (hexec : exec i s = finish (push v) s) :
    pushesOnly i s v := by
  have hbegins : exec i s = finish (busAccess (.writeShort v) (s.reg .sp) >>= fun _ => countPushed) s := by
    rw [hexec, finish, finish, push_eq_busAccess_bind]
  have hstops := stopsAsAccess_of_exec hbegins
  refine ⟨fun hinv hheld => ?_, accessFaults_of_stopsAsAccess hstops,
    fun h l hr => peripheralServes_of_stopsAsAccess hstops hr fun hf => ?_⟩
  · refine ⟨_, hexec.trans (finish_of_ok (push_of_hasShort v hheld)), State.peekShort_after_same hinv v hheld,
      fun _ => s.peekByte_after_other v, Mapper.shape_after _ _ _ _, rfl, rfl, ?_, rfl, rfl, rfl⟩
    exact fun q hq => State.reg_setReg_other _ _ hq
  · refine ⟨_, hbegins.trans (finish_of_ok (Op.bind_of_ok (busAccess_of_respond hr hf))), rfl, ?_⟩
    exact ⟨rfl, rfl, fun q hq => State.reg_setReg_other _ _ hq, rfl, rfl, rfl⟩

/-- Settles O36: PushLit is a push of its literal. -/
theorem pushLitPushes : Obligations.PushLitPushes :=
  fun _ _ => ⟨rfl, pushesOnly_of_exec rfl⟩

/-- Settles O37: PushReg is a push of the value that its register has before it. -/
theorem pushRegPushes : Obligations.PushRegPushes :=
  fun _ _ => ⟨rfl, pushesOnly_of_exec rfl⟩

/-! Pops. -/

/-- Sp and FS as Pop leaves them, before it reads (R221). -/
def State.countPopped (s : State) : State := (s.setReg .sp (s.reg .sp + 2)).setFs (s.fs - 2)

/-- Pop is a 2-byte read at the new Sp and a register write (R221, R224). -/
theorem exec_pop (r : Reg) (s : State) :
    exec (.pop r) s = finish (busAccess .readShort (s.reg .sp + 2) >>= setReg r) s.countPopped := by
  simp only [exec, execPop, finish, pop, memReadShort, State.countPopped, bind_assoc, getReg_bind, setReg_bind, getFs_bind,
    setFs_bind, State.fs_setReg, State.reg_setFs, State.reg_setReg_same]

/-- A word put in a register after Sp and FS are counted: every register but that one and Sp keeps its value. -/
theorem State.reg_countPopped_setReg (s : State) (r : Reg) (v : Word) :
    (s.countPopped.setReg r v).reg r = v ∧ (r ≠ .sp → (s.countPopped.setReg r v).reg .sp = s.reg .sp + 2)
      ∧ ∀ q, q ≠ r → q ≠ .sp → (s.countPopped.setReg r v).reg q = s.reg q := by
  refine ⟨State.reg_setReg_same _ _ _, fun hr => ?_, fun q hq hsp => ?_⟩
  · rw [State.reg_setReg_other _ _ hr.symm]
    rfl
  · rw [State.reg_setReg_other _ _ hq]
    exact State.reg_setReg_other _ _ hsp

/-- Settles O38: Sp and FS are counted before the read, on which neither has a bearing, and the register is written last. -/
theorem popPops : Obligations.PopPops := by
  intro r s
  have hstops : stopsAsAccess (exec (.pop r) s) s s.peripheralLog .readShort (s.reg .sp + 2) :=
    stopsAsAccess_of_error (s := s.countPopped) fun e t herr => ⟨t, by rw [exec_pop, finish, Op.bind_of_error herr]⟩
  refine ⟨rfl, fun v hv => ?_, accessFaults_of_stopsAsAccess hstops,
    fun h l hr => peripheralServes_of_stopsAsAccess hstops hr fun hf => ?_⟩
  · obtain ⟨hgot, hsp, hothers⟩ := s.reg_countPopped_setReg r v
    have hread : busAccess .readShort (s.reg .sp + 2) s.countPopped = .ok v s.countPopped := memReadShort_of_peekShort hv
    exact ⟨_, (exec_pop r s).trans (finish_of_ok (Op.bind_of_ok hread)), hgot, hsp, hothers, rfl, rfl, rfl, rfl, rfl,
      fun _ => rfl⟩
  · obtain ⟨hgot, hsp, hothers⟩ := s.reg_countPopped_setReg r (Config.peripheralData s.peripheralLog ⟨h, l, .readShort⟩)
    have hread := busAccess_of_respond (s := s.countPopped) hr hf
    exact ⟨_, (exec_pop r s).trans (finish_of_ok (Op.bind_of_ok hread)), rfl, hgot, hsp, hothers, rfl, rfl, rfl, rfl⟩

/-! Runs of pushes and pops. -/

/-- Instructions after ones that complete. -/
theorem execAll_append_of_next {is : List Instr} {s t : State} (h : execAll is s = .next t) (js : List Instr) :
    execAll (is ++ js) s = execAll js t := by
  induction is generalizing s with
  | nil => cases h; rfl
  | cons i is ih =>
    rw [execAll] at h
    rw [List.cons_append, execAll]
    cases hi : exec i s with
    | next u => rw [hi] at h; exact ih h
    | fault f => rw [hi] at h; cases h
    | refused f => rw [hi] at h; cases h

/-- Pushing literals, where every word below Sp can be written (R220, R222). -/
theorem execAll_pushLit_of_hasShort (vs : List Word) (s : State) (hi : s.Inv) (hl : 2 * vs.length ≤ 65536)
    (h : ∀ a ∈ pushAddresses (s.reg .sp) vs.length, s.hasShort a) :
    ∃ t, execAll (vs.map Instr.pushLit) s = .next t ∧ PushedWords vs s t := by
  induction vs generalizing s with
  | nil => exact ⟨s, rfl, .nil hi⟩
  | cons v vs ih =>
    simp only [List.length_cons, pushAddresses, List.mem_cons, forall_eq_or_imp] at h hl
    obtain ⟨hheld, hbelow⟩ := h
    have hpush : exec (.pushLit v) s = .next (pushedState v s) := finish_of_ok (push_of_hasShort v hheld)
    obtain ⟨t, ht, p⟩ := ih (pushedState v s) (State.after_inv hi _ _) (by omega) fun a ha => by
      rw [pushedState, State.reg_setFs, State.reg_setReg_same] at ha
      exact (State.hasShort_after s _ _ a).mpr (hbelow a ha)
    refine ⟨t, ?_, .cons hl hi hheld p⟩
    rw [List.map_cons, execAll, hpush]
    exact ht

/-- Pops executed one after another are the run of pops that Ret makes. -/
theorem execAll_pop_of_popRegs {rs : List Reg} {s t : State} (h : popRegs rs s = .ok () t) :
    execAll (rs.map Instr.pop) s = .next t := by
  induction rs generalizing s with
  | nil => cases h; rfl
  | cons r rs ih =>
    rw [popRegs] at h
    cases hp : pop s with
    | ok v u =>
      rw [Op.bind_of_ok hp, setReg_bind] at h
      have hpop : exec (.pop r) s = .next (u.setReg r v) := finish_of_ok (Op.bind_of_ok hp)
      rw [List.map_cons, execAll, hpop]
      exact ih h
    | error e u => rw [Op.bind_of_error hp] at h; cases h

/-- The last of `n + 1` pops. -/
theorem popAddresses_succ (a : Word) (n : Nat) :
    popAddresses a (n + 1) = popAddresses a n ++ [a + BitVec.ofNat 16 (2 * (n + 1))] := by
  induction n generalizing a with
  | zero => rfl
  | succ n ih =>
    have hlast : a + 2 + BitVec.ofNat 16 (2 * (n + 1)) = a + BitVec.ofNat 16 (2 * (n + 1 + 1)) := by
      rw [Nat.mul_add 2 (n + 1), BitVec.ofNat_add]; bv_omega
    rw [popAddresses, ih (a + 2), popAddresses, List.cons_append, hlast]

/-- After `n` pushes, `n` pops read where the pushes wrote, the last first (R225). -/
theorem popAddresses_eq_reverse_pushAddresses (a : Word) (n : Nat) :
    popAddresses (a - BitVec.ofNat 16 (2 * n)) n = (pushAddresses a n).reverse := by
  induction n generalizing a with
  | zero => rfl
  | succ n ih =>
    have hlow : a - BitVec.ofNat 16 (2 * (n + 1)) = a - 2 - BitVec.ofNat 16 (2 * n) := by
      rw [Nat.mul_add, BitVec.ofNat_add]; bv_omega
    rw [popAddresses_succ, BitVec.sub_add_cancel, hlow, ih, pushAddresses, List.reverse_cons]

/-- There are twelve registers (R20). -/
theorem Reg.length_le_of_nodup {rs : List Reg} (h : rs.Nodup) : rs.length ≤ 12 := by
  have hall : ∀ r, r ∈ Reg.all := by intro r; cases r <;> decide
  exact (h.subperm fun r _ => hall r).length_le

/-- Settles O39: the pushes leave their words below Sp (`PushedWords`), the pops read them in the reverse order
(`PoppedInto`), and Sp and FS move back by as much as they moved. -/
theorem pushesThenPopsRestore : Obligations.PushesThenPopsRestore := by
  intro vs rs s hinv hlen hn hsp hheld
  have hfew := Reg.length_le_of_nodup hn
  obtain ⟨u, hpush, pushed⟩ := execAll_pushLit_of_hasShort vs s hinv (by omega) hheld
  have hwords : (popAddresses (u.reg .sp) rs.length).map u.peekShort = vs.reverse.map some := by
    rw [pushed.sp, hlen, popAddresses_eq_reverse_pushAddresses, List.map_reverse, pushed.words, List.map_reverse]
  obtain ⟨t, hpop, popped⟩ := popRegs_of_peekShort rs vs.reverse u hn hsp hwords
  have hspBack : t.reg .sp = s.reg .sp := by rw [popped.sp, pushed.sp, hlen, BitVec.sub_add_cancel]
  have hfsBack : t.fs = s.fs := by rw [popped.fs, pushed.fs, hlen, BitVec.add_sub_cancel]
  have hothers : ∀ q, q ∉ rs → t.reg q = s.reg q := fun q hq => by
    by_cases hqsp : q = .sp
    · rw [hqsp, hspBack]
    · rw [popped.others q hq hqsp, pushed.others q hqsp]
  exact ⟨t, (execAll_append_of_next hpush _).trans (execAll_pop_of_popRegs hpop), popped.got, hspBack, hfsBack, hothers,
    fun b hb => (State.peekByte_of_mapper popped.mapper popped.params b).trans (pushed.bytes b hb),
    popped.runState.trans pushed.runState, (congrArg Mapper.shape popped.mapper).trans pushed.shape,
    popped.peripheralLog.trans pushed.peripheralLog, popped.params.trans pushed.params⟩

end Machine

end Sys2Proof

/-! PROOFS. The statements about calls and returns (45_call.md). A call is ten pushes and a return eleven pops and those of the
arguments: each run ends as its accesses do (`EndsAs`), in the order they are made, whichever devices serve them. That one
fact of each, `call_endsAs` and `popState_endsAs`, says both where they complete, and with what, and where they stop; the
statements about memory alone are its special cases in which no access reaches a peripheral. -/

namespace Sys2Proof

namespace Machine

/-! Operations and the accesses they make. -/

/-- The result of an operation is as its accesses end: it completes where they do, `done` relating their data to its value and
to the state it leaves, and stops as the first of them that does not complete. -/
inductive EndsAs {α β : Type} (done : β → α → State → Prop) : EStateM.Result Stop State α → Except Stop β → Prop
  | ok {b : β} {a : α} {t : State} (h : done b a t) : EndsAs done (.ok a t) (.ok b)
  | error (e : Stop) (t : State) : EndsAs done (.error e t) (.error e)

section

variable {α β γ δ : Type} {x : Op α} {f : α → Op γ} {s t : State} {r : Except Stop β} {P : β → α → State → Prop}

theorem EndsAs.ok_of_result {a : α} (h : EndsAs P (x s) r) (hx : x s = .ok a t) : ∃ b, r = .ok b ∧ P b a t := by
  rw [hx] at h
  cases h with
  | ok hP => exact ⟨_, rfl, hP⟩

theorem EndsAs.error_of_result {e : Stop} (h : EndsAs P (x s) r) (hx : x s = .error e t) : r = .error e := by
  rw [hx] at h
  cases h
  rfl

/-- Operations in sequence make their accesses in sequence. -/
theorem EndsAs.bind {r' : β → Except Stop δ} {Q : δ → γ → State → Prop} (hx : EndsAs P (x s) r)
    (hf : ∀ b a t, P b a t → EndsAs Q (f a t) (r' b)) : EndsAs Q ((x >>= f) s) (r >>= r') := by
  rw [Op.bind_apply]
  generalize x s = res at hx
  cases hx with
  | ok hP => exact hf _ _ _ hP
  | error e t => exact .error e t

/-- After its last access an operation cannot stop. -/
theorem EndsAs.andThen {Q : β → γ → State → Prop} (hx : EndsAs P (x s) r)
    (hf : ∀ b a t, P b a t → ∃ c u, f a t = .ok c u ∧ Q b c u) : EndsAs Q ((x >>= f) s) r := by
  rw [Op.bind_apply]
  generalize x s = res at hx
  cases hx with
  | ok hP =>
    obtain ⟨c, u, hu, hQ⟩ := hf _ _ _ hP
    simp only [hu]
    exact .ok hQ
  | error e t => exact .error e t

theorem EndsAs.mono {Q : β → α → State → Prop} (hx : EndsAs P (x s) r) (hQ : ∀ b a t, P b a t → Q b a t) :
    EndsAs Q (x s) r := by
  generalize x s = res at hx ⊢
  cases hx with
  | ok hP => exact .ok (hQ _ _ _ hP)
  | error e t => exact .error e t

/-- The same accesses, with their data in another form. -/
theorem EndsAs.map {g : β → δ} {Q : δ → α → State → Prop} (hx : EndsAs P (x s) r)
    (hQ : ∀ b a t, P b a t → Q (g b) a t) : EndsAs Q (x s) (g <$> r) := by
  generalize x s = res at hx ⊢
  cases hx with
  | ok hP => exact .ok (hQ _ _ _ hP)
  | error e t => exact .error e t

end

/-- An instruction whose accesses complete has a next state. -/
theorem EndsAs.finish_ok {β : Type} {op : Op Unit} {s : State} {b : β} {P : β → Unit → State → Prop}
    (h : EndsAs P (op s) (.ok b)) : ∃ t, finish op s = .next t ∧ P b () t := by
  generalize hop : op s = res at h
  cases h with
  | ok hP => exact ⟨_, finish_of_ok hop, hP⟩

/-- An instruction one of whose accesses does not complete stops as it does. -/
theorem EndsAs.finish_error {β : Type} {op : Op Unit} {s : State} {e : Stop} {P : β → Unit → State → Prop}
    (h : EndsAs P (op s) (.error e)) : ∃ t, finish op s = stopOutcome e t := by
  generalize hop : op s = res at h
  cases h with
  | error _ t => exact ⟨t, by rw [finish, hop]⟩

/-- A bus access ends as `State.access` says. -/
theorem busAccess_endsAs (op : BusOp) (a : Word) (s : State) :
    EndsAs (fun p v t => v = p.1 ∧ t = (s.after op a).setLog p.2) (busAccess op a s) (s.access s.peripheralLog op a) := by
  rcases h : s.access s.peripheralLog op a with e | ⟨v, log⟩
  · unfold State.access at h
    cases hr : s.reply op a with
    | done w => rw [hr] at h; cases h
    | unmapped => rw [hr] at h; cases h; rw [busAccess_of_unmapped hr]; exact .error _ _
    | bounds => rw [hr] at h; cases h; rw [busAccess_of_bounds hr]; exact .error _ _
    | external hd l =>
      rw [hr] at h
      rw [busAccess_of_external hr, askPeripheral]
      cases hf : Config.peripheralFate s.peripheralLog ⟨hd, l, op⟩ <;> simp only [hf] at h ⊢ <;> cases h <;> exact .error _ _
  · rw [busAccess_of_access h]
    exact .ok ⟨rfl, rfl⟩

/-- A step that stops as the access does, after the requests of `log`, ends as it ends. -/
theorem stopsAsAccess_of_access_error {o : Host.Outcome State Fault Refusal} {s : State} {log : List PeripheralRequest}
    {op : BusOp} {a : Word} (h : ∀ e, s.access log op a = .error e → ∃ u, o = stopOutcome e u) :
    stopsAsAccess o s log op a :=
  stopsAsAccess_of_error (s := s.setLog log) fun e _ he => h e ((busAccess_endsAs op a (s.setLog log)).error_of_result he)

/-! Runs of accesses. -/

@[simp] theorem except_ok_bind {α β : Type} (a : α) (f : α → Except Stop β) : (Except.ok a >>= f) = f a := rfl

@[simp] theorem except_error_bind {α β : Type} (e : Stop) (f : α → Except Stop β) : (Except.error e >>= f) = .error e := rfl

theorem except_bind_eq_ok_iff {α β : Type} {r : Except Stop α} {f : α → Except Stop β} {b : β} :
    r >>= f = .ok b ↔ ∃ a, r = .ok a ∧ f a = .ok b := by
  cases r <;> simp

theorem State.accessAll_cons (s : State) (log : List PeripheralRequest) (x : BusOp × Word) (l : List (BusOp × Word)) :
    s.accessAll log (x :: l)
      = s.access log x.1 x.2 >>= fun p => (fun q => (p.1 :: q.1, q.2)) <$> s.accessAll p.2 l := by
  rw [State.accessAll]
  rcases s.access log x.1 x.2 with e | ⟨v, log₁⟩
  · rfl
  · dsimp only [except_ok_bind]
    cases s.accessAll log₁ l <;> rfl

theorem State.accessAll_append (s : State) (log : List PeripheralRequest) (l l' : List (BusOp × Word)) :
    s.accessAll log (l ++ l')
      = s.accessAll log l >>= fun p => (fun q => (p.1 ++ q.1, q.2)) <$> s.accessAll p.2 l' := by
  induction l generalizing log with
  | nil => exact (id_map _).symm
  | cons x l ih =>
    simp only [List.cons_append, State.accessAll_cons, ih, map_eq_pure_bind, bind_assoc, pure_bind]

theorem State.accessAll_singleton (s : State) (log : List PeripheralRequest) (op : BusOp) (a : Word) :
    s.accessAll log [(op, a)] = (fun p => ([p.1], p.2)) <$> s.access log op a := by
  rw [State.accessAll_cons, map_eq_pure_bind]
  rfl

theorem State.accessAll_length {s : State} {log log' : List PeripheralRequest} {l : List (BusOp × Word)} {vs : List Word}
    (h : s.accessAll log l = .ok (vs, log')) : vs.length = l.length := by
  induction l generalizing log vs with
  | nil => cases h; rfl
  | cons x l ih =>
    rw [State.accessAll_cons, except_bind_eq_ok_iff] at h
    obtain ⟨p, -, h⟩ := h
    cases hl : s.accessAll p.2 l with
    | error e => rw [hl] at h; cases h
    | ok q => rw [hl] at h; cases h; rw [List.length_cons, List.length_cons, ih hl]

theorem State.accessAll_append_eq_ok {s : State} {log log' : List PeripheralRequest} {l l' : List (BusOp × Word)}
    {vs : List Word} (h : s.accessAll log (l ++ l') = .ok (vs, log')) :
    ∃ ws log₁ ws', s.accessAll log l = .ok (ws, log₁) ∧ s.accessAll log₁ l' = .ok (ws', log') ∧ vs = ws ++ ws' := by
  rw [State.accessAll_append, except_bind_eq_ok_iff] at h
  obtain ⟨⟨ws, log₁⟩, hl, h⟩ := h
  cases hl' : s.accessAll log₁ l' with
  | error e => rw [hl'] at h; cases h
  | ok q => rw [hl'] at h; cases h; exact ⟨ws, log₁, q.1, hl, hl', rfl⟩

/-- A run of accesses stops at the first that does not complete. -/
theorem State.accessAll_append_cons_error {s : State} {log log' : List PeripheralRequest} {l : List (BusOp × Word)}
    {vs : List Word} {x : BusOp × Word} {e : Stop} (hbefore : s.accessAll log l = .ok (vs, log'))
    (hx : s.access log' x.1 x.2 = .error e) (l' : List (BusOp × Word)) : s.accessAll log (l ++ x :: l') = .error e := by
  rw [State.accessAll_append, hbefore, except_ok_bind, State.accessAll_cons, hx]
  rfl

/-- What a run of accesses is answered with depends on the mapper and the parameters alone. -/
theorem State.accessAll_of_mapper {s t : State} (h : t.mapper = s.mapper) (hp : t.params = s.params)
    (log : List PeripheralRequest) (l : List (BusOp × Word)) : t.accessAll log l = s.accessAll log l := by
  induction l generalizing log with
  | nil => rfl
  | cons x l ih => simp only [State.accessAll_cons, State.access_of_mapper h hp, ih]

/-- A run of accesses and then another: the second operation makes the second, answered as before the first. -/
theorem EndsAs.seq {α β : Type} {x : Op α} {f : α → Op β} {s : State} {l l' : List (BusOp × Word)}
    {P : List Word × List PeripheralRequest → α → State → Prop} {Q : List Word × List PeripheralRequest → β → State → Prop}
    (hx : EndsAs P (x s) (s.accessAll s.peripheralLog l))
    (hsame : ∀ p a t, P p a t → t.accessAll t.peripheralLog l' = s.accessAll p.2 l')
    (hf : ∀ p a t, P p a t → EndsAs (fun q => Q (p.1 ++ q.1, q.2)) (f a t) (t.accessAll t.peripheralLog l')) :
    EndsAs Q ((x >>= f) s) (s.accessAll s.peripheralLog (l ++ l')) := by
  rw [State.accessAll_append]
  refine hx.bind fun p a t hp => ?_
  rw [← hsame p a t hp]
  exact (hf p a t hp).map fun _ _ _ h => h

/-- An operation that makes one access. -/
theorem EndsAs.one {α : Type} {x : Op α} {s : State} {op : BusOp} {a : Word}
    {P : Word × List PeripheralRequest → α → State → Prop} {Q : List Word × List PeripheralRequest → α → State → Prop}
    (hx : EndsAs P (x s) (s.access s.peripheralLog op a)) (hQ : ∀ v log b t, P (v, log) b t → Q ([v], log) b t) :
    EndsAs Q (x s) (s.accessAll s.peripheralLog [(op, a)]) := by
  rw [State.accessAll_singleton]
  exact hx.map fun p => hQ p.1 p.2

@[simp] theorem State.accessAll_setReg (s : State) (r : Reg) (v : Word) (log : List PeripheralRequest)
    (l : List (BusOp × Word)) : (s.setReg r v).accessAll log l = s.accessAll log l :=
  State.accessAll_of_mapper (s := s) (t := s.setReg r v) rfl rfl log l

@[simp] theorem State.accessAll_setFs (s : State) (v : Word) (log : List PeripheralRequest) (l : List (BusOp × Word)) :
    (s.setFs v).accessAll log l = s.accessAll log l :=
  State.accessAll_of_mapper (s := s) (t := s.setFs v) rfl rfl log l

/-! The addresses of runs. -/

theorem sub_two_sub_ofNat (a : Word) (n : Nat) : a - 2 - BitVec.ofNat 16 (2 * n) = a - BitVec.ofNat 16 (2 * (n + 1)) := by
  rw [Nat.mul_add, BitVec.ofNat_add]; bv_omega

theorem add_two_add_ofNat (a : Word) (n : Nat) : a + 2 + BitVec.ofNat 16 (2 * n) = a + BitVec.ofNat 16 (2 * (n + 1)) := by
  rw [Nat.mul_add, BitVec.ofNat_add]; bv_omega

/-! Runs of pushes. -/

/-- Pushes words one after another. -/
def pushWords : List Word → Op Unit
  | [] => pure ()
  | v :: vs => do
    push v
    pushWords vs

/-- The writes of pushes from `a` on (R220). -/
def pushWrites (a : Word) (vs : List Word) : List (BusOp × Word) :=
  List.zipWith (fun a v => (.writeShort v, a)) (pushAddresses a vs.length) vs

theorem callWrites_eq_pushWrites (s : State) : callWrites s = pushWrites (s.reg .sp) (callWords s) := rfl

theorem pushWrites_cons (a v : Word) (vs : List Word) :
    pushWrites a (v :: vs) = (.writeShort v, a) :: pushWrites (a - 2) vs := rfl

theorem getElem?_pushWrites {a v : Word} {vs : List Word} {k : Nat} (h : vs[k]? = some v) :
    (pushWrites a vs)[k]? = some (.writeShort v, a - BitVec.ofNat 16 (2 * k)) := by
  induction vs generalizing a k with
  | nil => cases h
  | cons w ws ih =>
    cases k with
    | zero => cases h; simp [pushWrites_cons]
    | succ k => rw [pushWrites_cons, List.getElem?_cons_succ, ih h, sub_two_sub_ofNat]

/-- The devices after 2-byte writes at `a`, `a - 2` and so on. -/
def Mapper.afterPushes (mode : RegionAddressing) (m : Mapper) (a : Word) : List Word → Mapper
  | [] => m
  | v :: vs => Mapper.afterPushes mode (m.after mode a.toNat (.writeShort v)) (a - 2) vs

/-- The state after words pushed one after another, the peripherals having received the requests of `log`. -/
def State.pushed (s : State) (vs : List Word) (log : List PeripheralRequest) : State :=
  (((s.setMapper (s.mapper.afterPushes s.params.addressing (s.reg .sp) vs)).setReg .sp
    (s.reg .sp - BitVec.ofNat 16 (2 * vs.length))).setFs (s.fs + BitVec.ofNat 16 (2 * vs.length))).setLog log

theorem State.pushed_nil (s : State) : s.pushed [] s.peripheralLog = s := by
  unfold State.pushed
  simp only [List.length_nil, Nat.mul_zero, BitVec.sub_zero, BitVec.add_zero]
  exact congrArg (fun t : State => (t.setFs s.fs).setLog s.peripheralLog) (s.setReg_self .sp)

theorem State.pushed_cons (s : State) (v : Word) (vs : List Word) (log log' : List PeripheralRequest) :
    ((pushedState v s).setLog log).pushed vs log' = s.pushed (v :: vs) log' := by
  unfold State.pushed pushedState
  simp only [State.reg_setLog, State.reg_setFs, State.reg_setReg_same, State.fs_setLog, State.fs_setFs, List.length_cons,
    sub_two_sub_ofNat, add_two_add_ofNat]
  simp only [State.setLog, State.setFs, State.setReg, State.setMapper, RegFile.set_set_same]
  rfl

/-- A push ends as its write does (R220). -/
theorem push_endsAs (v : Word) (s : State) :
    EndsAs (fun p _ t => t = (pushedState v s).setLog p.2) (push v s)
      (s.accessAll s.peripheralLog [(.writeShort v, s.reg .sp)]) := by
  rw [push_eq_busAccess_bind]
  exact ((busAccess_endsAs _ _ _).andThen (Q := fun p _ t => t = (pushedState v s).setLog p.2)
    fun p _ t ⟨_, ht⟩ => ⟨(), _, rfl, by subst ht; rfl⟩).one fun _ _ _ _ h => h

/-- A push leaves the answers to writes as they are. -/
theorem State.accessAll_pushWrites_pushedState (s : State) (v a : Word) (vs : List Word) (log log' : List PeripheralRequest) :
    ((pushedState v s).setLog log').accessAll log (pushWrites a vs) = s.accessAll log (pushWrites a vs) := by
  induction vs generalizing a log with
  | nil => rfl
  | cons w ws ih =>
    have haccess : ((pushedState v s).setLog log').access log (.writeShort w) a = s.access log (.writeShort w) a :=
      s.access_writeShort_after (.writeShort v) (s.reg .sp) a w log
    simp only [pushWrites_cons, State.accessAll_cons, haccess, ih]

/-- A run of pushes ends as its writes do. -/
theorem pushWords_endsAs (vs : List Word) (s : State) :
    EndsAs (fun p _ t => t = s.pushed vs p.2) (pushWords vs s) (s.accessAll s.peripheralLog (pushWrites (s.reg .sp) vs)) := by
  induction vs generalizing s with
  | nil => exact .ok s.pushed_nil.symm
  | cons v vs ih =>
    refine (push_endsAs v s).seq (l' := pushWrites (s.reg .sp - 2) vs) (fun p _ t ht => ?_) fun p _ t ht => ?_
    · subst ht
      exact s.accessAll_pushWrites_pushedState v _ vs p.2 p.2
    · subst ht
      exact (ih _).mono fun q _ t ht => ht.trans (s.pushed_cons v vs p.2 q.2)

theorem pushWords_append (vs ws : List Word) : pushWords (vs ++ ws) = pushWords vs >>= fun _ => pushWords ws := by
  induction vs with
  | nil => rfl
  | cons v vs ih => simp only [List.cons_append, pushWords, ih, bind_assoc]

/-! What pushed words leave in memory. -/

/-- A word pushed does not overlap the words pushed after it. -/
theorem pushAddresses_succ_apart {a b : Word} {n : Nat} (hn : 2 * (n + 1) ≤ 65536) (hb : b ∈ pushAddresses (a - 2) n) :
    b.toNat + 1 < a.toNat ∨ a.toNat + 1 < b.toNat := by
  obtain ⟨k, hk, rfl⟩ := mem_pushAddresses.mp hb
  rw [sub_two_sub_ofNat]
  exact pushAddresses_apart (by omega) (by omega)

/-- Pushes change no device's kind or capacity (R32). -/
theorem Mapper.shape_afterPushes (mode : RegionAddressing) (m : Mapper) (a : Word) (vs : List Word) :
    (m.afterPushes mode a vs).shape = m.shape := by
  induction vs generalizing m a with
  | nil => rfl
  | cons v vs ih => exact (ih _ _).trans (Mapper.shape_after _ _ _ _)

/-- Pushes leave every byte alone that none of them writes. -/
theorem State.peekByte_pushed {s : State} {vs : List Word} {b : Word} (log : List PeripheralRequest)
    (hb : ∀ a ∈ pushAddresses (s.reg .sp) vs.length, b.toNat ≠ a.toNat ∧ b.toNat ≠ a.toNat + 1) :
    (s.pushed vs log).peekByte b = s.peekByte b := by
  induction vs generalizing s with
  | nil => exact State.peekByte_of_mapper rfl rfl _
  | cons v vs ih =>
    obtain ⟨⟨hne, hne'⟩, hbelow⟩ := List.forall_mem_cons.mp hb
    rw [← State.pushed_cons s v vs log]
    exact (ih (s := (pushedState v s).setLog log) hbelow).trans (s.peekByte_after_other v hne hne')

/-- Pushes leave every word alone that none of them overlaps. -/
theorem State.peekShort_pushed_of_apart {s : State} {vs : List Word} {b : Word} (log : List PeripheralRequest)
    (hb : ∀ a ∈ pushAddresses (s.reg .sp) vs.length, b.toNat + 1 < a.toNat ∨ a.toNat + 1 < b.toNat) :
    (s.pushed vs log).peekShort b = s.peekShort b := by
  induction vs generalizing s with
  | nil => exact State.peekShort_of_mapper rfl rfl _
  | cons v vs ih =>
    obtain ⟨hapart, hbelow⟩ := List.forall_mem_cons.mp hb
    rw [← State.pushed_cons s v vs log]
    exact (ih (s := (pushedState v s).setLog log) hbelow).trans (s.peekShort_after_other v hapart)

/-- A pushed word stands where a Memory or Register device holds its address. -/
theorem State.peekShort_pushed {s : State} {vs : List Word} (log : List PeripheralRequest) (hs : s.Inv)
    (hn : 2 * vs.length ≤ 65536) : ∀ p ∈ (pushAddresses (s.reg .sp) vs.length).zip vs, s.hasShort p.1 →
      (s.pushed vs log).peekShort p.1 = some p.2 := by
  induction vs generalizing s with
  | nil => exact fun p hp => absurd hp List.not_mem_nil
  | cons v vs ih =>
    rw [← State.pushed_cons s v vs log]
    refine List.forall_mem_cons.mpr ⟨fun hheld => ?_, fun p hp hheld => ?_⟩
    · have hlater : ∀ a ∈ pushAddresses (s.reg .sp - 2) vs.length,
          (s.reg .sp).toNat + 1 < a.toNat ∨ a.toNat + 1 < (s.reg .sp).toNat :=
        fun a ha => (pushAddresses_succ_apart hn ha).symm
      exact (State.peekShort_pushed_of_apart (s := (pushedState v s).setLog log) log hlater).trans
        (State.peekShort_after_same hs v hheld)
    · exact ih (s := (pushedState v s).setLog log) (State.after_inv hs _ _) (by rw [List.length_cons] at hn; omega) p hp
        ((s.hasShort_after _ _ _).mpr hheld)

/-! Calls. -/

/-- The first part of a sequence decides which states the second runs on. -/
theorem Op.bind_congr_of_ok {α β : Type} {x : Op α} {f g : α → Op β} {s : State}
    (h : ∀ a t, x s = .ok a t → f a t = g a t) : (x >>= f) s = (x >>= g) s := by
  rw [Op.bind_apply, Op.bind_apply]
  cases hx : x s with
  | ok a t => exact h a t hx
  | error e t => rfl

/-- Pushing registers other than Sp is pushing the values they have before the first push. -/
theorem pushRegs_eq_pushWords {rs : List Reg} (hsp : Reg.sp ∉ rs) (s : State) :
    pushRegs rs s = pushWords (rs.map s.reg) s := by
  induction rs generalizing s with
  | nil => rfl
  | cons r rs ih =>
    rw [List.mem_cons, not_or] at hsp
    refine Op.bind_congr_of_ok (x := push (s.reg r)) fun _ t ht => ?_
    obtain ⟨-, -, hothers⟩ := push_ok_frame ht
    rw [ih hsp.2, List.map_congr_left fun q hq => hothers q fun h => hsp.2 (h ▸ hq)]

/-- What a call does after its pushes (R240, R242, R243). -/
def enterCallee (target : Word) : Op Unit := do
  setReg .fp (← getReg .sp)
  setFs 0
  setReg .ip target

/-- The pushes of a call are those of `callWords`: the two last words are of the state the pushes before them leave. -/
theorem pushState_bind_setReg_ip (target : Word) (s : State) :
    (pushState >>= fun _ => setReg .ip target) s = (pushWords (callWords s) >>= fun _ => enterCallee target) s := by
  have hwords : callWords s = savedRegs.map s.reg ++ [s.reg .ip, s.fs + 20] := rfl
  rw [hwords, pushWords_append, bind_assoc, pushState, bind_assoc, Op.bind_apply,
    pushRegs_eq_pushWords (by decide), ← Op.bind_apply (pushWords _)]
  refine Op.bind_congr_of_ok fun _ t ht => ?_
  obtain ⟨p, -, rfl⟩ := (pushWords_endsAs _ _).ok_of_result ht
  have hip : (s.pushed (savedRegs.map s.reg) p.2).reg .ip = s.reg .ip := rfl
  have hfs : (s.pushed (savedRegs.map s.reg) p.2).fs = s.fs + 16 := rfl
  simp only [bind_assoc, getReg_bind, hip, pushWords, enterCallee, pure_bind]
  refine Op.bind_congr_of_ok fun _ u hu => ?_
  obtain ⟨-, hfs', -⟩ := push_ok_frame hu
  rw [getFs_bind, hfs', hfs, show s.fs + 16 + 2 + 2 = s.fs + 20 by bv_omega]

/-- The instruction is a call, of either form, whose target is `target` (R242, R243). -/
def IsCallTo (i : Instr) (s : State) (target : Word) : Prop :=
  i = .callLit target ∨ ∃ r, i = .callReg r ∧ target = s.reg r

theorem exists_isCallTo {i : Instr} (h : (∃ addr, i = .callLit addr) ∨ (∃ r, i = .callReg r)) (s : State) :
    ∃ target, IsCallTo i s target := by
  obtain ⟨addr, rfl⟩ | ⟨r, rfl⟩ := h
  · exact ⟨addr, .inl rfl⟩
  · exact ⟨s.reg r, .inr ⟨r, rfl, rfl⟩⟩

/-- Both forms of a call push the frame and enter the callee: the target is read before the frame is pushed (D10). -/
theorem exec_call {i : Instr} {s : State} {target : Word} (h : IsCallTo i s target) :
    exec i s = finish (pushWords (callWords s) >>= fun _ => enterCallee target) s := by
  have hfinish : exec i s = finish (pushState >>= fun _ => setReg .ip target) s := by
    obtain rfl | ⟨r, rfl, rfl⟩ := h <;> rfl
  rw [hfinish, finish, finish, pushState_bind_setReg_ip]

/-- The state that a completed call leaves. -/
def State.called (s : State) (target : Word) (log : List PeripheralRequest) : State :=
  (((s.pushed (callWords s) log).setReg .fp (s.reg .sp - 20)).setFs 0).setReg .ip target

theorem length_callWords (s : State) : (callWords s).length = 10 := rfl

theorem State.peekByte_called (s : State) (target a : Word) (log : List PeripheralRequest) :
    (s.called target log).peekByte a = (s.pushed (callWords s) log).peekByte a := rfl

theorem State.peekShort_called (s : State) (target a : Word) (log : List PeripheralRequest) :
    (s.called target log).peekShort a = (s.pushed (callWords s) log).peekShort a := rfl

/-- A call ends as its ten writes do (R240). -/
theorem call_endsAs (s : State) (target : Word) :
    EndsAs (fun p _ t => t = s.called target p.2) ((pushWords (callWords s) >>= fun _ => enterCallee target) s)
      (s.accessAll s.peripheralLog (callWrites s)) := by
  rw [callWrites_eq_pushWrites]
  exact (pushWords_endsAs (callWords s) s).andThen fun p _ t ht => ⟨(), _, rfl, by subst ht; rfl⟩

/-- Settles O43: the write that does not complete is the first of the ten that does not, and a call ends as its writes do. -/
theorem callsFaultAtFirstBadPush : Obligations.CallsFaultAtFirstBadPush := by
  intro i s k a v vs log hi hbefore hv ha
  subst ha
  obtain ⟨target, hcall⟩ := exists_isCallTo hi s
  have hk : (callWrites s)[k]? = some (.writeShort v, s.reg .sp - BitVec.ofNat 16 (2 * k)) := by
    rw [callWrites_eq_pushWrites]
    exact getElem?_pushWrites hv
  obtain ⟨hlt, hget⟩ := List.getElem?_eq_some_iff.mp hk
  refine stopsAsAccess_of_access_error fun e he => ?_
  have hstop : s.accessAll s.peripheralLog (callWrites s) = .error e := by
    rw [← List.take_append_drop k (callWrites s), List.drop_eq_getElem_cons hlt, hget]
    exact State.accessAll_append_cons_error hbefore he _
  have hends := call_endsAs s target
  rw [hstop] at hends
  rw [exec_call hcall]
  exact hends.finish_error

/-- Settles O50: a call ends as its writes do, and where they complete the state it leaves is `State.called`. -/
theorem callsCompleteOnAnyDevices : Obligations.CallsCompleteOnAnyDevices := by
  intro i s target vs log hcall hinv hwrites
  have hends := call_endsAs s target
  rw [hwrites] at hends
  obtain ⟨t, ht, rfl⟩ := hends.finish_ok
  refine ⟨_, (exec_call hcall).trans ht, rfl, rfl, rfl, rfl, ?_, rfl, ?_, ?_, ?_, rfl, rfl⟩
  · intro q hip hsp hfp
    simp only [State.called, State.pushed, State.reg_setReg, State.reg_setFs, State.reg_setLog, State.reg_setMapper, hip, hsp,
      hfp, if_false]
  · intro p hp hheld
    rw [State.peekShort_called]
    exact State.peekShort_pushed log hinv (by rw [length_callWords]; decide) p hp hheld
  · intro b hb
    rw [State.peekByte_called]
    exact State.peekByte_pushed log hb
  · exact Mapper.shape_afterPushes _ _ _ _

/-- A write where a Memory or Register device holds the word completes without a request to a peripheral. -/
theorem State.access_writeShort_of_hasShort {s : State} {a : Word} (v : Word) (log : List PeripheralRequest)
    (h : s.hasShort a) : s.access log (.writeShort v) a = .ok (0, log) := by
  have hr : s.reply (.writeShort v) a = .done 0 :=
    (Mapper.reply_writeShort _ _ _ v).trans (State.hasShort_iff_ofRead.mp h)
  rw [State.access, hr]

/-- A run of writes of words that a Memory or Register device holds. -/
theorem State.accessAll_pushWrites_of_hasShort {s : State} {a : Word} {vs : List Word} (log : List PeripheralRequest)
    (h : ∀ b ∈ pushAddresses a vs.length, s.hasShort b) : ∃ ws, s.accessAll log (pushWrites a vs) = .ok (ws, log) := by
  induction vs generalizing a with
  | nil => exact ⟨[], rfl⟩
  | cons v vs ih =>
    obtain ⟨hheld, hbelow⟩ := List.forall_mem_cons.mp h
    obtain ⟨ws, hws⟩ := ih hbelow
    refine ⟨0 :: ws, ?_⟩
    rw [pushWrites_cons, State.accessAll_cons, State.access_writeShort_of_hasShort v log hheld, except_ok_bind, hws]
    rfl

/-- Where every word below Sp is held, a call of either form completes, and all ten words stand there (R240, R241). -/
theorem callsTo_of_hasShort {i : Instr} {s : State} {target : Word} (hcall : IsCallTo i s target) (hinv : s.Inv)
    (hheld : ∀ a ∈ pushAddresses (s.reg .sp) 10, s.hasShort a) : callsTo i s target := by
  obtain ⟨ws, hwrites⟩ := State.accessAll_pushWrites_of_hasShort (vs := callWords s) s.peripheralLog hheld
  obtain ⟨t, hexec, hip, hsp, hfp, hfs, hregs, hlog, hwords, hbytes, hshape, hrun, hparams⟩ :=
    callsCompleteOnAnyDevices i s target ws _ hcall hinv hwrites
  refine ⟨t, hexec, hip, hsp, hfp, hfs, hregs, ?_, hbytes, hshape, hrun, hlog, hparams⟩
  rw [← List.forall₂_eq_eq_eq, List.forall₂_map_left_iff, List.forall₂_map_right_iff, List.forall₂_iff_zip]
  refine ⟨pushAddresses_length _ _, fun hp => ?_⟩
  exact hwords _ hp (hheld _ (List.of_mem_zip hp).1)

/-- Settles O41: where every word below Sp is held, no write reaches a peripheral. -/
theorem callLitCalls : Obligations.CallLitCalls :=
  fun _ _ => ⟨rfl, callsTo_of_hasShort (.inl rfl)⟩

/-- Settles O42: as CallLit, the register having been read before the frame is pushed. -/
theorem callRegCalls : Obligations.CallRegCalls :=
  fun r _ => ⟨rfl, callsTo_of_hasShort (.inr ⟨r, rfl, rfl⟩)⟩

/-! Runs of pops. -/

theorem popReads_succ (a : Word) (n : Nat) : popReads a (n + 1) = (.readShort, a + 2) :: popReads (a + 2) n := rfl

theorem popReads_add (a : Word) (m n : Nat) :
    popReads a (m + n) = popReads a m ++ popReads (a + BitVec.ofNat 16 (2 * m)) n := by
  induction m generalizing a with
  | zero => simp [popReads, popAddresses]
  | succ m ih => rw [Nat.add_right_comm, popReads_succ, ih, popReads_succ, List.cons_append, add_two_add_ofNat]

/-- A pop ends as its read does (R221). -/
theorem pop_endsAs (s : State) :
    EndsAs (fun p v t => p.1 = [v] ∧ t = s.countPopped.setLog p.2) (pop s)
      (s.accessAll s.peripheralLog (popReads (s.reg .sp) 1)) := by
  have hpop : pop s = busAccess .readShort (s.reg .sp + 2) s.countPopped := rfl
  have hread := busAccess_endsAs .readShort (s.reg .sp + 2) s.countPopped
  rw [State.after_readShort] at hread
  exact (hpop ▸ hread).one fun v log w t ⟨hv, ht⟩ => ⟨by rw [hv], ht⟩

/-- A pop, and then an operation that makes the other reads of a run. -/
theorem pop_bind_endsAs {β : Type} {f : Word → Op β} {s : State} {n : Nat}
    {Q : List Word × List PeripheralRequest → β → State → Prop}
    (hf : ∀ v log, EndsAs (fun q => Q (v :: q.1, q.2)) (f v (s.countPopped.setLog log))
      ((s.countPopped.setLog log).accessAll log (popReads (s.reg .sp + 2) n))) :
    EndsAs Q ((pop >>= f) s) (s.accessAll s.peripheralLog (popReads (s.reg .sp) (n + 1))) := by
  refine (pop_endsAs s).seq (l' := popReads (s.reg .sp + 2) n) (fun p v t ⟨_, ht⟩ => ?_) fun p v t ⟨hv, ht⟩ => ?_
  · subst ht
    exact State.accessAll_of_mapper (s := s) (t := s.countPopped.setLog p.2) rfl rfl _ _
  · subst ht
    rw [hv]
    exact hf v p.2

/-- One pop into a register and then a run of pops into others. -/
theorem PoppedInto.cons {r : Reg} {rs : List Reg} {w : Word} {ws : List Word} {s t : State} (hr : r ∉ rs) (hsp : r ≠ .sp)
    (p : PoppedInto rs ws (s.countPopped.setReg r w) t) : PoppedInto (r :: rs) (w :: ws) s t where
  sp := by
    rw [p.sp, State.reg_setReg_other _ _ hsp.symm, List.length_cons, ← add_two_add_ofNat]
    rfl
  fs := by
    rw [p.fs, State.fs_setReg, List.length_cons, ← sub_two_sub_ofNat]
    rfl
  got := by rw [List.map_cons, p.got, p.others r hr hsp, State.reg_setReg_same]
  others q hq hq' := by
    rw [List.mem_cons, not_or] at hq
    rw [p.others q hq.2 hq', State.reg_setReg_other _ _ hq.1]
    exact State.reg_setReg_other _ _ hq'
  runState := p.runState
  mapper := p.mapper
  peripheralLog := p.peripheralLog
  params := p.params

theorem PoppedInto.nil (s : State) : PoppedInto [] [] s s where
  sp := (BitVec.add_zero _).symm
  fs := (BitVec.sub_zero _).symm
  got := rfl
  others _ _ _ := rfl
  runState := rfl
  mapper := rfl
  peripheralLog := rfl
  params := rfl

/-- A run of pops into different registers other than Sp ends as its reads do (R221). -/
theorem popRegs_endsAs {rs : List Reg} (hn : rs.Nodup) (hsp : Reg.sp ∉ rs) (s : State) :
    EndsAs (fun p _ t => PoppedInto rs p.1 (s.setLog p.2) t) (popRegs rs s)
      (s.accessAll s.peripheralLog (popReads (s.reg .sp) rs.length)) := by
  induction rs generalizing s with
  | nil => exact .ok (.nil s)
  | cons r rs ih =>
    obtain ⟨hr, hn⟩ := List.nodup_cons.mp hn
    rw [List.mem_cons, not_or] at hsp
    refine pop_bind_endsAs fun v log => ?_
    have hrest := ih hn hsp.2 ((s.countPopped.setLog log).setReg r v)
    rw [State.accessAll_setReg, State.reg_setReg_other _ _ hsp.1] at hrest
    exact hrest.mono fun q _ t hq => .cons (s := s.setLog q.2) hr (Ne.symm hsp.1) hq

/-- The state after `n` words popped and discarded, the peripherals having received the requests of `log`. -/
def State.discarded (s : State) (n : Nat) (log : List PeripheralRequest) : State :=
  ((s.setReg .sp (s.reg .sp + BitVec.ofNat 16 (2 * n))).setFs (s.fs - BitVec.ofNat 16 (2 * n))).setLog log

theorem State.discarded_zero (s : State) : s.discarded 0 s.peripheralLog = s := by
  unfold State.discarded
  simp only [Nat.mul_zero, BitVec.sub_zero, BitVec.add_zero]
  exact congrArg (fun t : State => (t.setFs s.fs).setLog s.peripheralLog) (s.setReg_self .sp)

theorem State.discarded_succ (s : State) (n : Nat) (log log' : List PeripheralRequest) :
    (s.countPopped.setLog log).discarded n log' = s.discarded (n + 1) log' := by
  unfold State.discarded State.countPopped
  simp only [State.reg_setLog, State.reg_setFs, State.reg_setReg_same, State.fs_setLog, State.fs_setFs,
    sub_two_sub_ofNat, add_two_add_ofNat]
  simp only [State.setLog, State.setFs, State.setReg, RegFile.set_set_same]

/-- Discarding words ends as the reads of them do (R244). -/
theorem popDiscard_endsAs (n : Nat) (s : State) :
    EndsAs (fun p _ t => t = s.discarded n p.2) (popDiscard n s)
      (s.accessAll s.peripheralLog (popReads (s.reg .sp) n)) := by
  induction n generalizing s with
  | zero => exact .ok s.discarded_zero.symm
  | succ n ih =>
    exact pop_bind_endsAs fun v log => (ih _).mono fun q _ t hq => hq.trans (s.discarded_succ n log q.2)

/-! The frame invariant. -/

/-- An instruction that ends in a running machine has completed. -/
theorem ok_of_finish_running {op : Op Unit} {s t : State} (h : finish op s = .next t) (hrun : t.runState = .running) :
    op s = .ok () t := by
  obtain ⟨u, hu, hnext⟩ | ⟨k, u, hu, hnext⟩ | ⟨a, u, hu, hhang⟩ := finish_cases op s
  · cases hnext.symm.trans h; exact hu
  · cases hnext.symm.trans h; cases hrun
  · cases hhang.symm.trans h

/-- The frame invariant `Sp = Fp -w FS` (R246). -/
def FrameInv (s : State) : Prop := s.reg .sp = s.reg .fp - s.fs

/-- A push that completes moves Sp down by as much as FS up. -/
theorem FrameInv.push {v : Word} {s t : State} (hs : FrameInv s) (h : Machine.push v s = .ok () t) : FrameInv t := by
  obtain ⟨hsp, hfs, hothers⟩ := push_ok_frame h
  unfold FrameInv at *
  rw [hsp, hfs, hothers .fp (by decide), hs]
  bv_omega

/-- A pop that completes moves Sp up by as much as FS down. -/
theorem FrameInv.pop {r : Reg} {s t : State} (hs : FrameInv s) (hsp : r ≠ .sp) (hfp : r ≠ .fp)
    (h : (Machine.pop >>= setReg r) s = .ok () t) : FrameInv t := by
  obtain ⟨p, -, v, rfl⟩ := ((pop_endsAs s).andThen (Q := fun p _ t => ∃ v, t = (s.countPopped.setLog p.2).setReg r v)
    fun p v t ⟨_, ht⟩ => ⟨(), _, rfl, v, by rw [ht]⟩).ok_of_result h
  unfold FrameInv at *
  rw [State.reg_setReg_other _ _ hsp.symm, State.reg_setReg_other _ _ hfp.symm]
  change s.reg .sp + 2 = s.reg .fp - (s.fs - 2)
  rw [hs]
  bv_omega

/-- Settles O40: an instruction after which the machine runs has completed, and a completed call leaves Fp = Sp and FS = 0. -/
theorem frameInvariantKept : Obligations.FrameInvariantKept := by
  intro i s t hexec hrun
  refine ⟨fun hi _ hs => ?_, fun hi _ => ?_⟩
  · obtain ⟨lit, rfl⟩ | ⟨r, rfl⟩ | ⟨r, hsp, hfp, rfl⟩ := hi
    · exact FrameInv.push hs (ok_of_finish_running hexec hrun)
    · exact FrameInv.push hs (ok_of_finish_running (op := push (s.reg r)) hexec hrun)
    · exact FrameInv.pop hs hsp hfp (ok_of_finish_running hexec hrun)
  · obtain ⟨target, hcall⟩ := exists_isCallTo hi s
    obtain ⟨p, -, rfl⟩ := (call_endsAs s target).ok_of_result (ok_of_finish_running ((exec_call hcall).symm.trans hexec) hrun)
    exact (BitVec.sub_zero _).symm

/-! Returns. -/

/-- The first part of Ret: what it pops of the frame, and the argument count (R244); the answer is the frame size and the
count. -/
def popFrame : Op (Word × Word) := do
  let frameSize ← pop
  setFs frameSize
  popRegs (.ip :: savedRegs.reverse)
  let nArgs ← pop
  return (frameSize, nArgs)

/-- The last part of Ret (R244). -/
def restoreFp (savedFp frameSize : Word) : Op Unit := do
  setReg .fp (savedFp + restoredFrameSize (← getParams).fpRestore frameSize (← getFs))

theorem popState_eq (s : State) :
    popState s = (popFrame >>= fun p => popDiscard p.2.toNat >>= fun _ => restoreFp (s.reg .fp) p.1)
      (s.setReg .sp (s.reg .fp)) := by
  simp only [popState, popFrame, restoreFp, popRegs, bind_assoc, pure_bind, getReg_bind, setReg_bind]

/-- What Ret has done when it has popped the words `ws`, the frame and the count: the saved registers hold their words. -/
structure FramePopped (s : State) (ws : List Word) (log : List PeripheralRequest) (frameSize n : Word) (t : State) : Prop where
  words : ws = frameSize :: ((Reg.ip :: savedRegs.reverse).map t.reg ++ [n])
  sp : t.reg .sp = s.reg .sp + 22
  fs : t.fs = frameSize - 20
  acc : t.reg .acc = s.reg .acc
  peripheralLog : t.peripheralLog = log
  runState : t.runState = s.runState
  mapper : t.mapper = s.mapper
  params : t.params = s.params

/-- The words above Sp are popped in order: the frame size, the return address, R8 to R1, and the count. -/
theorem popFrame_endsAs (s : State) :
    EndsAs (fun p a t => FramePopped s p.1 p.2 a.1 a.2 t) (popFrame s)
      (s.accessAll s.peripheralLog (popReads (s.reg .sp) 11)) := by
  refine pop_bind_endsAs (n := 9 + 1) fun frameSize log => ?_
  rw [setFs_bind, popReads_add, ← State.accessAll_setFs _ frameSize]
  refine (popRegs_endsAs (rs := .ip :: savedRegs.reverse) (by decide) (by decide) _).seq (fun q _ t hq => ?_) fun q _ t hq => ?_
  · rw [hq.peripheralLog]
    exact State.accessAll_of_mapper hq.mapper hq.params _ _
  have hsp : t.reg .sp = s.reg .sp + 2 + 18 := hq.sp
  rw [show s.reg .sp + 2 + BitVec.ofNat 16 (2 * 9) = t.reg .sp from hsp.symm]
  refine (pop_endsAs t).andThen fun x n u ⟨hn, hu⟩ => ⟨(frameSize, n), u, rfl, ?_⟩
  subst hu
  exact {
    words := by rw [hn, ← hq.got]; rfl
    sp := by
      change t.reg .sp + 2 = _
      rw [hsp]
      bv_omega
    fs := by
      change t.fs - 2 = _
      rw [show t.fs = frameSize - 18 from hq.fs]
      bv_omega
    acc := hq.others .acc (by decide) (by decide)
    peripheralLog := rfl
    runState := hq.runState
    mapper := hq.mapper
    params := hq.params }

/-- What Ret leaves where the words `ws` are the frame and the count, and `log` the requests made (R244). -/
structure Returned (s : State) (ws : List Word) (log : List PeripheralRequest) (frameSize n : Word) (t : State) : Prop where
  words : ws = frameSize :: ((Reg.ip :: savedRegs.reverse).map t.reg ++ [n])
  sp : t.reg .sp = s.reg .fp + 22 + 2 * n
  fs : t.fs = frameSize - 20 - 2 * n
  fp : t.reg .fp = s.reg .fp + restoredFrameSize s.params.fpRestore frameSize (frameSize - 20 - 2 * n)
  acc : t.reg .acc = s.reg .acc
  peripheralLog : t.peripheralLog = log
  runState : t.runState = s.runState
  mapper : t.mapper = s.mapper
  params : t.params = s.params

/-- The reads of Ret: the frame and the count, and then as many arguments as the count says; with the words of the first. -/
def State.retAccesses (s : State) : Except Stop (List Word × List PeripheralRequest) :=
  s.accessAll s.peripheralLog (popReads (s.reg .fp) 11) >>= fun p =>
    (fun q => (p.1, q.2)) <$> s.accessAll p.2 (popReads (s.reg .fp + 22) (p.1.getD 10 0).toNat)

/-- The reads of Ret after the eleven of the frame and the count. -/
theorem State.retAccesses_of_frame {s : State} {ws : List Word} {n : Word} {log : List PeripheralRequest}
    (hframe : s.accessAll s.peripheralLog (popReads (s.reg .fp) 11) = .ok (ws, log)) (hn : ws.getD 10 0 = n) :
    s.retAccesses = (fun q => (ws, q.2)) <$> s.accessAll log (popReads (s.reg .fp + 22) n.toNat) := by
  rw [State.retAccesses, hframe, except_ok_bind, hn]

/-- Ret ends as its reads do (R244). -/
theorem popState_endsAs (s : State) :
    EndsAs (fun p _ t => ∃ frameSize n, Returned s p.1 p.2 frameSize n t) (popState s) s.retAccesses := by
  rw [popState_eq]
  have hframe := popFrame_endsAs (s.setReg .sp (s.reg .fp))
  rw [State.accessAll_setReg, State.reg_setReg_same] at hframe
  refine hframe.bind fun p a t ht => ?_
  have hcount : p.1.getD 10 0 = a.2 := by rw [ht.words]; rfl
  have hargs : t.accessAll t.peripheralLog (popReads (t.reg .sp) a.2.toNat)
      = s.accessAll p.2 (popReads (s.reg .fp + 22) a.2.toNat) := by
    rw [ht.sp, ht.peripheralLog, State.reg_setReg_same]
    exact State.accessAll_of_mapper (s := s) ht.mapper ht.params _ _
  rw [hcount, ← hargs]
  refine EndsAs.map (P := fun q _ w => Returned s p.1 q.2 a.1 a.2 w)
    ((popDiscard_endsAs a.2.toNat t).andThen fun q _ u hu => ⟨(), _, rfl, ?_⟩) fun q _ w hw => ⟨a.1, a.2, hw⟩
  subst hu
  have hdouble : BitVec.ofNat 16 (2 * a.2.toNat) = 2 * a.2 := by
    rw [BitVec.ofNat_mul, BitVec.ofNat_toNat, BitVec.setWidth_eq]
    rfl
  have hfs : (t.discarded a.2.toNat q.2).fs = a.1 - 20 - 2 * a.2 := by
    rw [← ht.fs, ← hdouble]
    rfl
  exact {
    words := ht.words
    sp := by
      change t.reg .sp + BitVec.ofNat 16 (2 * a.2.toNat) = _
      rw [ht.sp, hdouble, State.reg_setReg_same]
    fs := hfs
    fp := by
      rw [State.reg_setReg_same, hfs]
      exact congrArg (fun p : Params => _ + restoredFrameSize p.fpRestore _ _) ht.params
    acc := ht.acc
    peripheralLog := rfl
    runState := ht.runState
    mapper := ht.mapper
    params := ht.params }

/-- Settles O51: Ret ends as its reads do, and each word read is where `Returned` says. -/
theorem retCompletesOnAnyDevices : Obligations.RetCompletesOnAnyDevices := by
  intro s frameSize ret v8 v7 v6 v5 v4 v3 v2 v1 n args log₁ log₂ hframe hargs
  have hends := popState_endsAs s
  rw [State.retAccesses_of_frame (n := n) hframe rfl, hargs] at hends
  obtain ⟨t, hret, frameSize', n', h⟩ := EndsAs.finish_ok (b := (_, log₂)) hends
  have hwords := h.words
  simp only [savedRegs, List.reverse_cons, List.reverse_nil, List.nil_append, List.cons_append, List.map_cons, List.map_nil,
    List.cons.injEq] at hwords
  obtain ⟨rfl, rfl, rfl, rfl, rfl, rfl, rfl, rfl, rfl, rfl, rfl, -⟩ := hwords
  refine ⟨t, hret, rfl, rfl, h.sp, h.fs, h.fp.trans ?_, h.acc, h.peripheralLog, h.runState, h.mapper, h.params⟩
  cases s.params.fpRestore <;> rfl

/-- The first of a run of reads that does not complete. -/
theorem State.accessAll_popReads_error {s : State} {a : Word} {k n : Nat} {vs : List Word} {log log' : List PeripheralRequest}
    {e : Stop} (hbefore : s.accessAll log (popReads a k) = .ok (vs, log')) (hk : k < n)
    (he : s.access log' .readShort (a + 2 + BitVec.ofNat 16 (2 * k)) = .error e) :
    s.accessAll log (popReads a n) = .error e := by
  obtain ⟨m, rfl⟩ := Nat.exists_eq_add_of_lt hk
  rw [BitVec.add_assoc, BitVec.add_comm 2, ← BitVec.add_assoc] at he
  rw [Nat.add_assoc, popReads_add, popReads_succ]
  exact State.accessAll_append_cons_error hbefore he _

/-- Settles O45: the read that does not complete is one of the first eleven, or one of the arguments that the eleventh word
counts; either way Ret's reads end as it does. -/
theorem retFaultsAtFirstBadPop : Obligations.RetFaultsAtFirstBadPop := by
  intro s k a vs log hbefore hk ha
  subst ha
  refine stopsAsAccess_of_access_error fun e he => ?_
  have hends := popState_endsAs s
  suffices hstop : s.retAccesses = .error e by
    rw [hstop] at hends
    exact hends.finish_error
  by_cases hfew : k < 11
  · rw [State.retAccesses, State.accessAll_popReads_error hbefore hfew he]
    rfl
  obtain ⟨n, hn, hk⟩ := hk.resolve_left hfew
  obtain ⟨j, rfl⟩ := Nat.exists_eq_add_of_le (Nat.le_of_not_lt hfew)
  rw [popReads_add] at hbefore
  obtain ⟨ws, log₁, ws', hframe, hargs, rfl⟩ := State.accessAll_append_eq_ok hbefore
  have hlen : ws.length = 11 := State.accessAll_length hframe
  have hcount : ws.getD 10 0 = n := by
    rw [List.getElem?_append_left (by omega)] at hn
    rw [List.getD_eq_getElem?_getD, hn, Option.getD_some]
  have haddr : s.reg .fp + 2 + BitVec.ofNat 16 (2 * (11 + j)) = s.reg .fp + 22 + 2 + BitVec.ofNat 16 (2 * j) := by
    rw [Nat.mul_add, BitVec.ofNat_add]
    bv_omega
  rw [haddr] at he
  rw [State.retAccesses_of_frame hframe hcount, State.accessAll_popReads_error (a := s.reg .fp + 22) hargs (by omega) he]
  rfl

/-- A run of reads of words that a Memory or Register device holds. -/
theorem State.accessAll_popReads_of_peekShort {s : State} {a : Word} {n : Nat} {vs : List Word}
    (log : List PeripheralRequest) (h : (popAddresses a n).map s.peekShort = vs.map some) :
    s.accessAll log (popReads a n) = .ok (vs, log) := by
  induction n generalizing a vs with
  | zero =>
    cases vs with
    | nil => rfl
    | cons => cases h
  | succ n ih =>
    cases vs with
    | nil => cases h
    | cons v vs =>
      obtain ⟨hv, hvs⟩ := List.cons.inj h
      rw [popReads_succ, State.accessAll_cons, State.access_of_peekShort hv, except_ok_bind, ih hvs]
      rfl

theorem State.exists_words_of_hasShort {s : State} {as : List Word} (h : ∀ a ∈ as, s.hasShort a) :
    ∃ vs : List Word, as.map s.peekShort = vs.map some := by
  induction as with
  | nil => exact ⟨[], rfl⟩
  | cons a as ih =>
    obtain ⟨ha, has⟩ := List.forall_mem_cons.mp h
    obtain ⟨v, hv⟩ := Option.isSome_iff_exists.mp ha
    obtain ⟨vs, hvs⟩ := ih has
    exact ⟨v :: vs, by rw [List.map_cons, List.map_cons, hv, hvs]⟩

/-- Settles O44: words that stand in memory are read without a request to a peripheral. -/
theorem retRestores : Obligations.RetRestores := by
  intro s frameSize ret v8 v7 v6 v5 v4 v3 v2 v1 n hframe hheld
  obtain ⟨args, hargs⟩ := State.exists_words_of_hasShort hheld
  obtain ⟨t, hexec, hip, hregs, hsp, hfs, hfp, hacc, hlog, hrun, hmapper, hparams⟩ :=
    retCompletesOnAnyDevices s frameSize ret v8 v7 v6 v5 v4 v3 v2 v1 n args _ _
      (State.accessAll_popReads_of_peekShort s.peripheralLog hframe) (State.accessAll_popReads_of_peekShort _ hargs)
  exact ⟨t, hexec, hip, hregs, hsp, hfs, hfp, hacc, hrun, hmapper, hlog, hparams, State.peekByte_of_mapper hmapper hparams⟩

/-- Settles O46: Ret reads the call's ten words back from the last one pushed, and above them the argument count. -/
theorem callThenRetRestoresCaller : Obligations.CallThenRetRestoresCaller := by
  intro i s t u n hi hinv hheld hcall hmode hfp hkept hn hargs
  obtain ⟨target, hcallTo⟩ := exists_isCallTo hi s
  obtain ⟨t', hexec, -, -, hfpCall, -, -, hwords, -⟩ := callsTo_of_hasShort hcallTo hinv hheld
  obtain rfl : t' = t := by
    rw [hexec] at hcall
    cases hcall
    rfl
  have hbase : u.reg .fp + 22 = s.reg .sp + 2 := by
    rw [hfp, hfpCall]
    bv_omega
  have hframe : (popAddresses (u.reg .fp) 11).map u.peekShort = ((callWords s).reverse ++ [n]).map some := by
    have hreversed : popAddresses (t'.reg .fp) 10 = (pushAddresses (s.reg .sp) 10).reverse := by
      rw [hfpCall]
      exact popAddresses_eq_reverse_pushAddresses (s.reg .sp) 10
    have hlast : u.peekShort (u.reg .fp + BitVec.ofNat 16 (2 * (10 + 1))) = some n :=
      (congrArg u.peekShort hbase).trans hn
    rw [popAddresses_succ, List.map_append, List.map_append, List.map_singleton, List.map_singleton, hlast, hfp,
      List.map_congr_left hkept, hreversed, List.map_reverse, List.map_reverse, hwords]
  rw [← hbase] at hargs
  obtain ⟨w, hret, hip, hregs, hsp, hfs, hfpRet, hacc, hsame⟩ := retRestores u _ _ _ _ _ _ _ _ _ _ n hframe hargs
  have hspRet : w.reg .sp = s.reg .sp + 2 + 2 * n := by rw [hsp, hbase]
  have hfsRet : w.fs = s.fs - 2 * n := by
    rw [hfs]
    bv_omega
  have hsaved : ∀ r ∈ savedRegs, w.reg r = s.reg r :=
    List.map_inj_left.mp (show savedRegs.map w.reg = savedRegs.map s.reg from hregs)
  refine ⟨w, hret, hsaved, hip, hspRet, hfsRet, hacc, hsame, fun hframeInv => ?_⟩
  have hfpBack : w.reg .fp = s.reg .fp := by
    rw [hfpRet, hmode, hfp, hfpCall]
    change s.reg .sp - 20 + (s.fs + 20) = s.reg .fp
    rw [hframeInv]
    bv_omega
  refine ⟨hfpBack, ?_⟩
  rw [hfpBack, hspRet, hfsRet, hframeInv]
  ring

end Machine

end Sys2Proof

/-! PROOFS. The statements about Halt (46_halt.md): what it leaves, and that the states it and a fault lead to are terminal. -/

namespace Sys2Proof

namespace Machine

/-- A step asked for in Halted or Faulted answers the same state (R261, R276). -/
theorem step_of_not_running {s : State} (h : s.runState ≠ .running) : step s = .next s := by
  unfold step
  cases hr : s.runState with
  | running => exact absurd hr h
  | halted => rfl
  | faulted k => rfl

/-- Settles O11: the host is told the report of the run state, which is `continue` for Running alone. -/
theorem terminalStatesStay : Obligations.TerminalStatesStay := by
  intro s h
  have hstep : step s = .next s := step_of_not_running h
  refine ⟨hstep, ?_, StepReport.of_eq_continue_iff.not.mpr h⟩
  rw [hostStep, hstep]

/-- Executing Halt sets the run state and nothing else (R260). -/
theorem exec_halt (s : State) : exec .halt s = .next (s.setRun .halted) := rfl

/-- Fetching Halt, one byte long, leaves Ip one further (R260). -/
theorem State.afterFetch_halt (s : State) : s.afterFetch .halt = s.setReg .ip (s.reg .ip + 1) := rfl

/-- Settles O12: Halt sets the run state alone, and its fetch Ip alone. -/
theorem haltStops : Obligations.HaltStops := by
  refine ⟨rfl, fun s => ⟨⟨s.setRun .halted, exec_halt s, rfl, fun _ => rfl, rfl, rfl, rfl, rfl, fun _ => rfl⟩, ?_⟩⟩
  intro hrun hwf hholds
  have hstep : step s = .next ((s.setReg .ip (s.reg .ip + 1)).setRun .halted) := by
    rw [stepRunsDecodedInstruction s .halt hrun hwf hholds, s.afterFetch_halt, exec_halt]
  exact ⟨_, hstep, rfl, s.reg_setReg_same .ip _, fun _ hq => s.reg_setReg_other _ hq, rfl, fun _ => rfl⟩

end Machine

end Sys2Proof

/-! PROOFS. The statements about the opcode fetch that raises an exception (60_exceptions.md): its access does not complete, or
the byte it gives selects no variant. -/

namespace Sys2Proof

namespace Machine

/-- The step of a running machine whose fetch stops ends as the fetch does (R90). -/
theorem step_of_fetchInstr_error {s t : State} {e : Stop} (hrun : s.runState = .running)
    (h : fetchInstr s = .error e t) : step s = stopOutcome e t := by
  simp only [step, hrun, h]

/-- A byte fetch whose access stops, stops so (R13). -/
theorem fetchByte_of_busAccess_error {s t : State} {e : Stop} (h : busAccess .readByte (s.reg .ip) s = .error e t) :
    fetchByte s = .error e t := by
  unfold fetchByte
  rw [getReg_bind]
  exact Op.bind_of_error (Op.bind_of_error h)

/-- An opcode fetch whose access stops, stops so (R90). -/
theorem fetchInstr_of_busAccess_error {s t : State} {e : Stop} (h : busAccess .readByte (s.reg .ip) s = .error e t) :
    fetchInstr s = .error e t := by
  unfold fetchInstr
  rw [getReg_bind]
  exact Op.bind_of_error (fetchByte_of_busAccess_error h)

/-- A fetched opcode byte that selects no variant: the fault names the byte and its address, and Ip has advanced past it
(R99, R271). -/
theorem fetchInstr_of_unknown_opcode {s : State} {b : Word} {log : List PeripheralRequest}
    (h : s.access s.peripheralLog .readByte (s.reg .ip) = .ok (b, log))
    (hv : s.params.opcodeMap.variantOf (lowByte b) = none) :
    fetchInstr s = .error (.fault (.decodeOpcode (lowByte b) (s.reg .ip))) (s.fetched 1 log) := by
  unfold fetchInstr
  rw [getReg_bind, Op.bind_of_ok (fetchByte_of_access h), getParams_bind,
    show (s.fetched 1 log).params = s.params from rfl, hv]
  rfl

/-- The step of a running machine whose opcode byte, from whichever device, selects no variant (R271). -/
theorem step_of_unknown_opcode {s : State} {b : Word} {log : List PeripheralRequest} (hrun : s.runState = .running)
    (h : s.access s.peripheralLog .readByte (s.reg .ip) = .ok (b, log))
    (hv : s.params.opcodeMap.variantOf (lowByte b) = none) :
    step s = .next ((s.fetched 1 log).enterFault (.decodeOpcode (lowByte b) (s.reg .ip))) :=
  step_of_fetchInstr_error hrun (fetchInstr_of_unknown_opcode h hv)

/-- Settles O7: a byte that a Memory or Register device holds is fetched without a request to a peripheral, so the fetch has
moved Ip alone. -/
theorem unknownOpcodeFaults : Obligations.UnknownOpcodeFaults := by
  intro s b hrun hb hv
  obtain ⟨w, ha, rfl⟩ := State.access_of_peekByte hb s.peripheralLog
  exact ⟨_, step_of_unknown_opcode hrun ha hv, rfl, s.reg_ip_fetched 1 s.peripheralLog,
    fun _ hq => s.reg_setReg_other _ hq, rfl, rfl, rfl, rfl⟩

/-- Settles O9: the access at Ip is the first thing the step does, and its byte is looked up before anything else is fetched. -/
theorem opcodeFetchFaults : Obligations.OpcodeFetchFaults := by
  intro s hrun
  refine ⟨stopsAsAccess_of_error fun e t he => ?_, fun b log ha hv => ?_⟩
  · exact ⟨t, step_of_fetchInstr_error hrun (fetchInstr_of_busAccess_error he)⟩
  · exact ⟨_, step_of_unknown_opcode hrun ha hv, rfl⟩

end Machine

end Sys2Proof

/-! PROOFS. The statements about the state before the first step (70_reset_and_hazards.md): what the launch premises of R319 say
of a platform of one Memory, and what registers that the host sets leave of a reset state. -/

namespace Sys2Proof

namespace Machine

/-! Reset states. -/

/-- A reset state is a machine just created, its Ip then set to the entry address, on a platform whose Register devices hold
zeros (R33, R300, R305). -/
theorem resetState_iff {entry : Word} {s : State} :
    ResetState entry s ↔ s = (State.create s.params s.mapper).hostSet .ip entry
      ∧ ∀ bytes, Device.register bytes ∈ s.mapper.devices → ∀ i, i < 2 → bytes.read i = 0x00 := by
  constructor
  · rintro ⟨hip, hzero, hsp, hfp, hfs, hrun, hlog, hdevices⟩
    have hregs : s.regs = RegFile.reset.set .ip entry := RegFile.ext_get fun r => by
      cases r with
      | ip => exact hip
      | sp => exact hsp
      | fp => exact hfp
      | acc | r1 | r2 | r3 | r4 | r5 | r6 | r7 | r8 => exact hzero _ (by decide)
    refine ⟨?_, hdevices⟩
    obtain ⟨regs, fs, runState, mapper, log, params⟩ := s
    cases hregs
    cases hfs
    cases hrun
    cases hlog
    rfl
  · rintro ⟨hs, hdevices⟩
    have hcreated : ∀ r ∈ [Reg.acc, .r1, .r2, .r3, .r4, .r5, .r6, .r7, .r8], r ≠ .ip ∧ RegFile.reset.get r = 0x0000 := by
      decide
    have hzero : ∀ r ∈ [Reg.acc, .r1, .r2, .r3, .r4, .r5, .r6, .r7, .r8], s.reg r = 0x0000 := fun r hr => by
      obtain ⟨hne, hreset⟩ := hcreated r hr
      rw [hs]
      exact (State.reg_setReg_other _ entry hne).trans hreset
    refine ⟨?_, hzero, ?_, ?_, ?_, ?_, ?_, hdevices⟩ <;> (rw [hs]; rfl)

/-- A reset state is Running (R33). -/
theorem ResetState.noFault {entry : Word} {s : State} (h : ResetState entry s) : NoFault s := by
  obtain ⟨_, _, _, _, _, hrun, _⟩ := h
  exact hrun

/-- In a reset state every register but Ip holds its reset value (R33). -/
theorem ResetState.reg_of_ne_ip {entry : Word} {s : State} (h : ResetState entry s) {q : Reg} (hq : q ≠ .ip) :
    s.reg q = State.reset.reg q := by
  rw [(resetState_iff.mp h).1]
  exact State.reg_setReg_other _ entry hq

/-! One Memory with an image. -/

/-- At or past a capacity that every cell lies within, a memory reads as unlisted (R53). -/
theorem Memory.read_of_within {m : Memory} {capacity i : Nat} (h : m.within capacity) (hi : capacity ≤ i) :
    m.read i = Memory.unlisted := by
  induction m with
  | nil => rfl
  | cons c rest ih =>
    have hc : c.1 < capacity := h c List.mem_cons_self
    rw [Memory.read, if_neg (by omega)]
    exact ih fun d hd => h d (List.mem_cons_of_mem _ hd)

/-- The region list of an auto-wrapped Memory is that of auto-wrapped Memories of its capacity alone (R64). -/
theorem Mapper.shape_eq_shape_autoWrap_iff {m : Mapper} {capacity : Nat} :
    m.shape = (Mapper.autoWrap capacity []).shape ↔ ∃ bytes, m = Mapper.autoWrap capacity bytes := by
  constructor
  · intro h
    match m, h with
    | .device _ _ (.memory _ bytes) .nil, rfl => exact ⟨bytes, rfl⟩
  · rintro ⟨bytes, rfl⟩
    rfl

/-- The bytes of a well-formed auto-wrapped Memory are in canonical form within its capacity (R53, R64). -/
theorem Mapper.bytes_of_autoWrap_wf {capacity : Nat} {bytes : Memory} (h : (Mapper.autoWrap capacity bytes).wf = true) :
    bytes.wf ∧ bytes.within capacity := by
  simp only [Mapper.autoWrap, Mapper.wf, Device.wf, Bool.and_eq_true, decide_eq_true_eq] at h
  obtain ⟨⟨_, ⟨_, hwf⟩, hin⟩, _⟩ := h
  exact ⟨hwf, hin⟩

/-- The one device of an auto-wrapped Memory (R64). -/
theorem Mapper.devices_autoWrap (capacity : Nat) (bytes : Memory) :
    (Mapper.autoWrap capacity bytes).devices = [.memory capacity bytes] := rfl

/-- On an auto-wrapped Memory `ImageLoaded` speaks of that Memory alone (R79, R306). -/
theorem imageLoaded_iff_of_autoWrap {s : State} {capacity : Nat} {bytes : Memory} {image : List Byte}
    (h : s.mapper = Mapper.autoWrap capacity bytes) :
    ImageLoaded image s ↔ image.length ≤ capacity ∧ ∀ i, i < capacity → bytes.read i = image.getD i 0x00 := by
  unfold ImageLoaded
  rw [h, Mapper.devices_autoWrap]
  constructor
  · rintro ⟨before, after, c, b, hdevices, hfit, hread, _⟩
    obtain ⟨_, hd⟩ | ⟨_, hd⟩ := List.append_eq_singleton_iff.mp hdevices.symm
    · cases hd
      exact ⟨hfit, hread⟩
    · cases hd
  · rintro ⟨hfit, hread⟩
    exact ⟨[], [], capacity, bytes, rfl, hfit, hread, fun _ _ hd => absurd hd List.not_mem_nil⟩

/-- Canonical bytes within a capacity that the image fits are those of a new Memory with the image copied in, if they read as
the image and 0x00 after it (R53, R79). -/
theorem Memory.eq_load_image {bytes : Memory} {capacity : Nat} {image : List Byte} (hwf : bytes.wf)
    (hin : bytes.within capacity) (hfit : image.length ≤ capacity)
    (hread : ∀ i, i < capacity → bytes.read i = image.getD i 0x00) : bytes = Memory.load [] 0 image := by
  refine Memory.eq_of_read_eq hwf (Memory.load_wf Memory.wf_nil 0 image) fun i => ?_
  rw [Memory.read_load_image]
  by_cases hi : i < capacity
  · exact hread i hi
  · rw [Memory.read_of_within hin (by omega), List.getD_eq_default _ _ (by omega)]

/-- The premises on the platform hold of one auto-wrapped Memory with the image copied in, and of nothing else (R64, R306). -/
theorem platform_premises_iff {s : State} {capacity : Nat} {image : List Byte} (hpos : 1 ≤ capacity)
    (hmax : capacity ≤ 0x10000) (hfit : image.length ≤ capacity) :
    s.Inv ∧ ImageLoaded image s ∧ PlatformIs (Mapper.autoWrap capacity []) s
      ↔ s.mapper = Mapper.autoWrap capacity (Memory.load [] 0 image) := by
  constructor
  · rintro ⟨hinv, himage, hplatform⟩
    obtain ⟨bytes, hm⟩ := Mapper.shape_eq_shape_autoWrap_iff.mp hplatform
    obtain ⟨hwf, hin⟩ := Mapper.bytes_of_autoWrap_wf (by rwa [State.Inv, hm] at hinv)
    obtain ⟨_, hread⟩ := (imageLoaded_iff_of_autoWrap hm).mp himage
    rw [hm, Memory.eq_load_image hwf hin hfit hread]
  · intro hm
    have hin : (Memory.load [] 0 image).within capacity :=
      Memory.load_within (fun _ hc => absurd hc List.not_mem_nil) (by omega)
    have hinv : s.Inv := by
      rw [State.Inv, hm]
      exact Mapper.autoWrap_wf hpos hmax (Memory.load_wf Memory.wf_nil 0 image) hin
    exact ⟨hinv, (imageLoaded_iff_of_autoWrap hm).mpr ⟨hfit, fun i _ => Memory.read_load_image image i⟩,
      Mapper.shape_eq_shape_autoWrap_iff.mpr ⟨_, hm⟩⟩

/-- Settles O52: the premises on the platform fix the mapper, a reset state is the machine created on its mapper, and one Memory
has no Register device to hold anything else. -/
theorem launchPremisesFixTheState : Obligations.LaunchPremisesFixTheState := by
  intro s capacity image entry hpos hmax hfit
  constructor
  · rintro ⟨hinv, hreset, himage, hplatform, _⟩
    have hm := (platform_premises_iff hpos hmax hfit).mp ⟨hinv, himage, hplatform⟩
    exact ⟨_, State.ofMemory_of_fits s.params hpos hmax hfit, hm ▸ (resetState_iff.mp hreset).1⟩
  · rintro ⟨s₀, hcreate, hs⟩
    rw [State.ofMemory_of_fits s.params hpos hmax hfit] at hcreate
    cases hcreate
    have hm : s.mapper = Mapper.autoWrap capacity (Memory.load [] 0 image) := by rw [hs]; rfl
    have hreset : ResetState entry s := by
      refine resetState_iff.mpr ⟨hm ▸ hs, fun bytes hd => ?_⟩
      rw [hm, Mapper.devices_autoWrap] at hd
      exact absurd (List.mem_singleton.mp hd) Device.noConfusion
    obtain ⟨hinv, himage, hplatform⟩ := (platform_premises_iff hpos hmax hfit).mpr hm
    exact ⟨hinv, hreset, himage, hplatform, hreset.noFault⟩

/-! Registers that the host sets. -/

/-- The host sets registers one after another (R305). -/
def State.hostSetAll (s : State) (seeds : List (Reg × Word)) : State := seeds.foldl (fun t p => t.hostSet p.1 p.2) s

theorem State.hostSetAll_cons (s : State) (p : Reg × Word) (seeds : List (Reg × Word)) :
    s.hostSetAll (p :: seeds) = (s.setReg p.1 p.2).hostSetAll seeds := rfl

/-- The host cannot name FS (R305). -/
theorem State.fs_hostSetAll (s : State) (seeds : List (Reg × Word)) : (s.hostSetAll seeds).fs = s.fs := by
  induction seeds generalizing s with
  | nil => rfl
  | cons p seeds ih => rw [State.hostSetAll_cons, ih, State.fs_setReg]

/-- The host cannot name the run state (R305). -/
theorem State.runState_hostSetAll (s : State) (seeds : List (Reg × Word)) :
    (s.hostSetAll seeds).runState = s.runState := by
  induction seeds generalizing s with
  | nil => rfl
  | cons p seeds ih => rw [State.hostSetAll_cons, ih, State.runState_setReg]

/-- A register that the host does not set is unchanged (R23). -/
theorem State.reg_hostSetAll_of_not_mem (s : State) {seeds : List (Reg × Word)} {q : Reg}
    (h : q ∉ seeds.map Prod.fst) : (s.hostSetAll seeds).reg q = s.reg q := by
  induction seeds generalizing s with
  | nil => rfl
  | cons p seeds ih =>
    obtain ⟨hne, hrest⟩ := not_or.mp (List.mem_cons.not.mp h)
    rw [State.hostSetAll_cons, ih _ hrest, State.reg_setReg_other _ _ hne]

/-- A register that the host sets once holds what it set (R305). -/
theorem State.reg_hostSetAll_of_mem (s : State) {seeds : List (Reg × Word)} (hn : (seeds.map Prod.fst).Nodup)
    {p : Reg × Word} (h : p ∈ seeds) : (s.hostSetAll seeds).reg p.1 = p.2 := by
  induction seeds generalizing s with
  | nil => exact absurd h List.not_mem_nil
  | cons p' seeds ih =>
    obtain ⟨hfirst, hrest⟩ := List.nodup_cons.mp hn
    rw [State.hostSetAll_cons]
    rcases List.mem_cons.mp h with rfl | h
    · rw [State.reg_hostSetAll_of_not_mem _ hfirst, State.reg_setReg_same]
    · exact ih _ hrest h

/-- Settles O53: the host's writes reach the named registers alone, and all the rest is as the reset state has it. -/
theorem preSeededRegistersHold : Obligations.PreSeededRegistersHold := by
  rintro seeds entry s hn ⟨s₀, hreset, hs⟩
  obtain rfl : s = s₀.hostSetAll seeds := hs
  have ⟨hip, _, _, _, hfs, hrun, _⟩ := hreset
  refine ⟨fun p hp => s₀.reg_hostSetAll_of_mem hn hp, fun h => ?_, fun q hq h => ?_, ?_, ?_⟩
  · rw [s₀.reg_hostSetAll_of_not_mem h, hip]
  · rw [s₀.reg_hostSetAll_of_not_mem h, hreset.reg_of_ne_ip hq]
  · rw [s₀.fs_hostSetAll, hfs]
  · rw [NoFault, s₀.runState_hostSetAll, hrun]

end Machine

end Sys2Proof
